-- ==== Sys2Proof/Word.lean ====
section
/-!
DEFINITION. The words of SENSIF (spec/00_scope.md R8, R9) and the two small names an operand field of a command can take
(spec/30_encoding.md R64). The name types stand here because Syntax.lean holds the one inductive `Instr`.
-/
namespace Sys2Proof

/-- One byte, the spec's `u8`. -/
abbrev Byte := BitVec 8

/-- One 16-bit quantity, the spec's `u16`; the conversion constants of type `s16` are read with `toInt`. -/
abbrev Half := BitVec 16

/-- One host register, or one command: 32 bits (R15, R62). -/
abbrev Word := BitVec 32

/-- The buffer CRCB reads, field F[0] (R64): 0 is TX, 1 is RX. -/
inductive Buf where
  | tx
  | rx
  deriving DecidableEq, Repr

/-- The opcode length of XFER, field F[0] (R64): 0 is one byte, 1 is two bytes. -/
inductive OpLen where
  | one
  | two
  deriving DecidableEq, Repr

end Sys2Proof
end

