-- ==== Sys2Proof/Syntax.lean ====
section
/-!
DEFINITION. The ten SENSIF commands (spec/30_encoding.md R63, R64), one constructor per row of spec/opcode_table.json. Counts, indices and
lengths are natural numbers, so that the sums of the range checks do not wrap (R74, R76); WellFormed.lean bounds them by the
byte their field holds.
-/
namespace Sys2Proof

/-- A SENSIF command. -/
inductive Instr where
  /-- CRCW: the checksum of one data word (R72). -/
  | crcw
  /-- CRCV: verify one three-byte word (R73). -/
  | crcv
  /-- CRCB: the CRC of bytes START to START + COUNT − 1 of a buffer (R74). -/
  | crcb (buf : Buf) (start count : Nat)
  /-- CRCVAL: validate RX[0..LEN−1] in three-byte words (R75). -/
  | crcval (len : Nat)
  /-- TXPACK: a data word and its checksum into TX[IDX..IDX+2] (R76). -/
  | txpack (idx : Nat)
  /-- CVTT: raw temperature code to centi-°C (R83). -/
  | cvtt
  /-- CVTRH: raw humidity code to centi-%RH (R84). -/
  | cvtrh
  /-- RHICE: a humidity corrected to ice below freezing (R85). -/
  | rhice
  /-- DEWPT: the dew point (R86). -/
  | dewpt
  /-- XFER: run one sensor command as a transaction (R90). -/
  | xfer (opl : OpLen) (txlen rxlen : Nat)
  deriving DecidableEq, Repr

end Sys2Proof
end

