-- ==== Sys2Proof/WellFormed.lean ====
section
/-!
DEFINITION. When a command has a word: every operand fits the byte field that holds it (spec/30_encoding.md R64, R67: "An operand outside
0..255 is an assembly error").
-/
namespace Sys2Proof

/-- An operand fits the u8 field A or B (R62). -/
def fitsField (n : Nat) : Bool := n < 256

/-- Every operand of the command fits its field (R67). -/
def Instr.wellFormed : Instr → Bool
  | .crcw => true
  | .crcv => true
  | .crcb _ start count => fitsField start && fitsField count
  | .crcval len => fitsField len
  | .txpack idx => fitsField idx
  | .cvtt => true
  | .cvtrh => true
  | .rhice => true
  | .dewpt => true
  | .xfer _ txlen rxlen => fitsField txlen && fitsField rxlen

end Sys2Proof
end

