-- ==== Sys2Proof/Decode.lean ====
section
/-!
DEFINITION. Decoding a command word, total on every word and refusing by name, and after it the encoder (spec/30_encoding.md R62, R63, R66, R67).
-/
namespace Sys2Proof

/-- The field OP, bits 7:0 (R62). -/
def fieldOP (v : Word) : Byte := v.extractLsb' 0 8

/-- The field F, bits 15:8 (R62). -/
def fieldF (v : Word) : Byte := v.extractLsb' 8 8

/-- The field A, bits 23:16 (R62). -/
def fieldA (v : Word) : Byte := v.extractLsb' 16 8

/-- The field B, bits 31:24 (R62). -/
def fieldB (v : Word) : Byte := v.extractLsb' 24 8

/-- Why a word is illegal (R66); each is reported as BADCMD. -/
inductive Illegal where
  /-- The OP value is none of the ten listed. -/
  | unlistedOp
  /-- A listed OP with a nonzero bit in a field that its row requires to be 0. -/
  | nonzeroField
  deriving DecidableEq, Repr

/-- `i` if the fields its row requires to be 0 are, else the name of what is wrong (R66). -/
def requireZero (ok : Bool) (i : Instr) : Except Illegal Instr := if ok then .ok i else .error .nonzeroField

/-- The command a word stands for, by the rows of R63 in their order. -/
def decode (v : Word) : Except Illegal Instr :=
  let f := fieldF v
  let a := fieldA v
  let b := fieldB v
  let flag := f.getLsbD 0
  let highFlags := f.extractLsb' 1 7
  if fieldOP v = 0x10 then requireZero (f == 0 && a == 0 && b == 0) .crcw
  else if fieldOP v = 0x11 then requireZero (f == 0 && a == 0 && b == 0) .crcv
  else if fieldOP v = 0x12 then requireZero (highFlags == 0) (.crcb (if flag then .rx else .tx) a.toNat b.toNat)
  else if fieldOP v = 0x13 then requireZero (f == 0 && a == 0) (.crcval b.toNat)
  else if fieldOP v = 0x14 then requireZero (f == 0 && b == 0) (.txpack a.toNat)
  else if fieldOP v = 0x20 then requireZero (f == 0 && a == 0 && b == 0) .cvtt
  else if fieldOP v = 0x21 then requireZero (f == 0 && a == 0 && b == 0) .cvtrh
  else if fieldOP v = 0x22 then requireZero (f == 0 && a == 0 && b == 0) .rhice
  else if fieldOP v = 0x23 then requireZero (f == 0 && a == 0 && b == 0) .dewpt
  else if fieldOP v = 0x30 then requireZero (highFlags == 0) (.xfer (if flag then .two else .one) a.toNat b.toNat)
  else .error .unlistedOp

/-- The decoder's reading of a table row's bits (one 32-bit word; the bits above `nbits` are 0). -/
def decodeTableWord (nbits w : Nat) : Option Instr :=
  match decode (BitVec.ofNat 32 (w % 2 ^ nbits)) with
  | .ok i => some i
  | .error _ => none

/-- The word with the given fields (R62). -/
def packFields (op f a b : Byte) : Word := b ++ a ++ f ++ op

/-- F[0] of CRCB (R64). -/
def Buf.bit : Buf → Byte
  | .tx => 0
  | .rx => 1

/-- F[0] of XFER (R64). -/
def OpLen.bit : OpLen → Byte
  | .one => 0
  | .two => 1

/-- The word of a command (R63, R67). An operand that does not fit its field (not well-formed) is cut to the field's eight bits
(log entry 25). -/
def encode : Instr → Word
  | .crcw => packFields 0x10 0 0 0
  | .crcv => packFields 0x11 0 0 0
  | .crcb buf start count => packFields 0x12 buf.bit (BitVec.ofNat 8 start) (BitVec.ofNat 8 count)
  | .crcval len => packFields 0x13 0 0 (BitVec.ofNat 8 len)
  | .txpack idx => packFields 0x14 0 (BitVec.ofNat 8 idx) 0
  | .cvtt => packFields 0x20 0 0 0
  | .cvtrh => packFields 0x21 0 0 0
  | .rhice => packFields 0x22 0 0 0
  | .dewpt => packFields 0x23 0 0 0
  | .xfer opl txlen rxlen => packFields 0x30 opl.bit (BitVec.ofNat 8 txlen) (BitVec.ofNat 8 rxlen)

/-- The assembler (R67): the word of a command, or an assembly error where an operand lies outside 0..255. -/
def assemble (i : Instr) : Option Word := if i.wellFormed then some (encode i) else none

/-- The opcode map as (match, mask) pairs, in the order of R63. -/
def opcodeRows : List (Word × Word) :=
  [(0x00000010, 0xFFFFFFFF), (0x00000011, 0xFFFFFFFF), (0x00000012, 0x0000FEFF), (0x00000013, 0x00FFFFFF), (0x00000014, 0xFF00FFFF),
   (0x00000020, 0xFFFFFFFF), (0x00000021, 0xFFFFFFFF), (0x00000022, 0xFFFFFFFF), (0x00000023, 0xFFFFFFFF), (0x00000030, 0x0000FEFF)]

/-- `v` selects the row `(match, mask)` (R63). -/
def selects (v : Word) (row : Word × Word) : Bool := v &&& row.2 == row.1

end Sys2Proof
end

