-- ==== Sys2Proof/Config.lean ====
section
/-!
DEFINITION. What an implementation of SENSIF fixes: the sizes of spec/00_scope.md R6 at the values that rule gives (log entry 9),
and the two choices the spec leaves open (R7, R14), each an opaque constant about which nothing can be proved (log entries 10 and 11).
-/
namespace Sys2Proof.Config

/-- `TXBUF_SIZE`, in bytes (R6). -/
def txBufSize : Nat := 32

/-- `RXBUF_SIZE`, in bytes (R6). -/
def rxBufSize : Nat := 48

/-- `NWORDS`, the three-byte words RX holds (R6). -/
def nWords : Nat := rxBufSize / 3

/-- `IDENT_VALUE` (R6, R17). -/
def identValue : Word := 0x53454E01

/-- `DRAW_RHICE(t, rh, BETA_W, LAMBDA_W, BETA_I, LAMBDA_I)` (R7, R14, 93_implementation_defined.md I1): which of the two faithful
neighbours of the reference value RHICE returns, the ceiling where true, the floor where false. A FREE VALUE: the same inputs
always give the same choice, and nothing else is known of it. -/
opaque drawRhice (t rh : Word) (betaW lambdaW betaI lambdaI : Half) : Bool

/-- `DRAW_DEWPT(t, rh, b, l)` (R7, R14, 93_implementation_defined.md I2): which of the two faithful neighbours of the reference value
DEWPT returns, the ceiling where true, the floor where false. A FREE VALUE, as `drawRhice`. -/
opaque drawDewpt (t rh : Word) (b l : Half) : Bool

end Sys2Proof.Config
end

