-- ==== Sys2Proof/Machine/State.lean ====
section
/-!
DEFINITION. The state of SENSIF (spec/10_state.md), the events its environment brings (spec/00_scope.md R5), the reasons a step stops, and
the state after reset (spec/70_reset_and_hazards.md R124). All of it is plain data.
-/
namespace Sys2Proof.Machine

/-- The transaction phase (R39). -/
inductive Phase where
  | idle
  | write
  | settle
  | read
  deriving DecidableEq, Repr

/-- The pending transport request (R40): none, a write or a read. -/
inductive Pending where
  | none
  | wr
  | rd
  deriving DecidableEq, Repr

/-- The error codes of STATUS.ERR that are ever produced (R104); codes 8 to 15 are reserved and have no constructor (log entry 20). -/
inductive ErrCode where
  | none
  | badcmd
  | badlen
  | noaddr
  | buswr
  | busrd
  | crc
  | domain
  deriving DecidableEq, Repr

/-- The opcode bytes of a transaction, in wire order (R91). -/
inductive OpBytes where
  | one (b : Byte)
  | two (first second : Byte)
  deriving DecidableEq, Repr

/-- The transaction snapshot XS (R38, R91). -/
structure Snapshot where
  addr : BitVec 7
  opbytes : OpBytes
  payload : List Byte
  settle : Half
  rdreg : Byte
  rxlen : Byte
  chk : Bool
  fatal : Bool
  deriving DecidableEq, Repr

/-- A request from CMDUNIT to TRANSPORT (R88). -/
inductive Request where
  /-- `Bus.WriteByte(a, b)`. -/
  | writeByte (a : BitVec 7) (b : Byte)
  /-- `Bus.WriteBlock(a, r, d)`. -/
  | writeBlock (a : BitVec 7) (r : Byte) (d : List Byte)
  /-- `Bus.ReadBlock(a, r, n)`. -/
  | readBlock (a : BitVec 7) (r : Byte) (n : Nat)
  deriving DecidableEq, Repr

/-- The width of a host access (R46, R47); only 32 bits is legal. -/
inductive Width where
  | w8
  | w16
  | w32
  deriving DecidableEq, Repr

/-- One step of one agent (R5). The step function serves the oldest event of `State.inputs` (log entry 1). -/
inductive Event where
  /-- HOST reads the window at a byte offset (R46). -/
  | hostRead (width : Width) (off : BitVec 12)
  /-- HOST writes the window at a byte offset (R46). -/
  | hostWrite (width : Width) (off : BitVec 12) (v : Word)
  /-- TIMEBASE delivers a TICK (R94). -/
  | tick
  /-- TRANSPORT answers a write request OK (R89). -/
  | writeOk
  /-- TRANSPORT answers a write request ERR (R89). -/
  | writeErr
  /-- TRANSPORT answers a read request OK with these bytes (R89). -/
  | readOk (bytes : List Byte)
  /-- TRANSPORT answers a read request ERR (R89). -/
  | readErr
  /-- The platform applies reset (R124). -/
  | reset
  /-- A second bus master accesses the block (R121). -/
  | secondMaster
  /-- Another SENSIF instance starts a transaction on the same two-wire bus (R121). -/
  | peerStarts
  /-- That instance's transaction ends (R121). -/
  | peerEnds
  deriving DecidableEq, Repr

/-- A byte buffer: (index, byte) cells in one canonical form, indices strictly rising, no cell equal to what an unlisted index reads as
(log entry 15). -/
abbrev Memory := List Host.Cell

/-- What an index that no cell lists reads as: 0, the reset value of every TX[k] and RX[k] (R36, R37). -/
def Memory.unlisted : Byte := 0

/-- The canonical form. -/
abbrev Memory.wf (m : Memory) : Prop := m.Pairwise (fun c d => c.1 < d.1) ∧ ∀ c ∈ m, c.2 ≠ Memory.unlisted

/-- Why a run faults. -/
inductive Fault where
  /-- An illegal host access, of width 8 or 16 or at an offset that is not a multiple of 4 (R47, R116). Raised by the window access of
  `serve`; SENSIF's own state does not change. Safe: the spec says that a model faults the run. -/
  | hostError
  /-- The snapshot XS is read where none is held (I15). Raised by the later steps of a transaction, in states that no run reaches.
  Safe: the spec says that a model must fault. -/
  | snapshotAbsent
  deriving DecidableEq, Repr

/-- Why a run is refused. -/
inductive Refusal where
  /-- An instruction without a meaning yet. Raised by no arm of `exec` in this model. Safe. -/
  | notModelled (mnemonic : String)
  /-- A second bus master accesses the block (R121, I19). Raised by `serve`. Safe: the spec says that its accesses are refused. -/
  | secondMaster
  /-- Two SENSIF instances have transactions in flight on one bus (R121, I18). Raised by `serve`. Safe: the spec says that a model
  refuses such a run. -/
  | twoTransactionsOnBus
  /-- A read answer OK without exactly the requested number of bytes, which R89 says TRANSPORT never gives. Raised by `serve`. Safe: no
  run of the spec is lost (log entry 7). -/
  | readAnswerLength
  deriving DecidableEq, Repr

/-- The state of the machine. Fields up to `scnt` are the spec's; the last four are the model's own (log entries 1, 4, 5, 17). -/
structure State where
  /-- CTRL.CHKCRC (R18). -/
  chkcrc : Bool
  /-- CTRL.CRCFATAL (R18). -/
  crcfatal : Bool
  /-- CTRL.IE (R18). -/
  ie : Bool
  /-- STATUS.DONE (R20). -/
  done : Bool
  /-- STATUS.ERR (R20, R104). -/
  err : ErrCode
  /-- STATUS.CRCWARN (R20). -/
  crcwarn : Bool
  /-- STATUS.OVR (R20). -/
  ovr : Bool
  /-- STATUS.CFGERR (R20). -/
  cfgerr : Bool
  /-- STATUS.FAILCNT (R20). -/
  failcnt : BitVec 5
  /-- DEVADDR.ADDR (R24). -/
  addr : BitVec 7
  /-- DEVADDR.LOCK (R24). -/
  lock : Bool
  /-- OPCODE (R26). -/
  opcode : Half
  /-- SETTLE (R27). -/
  settle : Half
  /-- RDREG (R28). -/
  rdreg : Byte
  /-- ARG0 (R29). -/
  arg0 : Word
  /-- ARG1 (R29). -/
  arg1 : Word
  /-- RESULT (R30). -/
  result : Word
  /-- WFAIL (R31). -/
  wfail : Word
  /-- T_MIN, s16 (R33). -/
  tMin : Half
  /-- T_SPAN, s16 (R33). -/
  tSpan : Half
  /-- RH_MIN, s16 (R33). -/
  rhMin : Half
  /-- RH_SPAN, s16 (R33). -/
  rhSpan : Half
  /-- RH_FLOOR, u16 (R33, R35). -/
  rhFloor : Half
  /-- BETA_W, u16 (R33). -/
  betaW : Half
  /-- LAMBDA_W, u16 (R33). -/
  lambdaW : Half
  /-- BETA_I, u16 (R33). -/
  betaI : Half
  /-- LAMBDA_I, u16 (R33). -/
  lambdaI : Half
  /-- TX, by index (R36). -/
  tx : Memory
  /-- RX, by index (R37). -/
  rx : Memory
  /-- XS, where one is held (R38, log entry 8). -/
  xs : Option Snapshot
  /-- phase (R39); STATUS.BUSY and STATUS.PHASE are views of it. -/
  phase : Phase
  /-- pend (R40). -/
  pend : Pending
  /-- scnt, visible as SCNT (R32, R41). -/
  scnt : BitVec 17
  /-- The model's own: the events still to come, oldest first (log entry 1). -/
  inputs : List Event
  /-- The model's own: the transport requests issued, oldest first (R138, log entry 5). -/
  requests : List Request
  /-- The model's own: what the host port gave the last legal read (log entry 4). -/
  hostData : Option Word
  /-- The model's own: another instance has a transaction in flight on the bus (R121, log entry 17). -/
  peerBusy : Bool
  deriving DecidableEq, Repr

/-- The state right after reset (R124). The last four fields and XS are the model's choice (log entries 1, 4, 5, 8, 17). -/
def State.reset : State where
  chkcrc := true
  crcfatal := false
  ie := false
  done := false
  err := .none
  crcwarn := false
  ovr := false
  cfgerr := false
  failcnt := 0
  addr := 0
  lock := false
  opcode := 0
  settle := 0
  rdreg := 0
  arg0 := 0
  arg1 := 0
  result := 0
  wfail := 0
  tMin := BitVec.ofInt 16 (-4500)
  tSpan := 17500
  rhMin := 0
  rhSpan := 10000
  rhFloor := 1
  betaW := 1762
  lambdaW := 24312
  betaI := 2246
  lambdaI := 27262
  tx := []
  rx := []
  xs := none
  phase := .idle
  pend := .none
  scnt := 0
  inputs := []
  requests := []
  hostData := none
  peerBusy := false

end Sys2Proof.Machine
end

