-- ==== Sys2Proof/Machine/Ops.lean ====
section
/-!
DEFINITION. The named operations over the state: the buffers (spec/10_state.md R36, R37), ending a command (spec/60_exceptions.md R109; SENSIF
has no trap entry and no trap return, R112, R113, so `finish` is its one shared ending and the acknowledge of R113 stands beside it), accepting
and dropping a command (R108, R111), and reset (spec/70_reset_and_hazards.md R124, R125).
-/
namespace Sys2Proof.Machine

/-- What a step of this machine answers. -/
abbrev Result := Host.Outcome State Fault Refusal

/-! ### Byte buffers -/

/-- Byte `k` of a buffer. -/
def Memory.read (m : Memory) (k : Nat) : Byte :=
  match m with
  | [] => Memory.unlisted
  | (j, b) :: rest => if j = k then b else Memory.read rest k

/-- A buffer without its cells of index `k`. -/
def Memory.erase (m : Memory) (k : Nat) : Memory := m.filter (fun c => decide (c.1 ≠ k))

/-- A cell at its place among the rising indices. -/
def Memory.insert (m : Memory) (k : Nat) (b : Byte) : Memory :=
  match m with
  | [] => [(k, b)]
  | (j, c) :: rest => if k < j then (k, b) :: (j, c) :: rest else (j, c) :: Memory.insert rest k b

/-- Byte `k` of a buffer becomes `b`; the canonical form is kept: writing what an unlisted index reads as removes the cell. -/
def Memory.write (m : Memory) (k : Nat) (b : Byte) : Memory :=
  if b = Memory.unlisted then m.erase k else (m.erase k).insert k b

/-- The bytes `start, ..., start + count − 1` of a buffer, in order. -/
def Memory.bytes (m : Memory) (start : Nat) : Nat → List Byte
  | 0 => []
  | count + 1 => m.read start :: Memory.bytes m (start + 1) count

/-- The bytes `bs` into a buffer, from index `start`. -/
def Memory.writeBytes (m : Memory) (start : Nat) : List Byte → Memory
  | [] => m
  | b :: bs => Memory.writeBytes (m.write start b) (start + 1) bs

/-- The buffer CRCB names (R64). -/
def bufferOf (s : State) : Buf → Memory
  | .tx => s.tx
  | .rx => s.rx

/-- The size of that buffer (R74). -/
def bufferSize : Buf → Nat
  | .tx => Config.txBufSize
  | .rx => Config.rxBufSize

/-! ### Ending, accepting and dropping a command -/

/-- STATUS.BUSY (R20): a transaction runs. -/
def State.busy (s : State) : Bool := decide (s.phase ≠ .idle)

/-- `finish(E)` (R109). -/
def finish (e : ErrCode) (s : State) : State :=
  { s with err := e, done := true, phase := .idle, pend := .none, scnt := 0 }

/-- `raise E` (R10): end the command with code E, and nothing after it in its rule. -/
def raise (e : ErrCode) (s : State) : Result := .next (finish e s)

/-- `finish(NONE)` as the end of a rule. -/
def complete (s : State) : Result := .next (finish .none s)

/-- `reg[RESULT] <- v` and `finish(NONE)`. -/
def completeWith (v : Word) (s : State) : Result := complete { s with result := v }

/-- The host's acknowledge and the clearing of the sticky bits: a write of `v` to STATUS (R22, R113). -/
def writeStatus (v : Word) (s : State) : State :=
  { s with
    done := if v.getLsbD 1 then false else s.done
    ovr := if v.getLsbD 9 then false else s.ovr
    cfgerr := if v.getLsbD 10 then false else s.cfgerr }

/-- A CMD write is accepted (R65, R108): DONE is cleared, before decode. -/
def accept (s : State) : State := { s with done := false }

/-- A CMD write while BUSY is dropped (R111). -/
def dropCommand (s : State) : State := { s with ovr := true }

/-! ### Reset -/

/-- The platform's reset (R124, R125): every piece of the block's state at its reset value. The environment's fields stay
(log entry 21). -/
def applyReset (s : State) : State :=
  { State.reset with inputs := s.inputs, requests := s.requests, hostData := s.hostData, peerBusy := s.peerBusy }

end Sys2Proof.Machine
end

