-- ==== Sys2Proof/Machine/Crc.lean ====
section
/-!
DEFINITION. The checksum engine and the word validator (spec/40_crc.md R69, R70, R71), shared by the checksum commands and by XFER.
-/
namespace Sys2Proof.Machine

/-- One of the eight shifts of R69: left by one, and XOR 0x31 if the bit shifted out was set. -/
def crcShift (r : Byte) : Byte := if r.msb then (r <<< 1) ^^^ 0x31 else r <<< 1

/-- `n` shifts. -/
def crcShifts : Nat → Byte → Byte
  | 0, r => r
  | n + 1, r => crcShifts n (crcShift r)

/-- One byte into the CRC register. -/
def crcByte (r b : Byte) : Byte := crcShifts 8 (r ^^^ b)

/-- `crc8(s)` (R69): from 0xFF, every byte first to last, no final XOR. -/
def crc8 (bs : List Byte) : Byte := bs.foldl crcByte 0xFF

/-- `verify(b0, b1, c)` (R70). -/
def verify (b0 b1 c : Byte) : Bool := crc8 [b0, b1] == c

/-- Word `i` of RX fails its checksum (R71). -/
def wordFails (rx : Memory) (i : Nat) : Bool := !verify (rx.read (3 * i)) (rx.read (3 * i + 1)) (rx.read (3 * i + 2))

/-- The mask of the failed ones among the first `n` words (R71). -/
def failMask (rx : Memory) : Nat → Word
  | 0 => 0
  | n + 1 => if wordFails rx n then failMask rx n ||| BitVec.twoPow 32 n else failMask rx n

/-- How many of the first `n` words fail (R71). -/
def failCount (rx : Memory) : Nat → Nat
  | 0 => 0
  | n + 1 => if wordFails rx n then failCount rx n + 1 else failCount rx n

/-- `validate(n)` (R71), for `n` bytes: WFAIL, FAILCNT and CRCWARN. The count it returns is `failCount s.rx (n / 3)`. -/
def validate (n : Nat) (s : State) : State :=
  { s with
    wfail := failMask s.rx (n / 3)
    failcnt := BitVec.ofNat 5 (failCount s.rx (n / 3))
    crcwarn := decide (failCount s.rx (n / 3) ≠ 0) }

/-- Validate `n` bytes of RX and end the command: with CRC where a word failed under the fatal policy, else with NONE (R75, R98). -/
def validateAndFinish (n : Nat) (fatal : Bool) (s : State) : Result :=
  if failCount s.rx (n / 3) ≠ 0 ∧ fatal = true then raise .crc (validate n s) else complete (validate n s)

end Sys2Proof.Machine
end

