-- ==== Sys2Proof/Machine/Operands.lean ====
section
/-!
DEFINITION. How the commands assemble their operands from ARG0 and ARG1 (spec/30_encoding.md R64; spec/20_memory.md R50), the wire order of an
opcode (R49, R91), and the numbers the conversion commands read (spec/41_conversion.md R81, R83, R84).
-/
namespace Sys2Proof.Machine

/-- Bits 7:0 of a register. -/
def byte0 (v : Word) : Byte := v.extractLsb' 0 8

/-- Bits 15:8 of a register. -/
def byte1 (v : Word) : Byte := v.extractLsb' 8 8

/-- Bits 23:16 of a register. -/
def byte2 (v : Word) : Byte := v.extractLsb' 16 8

/-- The two data bytes of CRCW and TXPACK, first on the wire first (R64, R50). -/
def dataBytes (s : State) : List Byte := [byte1 s.arg0, byte0 s.arg0]

/-- The raw code of CVTT and CVTRH: ARG0[15:0] (R64). -/
def rawCode (s : State) : Half := s.arg0.extractLsb' 0 16

/-- `t` of RHICE and DEWPT: ARG0 as s32 (R64). -/
def operandT (s : State) : Int := s.arg0.toInt

/-- `rh` of RHICE and DEWPT: ARG1 as s32 (R64). -/
def operandRh (s : State) : Int := s.arg1.toInt

/-- RH_FLOOR as an integer (R84, R85). -/
def floorValue (s : State) : Int := (s.rhFloor.toNat : Int)

/-- The Magnus coefficients `(b, l)` for the temperature in ARG0 (R81): water for `t ≥ 0`, ice for `t < 0`. -/
def magnusSel (s : State) : Half × Half :=
  if 0 ≤ operandT s then (s.betaW, s.lambdaW) else (s.betaI, s.lambdaI)

/-- The opcode bytes an XFER sends (R91, R26): OPCODE[7:0], or OPCODE[15:8] then OPCODE[7:0]. -/
def opcodeBytes (opl : OpLen) (opcode : Half) : OpBytes :=
  match opl with
  | .one => .one (opcode.extractLsb' 0 8)
  | .two => .two (opcode.extractLsb' 8 8) (opcode.extractLsb' 0 8)

end Sys2Proof.Machine
end

