-- ==== Sys2Proof/Machine/Checksum.lean ====
section
/-!
DEFINITION. The checksum family: CRCW, CRCV, CRCB, CRCVAL, TXPACK (spec/40_crc.md R72 to R76).
-/
namespace Sys2Proof.Machine

/-- CRCW (R72): RESULT is the checksum of ARG0[15:8], ARG0[7:0]. -/
def execCrcw (s : State) : Result := completeWith ((crc8 (dataBytes s)).zeroExtend 32) s

/-- CRCV (R73): RESULT is 1 where ARG0[7:0] is the checksum of ARG0[23:16], ARG0[15:8], else 0. -/
def execCrcv (s : State) : Result :=
  completeWith ((BitVec.ofBool (verify (byte2 s.arg0) (byte1 s.arg0) (byte0 s.arg0))).zeroExtend 32) s

/-- CRCB (R74): RESULT is the checksum of COUNT bytes of the buffer from START; BADLEN where they leave it. -/
def execCrcb (buf : Buf) (start count : Nat) (s : State) : Result :=
  if bufferSize buf < start + count then raise .badlen s
  else completeWith ((crc8 ((bufferOf s buf).bytes start count)).zeroExtend 32) s

/-- CRCVAL (R75): validate RX[0..LEN−1]; the live CTRL.CRCFATAL decides whether a failed word is an error. -/
def execCrcval (len : Nat) (s : State) : Result :=
  if Config.rxBufSize < len ∨ len % 3 ≠ 0 then raise .badlen s else validateAndFinish len s.crcfatal s

/-- TXPACK (R76): two bytes of ARG0 and their checksum into TX[IDX..IDX+2]; BADLEN where they do not fit. -/
def execTxpack (idx : Nat) (s : State) : Result :=
  if Config.txBufSize < idx + 3 then raise .badlen s
  else complete { s with tx := s.tx.writeBytes idx (dataBytes s ++ [crc8 (dataBytes s)]) }

end Sys2Proof.Machine
end

