-- ==== Sys2Proof/Laws/ExpIrrational.lean ====
section
/-!
SUPPORT. The exponential of a nonzero rational is irrational, and so is the logarithm of a positive rational other than 1.
Pure mathematics, from Mathlib's analytical part of Lindemann's theorem. It is what makes the search for the two faithful
neighbours of a reference value end (spec/41_conversion.md R86 uses the same fact: for rh ≠ 10000, c2 is irrational).
-/
namespace Sys2Proof.Laws

open Polynomial in
/-- An integer polynomial of degree below `p`, at `a / b`, times `b ^ (p - 1)`, is an integer. -/
theorem scaled_aeval_is_integer (g : ℤ[X]) (p : ℕ) (hp : 0 < p) (hg : g.natDegree ≤ p - 1) (a b : ℤ) (hb : b ≠ 0) :
    ∃ k : ℤ, (b : ℂ) ^ (p - 1) * aeval ((a : ℂ) / b) g = k := by
  have hb' : (b : ℂ) ≠ 0 := by exact_mod_cast hb
  refine ⟨∑ i ∈ Finset.range p, g.coeff i * a ^ i * b ^ (p - 1 - i), ?_⟩
  rw [Polynomial.aeval_eq_sum_range' (show g.natDegree < p by omega), Finset.mul_sum]
  push_cast
  refine Finset.sum_congr rfl fun i hi => ?_
  have hi' : i ≤ p - 1 := by have := Finset.mem_range.mp hi; omega
  have hsplit : (b : ℂ) ^ (p - 1) = b ^ (p - 1 - i) * b ^ i := by rw [← pow_add]; congr 1; omega
  rw [hsplit, zsmul_eq_mul, div_pow]
  field_simp

open Polynomial in
/-- No nonzero rational has a rational exponential. -/
theorem exp_ratio_ne_ratio (a b u v : ℤ) (ha : a ≠ 0) (hb : b ≠ 0) (hv : v ≠ 0) :
    Real.exp ((a : ℝ) / b) ≠ (u : ℝ) / v := by
  intro hE
  have hu : u ≠ 0 := by
    rintro rfl
    simp at hE
  obtain ⟨c, hc⟩ := LindemannWeierstrass.exp_polynomial_approx (C b * X - C a) (by simpa using ha)
  have hdeg : (C b * X - C a : ℤ[X]).natDegree = 1 := by
    rw [sub_eq_add_neg, ← C_neg]; exact natDegree_linear hb
  have hb' : (b : ℂ) ≠ 0 := by exact_mod_cast hb
  have hv' : (v : ℂ) ≠ 0 := by exact_mod_cast hv
  have hroot : ((a : ℂ) / b) ∈ (C b * X - C a : ℤ[X]).aroots ℂ := by
    rw [mem_aroots]
    refine ⟨fun h => by rw [h] at hdeg; simp at hdeg, ?_⟩
    simp; field_simp; simp
  have hEc : Complex.exp ((a : ℂ) / b) = (u : ℂ) / v := by
    have := congrArg (fun x : ℝ => (x : ℂ)) hE
    simpa using this
  -- The right side of the approximation, with the denominators cleared, tends to 0.
  have hlim : Filter.Tendsto (fun p : ℕ => |(v : ℝ)| * |c| * ((|(b : ℝ)| * |c|) ^ p / (p.factorial : ℝ))) Filter.atTop (nhds 0) := by
    have := (FloorSemiring.tendsto_pow_div_factorial_atTop (|(b : ℝ)| * |c|)).const_mul (|(v : ℝ)| * |c|)
    simpa using this
  obtain ⟨m, hm⟩ := Filter.eventually_atTop.mp (hlim.eventually (gt_mem_nhds one_pos))
  obtain ⟨p, hpge, hpp⟩ := Nat.exists_infinite_primes (m + u.natAbs + b.natAbs + a.natAbs + 2)
  have hsmall := hm (p - 1) (by omega)
  obtain ⟨n, hpn, g, hg, happrox⟩ := hc p (by simp; omega) hpp
  rw [hdeg, mul_one] at hg
  obtain ⟨k, hk⟩ := scaled_aeval_is_integer g p hpp.pos hg a b hb
  have hbound := happrox hroot
  rw [hEc] at hbound
  -- The integer on the left is not divisible by p, so it is not 0.
  have hK0 : n * u * b ^ (p - 1) - p * (v * k) ≠ 0 := by
    intro h0
    have hpZ : Prime (p : ℤ) := Nat.prime_iff_prime_int.mp hpp
    have hdvd : (p : ℤ) ∣ n * u * b ^ (p - 1) := ⟨v * k, by linarith⟩
    have hlt : ∀ z : ℤ, z ≠ 0 → z.natAbs < p → ¬ (p : ℤ) ∣ z := fun z hz hzp hd =>
      absurd (Nat.le_of_dvd (Int.natAbs_pos.mpr hz) (Int.natCast_dvd.mp hd)) (by omega)
    rcases hpZ.dvd_or_dvd hdvd with h | h
    · rcases hpZ.dvd_or_dvd h with h | h
      · exact hpn h
      · exact hlt u hu (by omega) h
    · exact hlt b hb (by omega) (hpZ.dvd_of_dvd_pow h)
  have hK1 : (1 : ℝ) ≤ |((n * u * b ^ (p - 1) - p * (v * k) : ℤ) : ℝ)| := by
    exact_mod_cast Int.one_le_abs hK0
  have hclear : ((n * u * b ^ (p - 1) - p * (v * k) : ℤ) : ℂ)
      = v * (b : ℂ) ^ (p - 1) * (n • ((u : ℂ) / v) - p • aeval ((a : ℂ) / b) g) := by
    rw [zsmul_eq_mul, nsmul_eq_mul]
    push_cast
    rw [← hk]
    field_simp
  have hnorm : |((n * u * b ^ (p - 1) - p * (v * k) : ℤ) : ℝ)| ≤ |(v : ℝ)| * |(b : ℝ)| ^ (p - 1) * (c ^ p / ((p - 1).factorial : ℝ)) := by
    have h1 : ‖((n * u * b ^ (p - 1) - p * (v * k) : ℤ) : ℂ)‖ = |((n * u * b ^ (p - 1) - p * (v * k) : ℤ) : ℝ)| := by
      rw [← Complex.ofReal_intCast, Complex.norm_real, Real.norm_eq_abs]
    rw [← h1, hclear, norm_mul, norm_mul, norm_pow]
    have hv1 : ‖(v : ℂ)‖ = |(v : ℝ)| := by rw [← Complex.ofReal_intCast, Complex.norm_real, Real.norm_eq_abs]
    have hb1 : ‖(b : ℂ)‖ = |(b : ℝ)| := by rw [← Complex.ofReal_intCast, Complex.norm_real, Real.norm_eq_abs]
    rw [hv1, hb1]
    gcongr
  have hle : |(v : ℝ)| * |(b : ℝ)| ^ (p - 1) * (c ^ p / ((p - 1).factorial : ℝ))
      ≤ |(v : ℝ)| * |c| * ((|(b : ℝ)| * |c|) ^ (p - 1) / ((p - 1).factorial : ℝ)) := by
    have hcp : c ^ p ≤ |c| * |c| ^ (p - 1) := by
      rw [← pow_succ', Nat.sub_add_cancel hpp.pos, ← abs_pow]; exact le_abs_self _
    calc |(v : ℝ)| * |(b : ℝ)| ^ (p - 1) * (c ^ p / ((p - 1).factorial : ℝ))
        ≤ |(v : ℝ)| * |(b : ℝ)| ^ (p - 1) * (|c| * |c| ^ (p - 1) / ((p - 1).factorial : ℝ)) := by gcongr
      _ = _ := by rw [mul_pow]; ring
  linarith

/-- `exp` of a nonzero rational is irrational. -/
theorem irrational_exp_of_rat (q : ℚ) (hq : q ≠ 0) : Irrational (Real.exp (q : ℝ)) := by
  rintro ⟨r, hr⟩
  refine exp_ratio_ne_ratio q.num q.den r.num r.den (by simpa using hq) (by exact_mod_cast q.den_nz) (by exact_mod_cast r.den_nz) ?_
  have h1 : (q.num : ℝ) / ((q.den : ℤ) : ℝ) = (q : ℝ) := by exact_mod_cast Rat.num_div_den q
  have h2 : (r.num : ℝ) / ((r.den : ℤ) : ℝ) = (r : ℝ) := by exact_mod_cast Rat.num_div_den r
  rw [h1, h2, hr]

/-- `log` of a positive rational other than 1 is irrational. -/
theorem irrational_log_of_rat (x : ℚ) (hx : 0 < x) (hx1 : x ≠ 1) : Irrational (Real.log (x : ℝ)) := by
  rintro ⟨r, hr⟩
  have hxr : (0 : ℝ) < x := by exact_mod_cast hx
  have hr0 : r ≠ 0 := by
    rintro rfl
    rcases Real.log_eq_zero.mp (show Real.log (x : ℝ) = 0 by rw [← hr]; simp) with h | h | h
    · exact hxr.ne' h
    · exact hx1 (by exact_mod_cast h)
    · linarith
  exact irrational_exp_of_rat r hr0 ⟨x, by rw [hr, Real.exp_log hxr]⟩

end Sys2Proof.Laws
end

