-- ==== Sys2Proof/Machine/Reference.lean ====
section
/-!
DEFINITION. The real reference values of the two transcendental commands (spec/41_conversion.md R85, R86; spec/00_scope.md R13), what it
means for one to fit s32 (R80), and which pair of integers is its faithful set (R14). They stand in TYPES and statements only: the
machine computes the pair with exact rational arithmetic (Machine/Enclosure.lean, Machine/Neighbours.lean; log entry 12).
-/
namespace Sys2Proof.Machine

/-- The reference value of RHICE (R85): `V = rh · exp(xw) / exp(xi)` with `xw = β_w·t / (100·λ_w)` and `xi = β_i·t / (100·λ_i)`. -/
noncomputable def rhiceV (t rh : Word) (betaW lambdaW betaI lambdaI : Half) : ℝ :=
  (rh.toInt : ℝ) * Real.exp ((betaW.toNat : ℝ) * (t.toInt : ℝ) / (100 * (lambdaW.toNat : ℝ)))
    / Real.exp ((betaI.toNat : ℝ) * (t.toInt : ℝ) / (100 * (lambdaI.toNat : ℝ)))

/-- `c1` of DEWPT (R86): `b·t / (100·(l + t))`. -/
noncomputable def dewptC1 (t : Word) (b l : Half) : ℝ :=
  (b.toNat : ℝ) * (t.toInt : ℝ) / (100 * ((l.toNat : ℝ) + (t.toInt : ℝ)))

/-- `c2` of DEWPT (R86): `ln(rh / 10000)`. -/
noncomputable def dewptC2 (rh : Word) : ℝ := Real.log ((rh.toInt : ℝ) / 10000)

/-- `den` of DEWPT (R86): `b / 100 − c2 − c1`. -/
noncomputable def dewptDen (t rh : Word) (b l : Half) : ℝ :=
  (b.toNat : ℝ) / 100 - dewptC2 rh - dewptC1 t b l

/-- The reference value of DEWPT (R86): `V = l·(c2 + c1) / den`. -/
noncomputable def dewptV (t rh : Word) (b l : Half) : ℝ :=
  (l.toNat : ℝ) * (dewptC2 rh + dewptC1 t b l) / dewptDen t rh b l

/-- `fits32(V)` (R80). -/
def Fits32 (V : ℝ) : Prop := -2 ^ 31 ≤ ⌊V⌋ ∧ ⌈V⌉ ≤ 2 ^ 31 - 1

/-- What a command with reference value `V` may return (R14, R80): `none` where `V` does not fit s32, else the two members
floor and ceiling of `faithful(V)`. -/
def FaithfulPair (V : ℝ) : Option (Int × Int) → Prop
  | none => ¬ Fits32 V
  | some (lo, hi) => Fits32 V ∧ lo = ⌊V⌋ ∧ hi = ⌈V⌉

end Sys2Proof.Machine
end

