-- ==== Sys2Proof/Machine/Enclosure.lean ====
section
/-!
DEFINITION. Exact rational arithmetic around the reference values of RHICE and DEWPT: for every precision `n` an enclosure of the
reference value, and the pair of faithful neighbours where the enclosure settles it. Laws/Enclosure.lean proves that each enclosure
holds and that some precision settles every input, so nothing here chooses a value (log entry 12).
-/
namespace Sys2Proof.Machine

/-- What is known of a real number `V`. -/
inductive Enclosure where
  /-- `V = q`. -/
  | exact (q : ℚ)
  /-- `a < V < b`. -/
  | between (a b : ℚ)
  /-- `V` lies outside s32. -/
  | outside
  /-- Nothing. -/
  | unknown

/-- What an enclosure says of `V`. -/
def Enclosure.Holds (V : ℝ) : Enclosure → Prop
  | .exact q => V = q
  | .between a b => (a : ℝ) < V ∧ V < b
  | .outside => V < -2 ^ 31 ∨ 2 ^ 31 - 1 < V
  | .unknown => True

/-- The pair `(lo, hi)` where it fits s32 (R80). -/
def pairIfFits (lo hi : Int) : Option (Int × Int) :=
  if -2 ^ 31 ≤ lo ∧ hi ≤ 2 ^ 31 - 1 then some (lo, hi) else none

/-- The faithful pair of `V` (R14) as far as the enclosure decides it; the outer `none` is 'not decided'. -/
def Enclosure.settled : Enclosure → Option (Option (Int × Int))
  | .exact q => some (pairIfFits ⌊q⌋ ⌈q⌉)
  | .between a b =>
    if b ≤ ((⌊a⌋ + 1 : ℤ) : ℚ) then some (pairIfFits ⌊a⌋ (⌊a⌋ + 1))
    else if 2 ^ 31 - 1 ≤ a ∨ b ≤ -2 ^ 31 then some none
    else none
  | .outside => some none
  | .unknown => none

/-- The first `n` terms of the series of `exp x`. -/
def expSum (x : ℚ) : Nat → ℚ
  | 0 => 0
  | n + 1 => expSum x n + x ^ n / (n.factorial : ℚ)

/-- The first `n` terms of the series of `−ln(1 − y)`. -/
def logSum (y : ℚ) : Nat → ℚ
  | 0 => 0
  | n + 1 => logSum y n + y ^ (n + 1) / ((n : ℚ) + 1)

/-- The enclosure of `r·z` for an integer `r ≠ 0`, where `a < z < b`. -/
def scaledBetween (r : Int) (a b : ℚ) : Enclosure :=
  if 0 < r then .between (r * a) (r * b) else .between (r * b) (r * a)

/-- `xw − xi` of RHICE, an exact rational (R85). -/
def rhiceExponent (t : Word) (betaW lambdaW betaI lambdaI : Half) : ℚ :=
  (betaW.toNat : ℚ) * (t.toInt : ℚ) / (100 * (lambdaW.toNat : ℚ))
    - (betaI.toNat : ℚ) * (t.toInt : ℚ) / (100 * (lambdaI.toNat : ℚ))

/-- The enclosure of RHICE's reference value at precision `n`. Beyond ±22 the exponential is above 3·10⁹ or below its inverse, so that
the series is needed only in between. -/
def rhiceEnclosure (t rh : Word) (betaW lambdaW betaI lambdaI : Half) (n : Nat) : Enclosure :=
  let d := rhiceExponent t betaW lambdaW betaI lambdaI
  let r := rh.toInt
  if r = 0 then .exact 0
  else if d = 0 then .exact r
  else if 22 ≤ d then .outside
  else if d ≤ -22 then scaledBetween r 0 (1 / 3000000000)
  else
    let terms := 128 + n
    let e := 3 * |d| ^ terms / (terms.factorial : ℚ)
    scaledBetween r (expSum d terms - e) (expSum d terms + e)

/-- The middle of the enclosure of `ln(rh / 10000)`, for `rh > 0`: with `j` the exponent of the leading bit of `rh` and
`m = (rh / 2^j)·(2^13 / 10000)`, it is `(j − 13)·ln 2 + ln m`, each logarithm by its series. -/
def logMiddle (rh : Nat) (terms : Nat) : ℚ :=
  let j := Nat.log2 rh
  ((j : ℚ) - 13) * logSum (1 / 2) terms - logSum (1 - (rh : ℚ) * 8192 / (10000 * 2 ^ j)) terms

/-- A radius within which `ln(rh / 10000)` lies of `logMiddle`. -/
def logRadius (rh : Nat) (terms : Nat) : ℚ :=
  (|((Nat.log2 rh : ℕ) : ℚ) - 13| + 1) / 2 ^ terms + 3 * (16 / 25) ^ terms

/-- `c1` of DEWPT as an exact rational (R86). -/
def dewptC1Q (t : Word) (b l : Half) : ℚ :=
  (b.toNat : ℚ) * (t.toInt : ℚ) / (100 * ((l.toNat : ℚ) + (t.toInt : ℚ)))

/-- Whether `den` of DEWPT is 0, for `rh > 0` (R86): only where `c2 = 0`, that is `rh = 10000`, since every other `c2` is irrational. -/
def dewptDenZero (t rh : Word) (b l : Half) : Bool :=
  rh.toInt = 10000 ∧ (b.toNat : ℚ) / 100 - dewptC1Q t b l = 0

/-- The enclosure of DEWPT's reference value at precision `n`, for `rh > 0` and `den ≠ 0`: `l·s / (β − s)` at both ends of the
enclosure of `s = c1 + c2`, once the pole `s = β` lies outside. -/
def dewptEnclosure (t rh : Word) (b l : Half) (n : Nat) : Enclosure :=
  let c1 := dewptC1Q t b l
  let beta := (b.toNat : ℚ) / 100
  let lam := (l.toNat : ℚ)
  if rh.toInt = 10000 then .exact (lam * c1 / (beta - c1))
  else if b.toNat = 0 then .exact (-lam)
  else if l.toNat = 0 then .exact 0
  else
    let terms := 128 + n
    let mid := logMiddle rh.toNat terms
    let rad := logRadius rh.toNat terms
    let s0 := c1 + (mid - rad)
    let s1 := c1 + (mid + rad)
    if 0 < (beta - s0) * (beta - s1) then .between (lam * s0 / (beta - s0)) (lam * s1 / (beta - s1)) else .unknown

end Sys2Proof.Machine
end

