-- ==== Sys2Proof/Laws/Enclosure.lean ====
section
/-!
SUPPORT. What Machine/Enclosure.lean computes is right and enough: every enclosure holds of the reference value, and for every input
some precision settles the faithful pair (the reference value is either an exact rational that is given as such, or irrational).
-/
namespace Sys2Proof.Machine

/-! ### Enclosures in general -/

/-- The pair that fits is the faithful pair of a value with these floor and ceiling. -/
theorem pairIfFits_faithful (V : ℝ) (lo hi : Int) (hlo : lo = ⌊V⌋) (hhi : hi = ⌈V⌉) : FaithfulPair V (pairIfFits lo hi) := by
  subst hlo hhi
  unfold pairIfFits
  split
  · exact ⟨by assumption, rfl, rfl⟩
  · assumption

theorem not_fits32 {V : ℝ} (h : V < -2 ^ 31 ∨ 2 ^ 31 - 1 < V) : ¬ Fits32 V := by
  rintro ⟨h1, h2⟩
  rcases h with h | h
  · have := Int.floor_le V
    have h1' : ((-2 ^ 31 : ℤ) : ℝ) ≤ ((⌊V⌋ : ℤ) : ℝ) := by exact_mod_cast h1
    push_cast at h1'; linarith
  · have := Int.le_ceil V
    have h2' : ((⌈V⌉ : ℤ) : ℝ) ≤ ((2 ^ 31 - 1 : ℤ) : ℝ) := by exact_mod_cast h2
    push_cast at h2'; linarith

/-- Where a true enclosure settles the pair, it is the faithful pair. -/
theorem Enclosure.settled_faithful {V : ℝ} {e : Enclosure} {o : Option (Int × Int)} (hV : e.Holds V) (h : e.settled = some o) :
    FaithfulPair V o := by
  cases e with
  | exact q =>
    simp only [Enclosure.settled, Option.some.injEq] at h
    subst h
    simp only [Enclosure.Holds] at hV
    subst hV
    exact pairIfFits_faithful _ _ _ (by simp) (by simp)
  | between a b =>
    simp only [Enclosure.settled] at h
    split at h
    · rename_i hb
      simp only [Option.some.injEq] at h
      subst h
      obtain ⟨h1, h2⟩ := hV
      have hb' : (b : ℝ) ≤ ((⌊a⌋ + 1 : ℤ) : ℝ) := by exact_mod_cast hb
      have ha : ((⌊a⌋ : ℤ) : ℝ) ≤ (a : ℝ) := by exact_mod_cast Int.floor_le a
      refine pairIfFits_faithful _ _ _ ?_ ?_
      · symm; rw [Int.floor_eq_iff]; push_cast at hb'; constructor <;> linarith
      · symm; rw [Int.ceil_eq_iff]; push_cast at hb' ⊢; constructor <;> linarith
    · split at h
      · rename_i hout
        simp only [Option.some.injEq] at h
        subst h
        obtain ⟨h1, h2⟩ := hV
        refine not_fits32 (hout.symm.imp (fun hb => ?_) (fun ha => ?_))
        · have hb' : (b : ℝ) ≤ -2 ^ 31 := by exact_mod_cast hb
          linarith
        · have ha' : (2 ^ 31 - 1 : ℝ) ≤ (a : ℝ) := by exact_mod_cast ha
          linarith
      · cases h
  | outside =>
    simp only [Enclosure.settled, Option.some.injEq] at h
    subst h
    exact not_fits32 hV
  | unknown => simp [Enclosure.settled] at h

/-- Enclosures that close in on an irrational number settle its pair. -/
theorem settled_of_tendsto {V : ℝ} (hV : Irrational V) (a b : Nat → ℚ)
    (ha : Filter.Tendsto (fun n => (a n : ℝ)) Filter.atTop (nhds V))
    (hb : Filter.Tendsto (fun n => (b n : ℝ)) Filter.atTop (nhds V)) :
    ∀ᶠ n in Filter.atTop, (Enclosure.between (a n) (b n)).Holds V → (Enclosure.between (a n) (b n)).settled.isSome := by
  have hlt : ((⌊V⌋ : ℤ) : ℝ) < V := lt_of_le_of_ne (Int.floor_le V) fun h => hV ⟨(⌊V⌋ : ℤ), by exact_mod_cast h⟩
  have hgt : V < ((⌊V⌋ + 1 : ℤ) : ℝ) := by push_cast; exact Int.lt_floor_add_one V
  filter_upwards [ha.eventually (lt_mem_nhds hlt), hb.eventually (gt_mem_nhds hgt)] with n hn1 hn2 hab
  have hfl : ⌊a n⌋ = ⌊V⌋ := by
    rw [Int.floor_eq_iff]
    constructor
    · exact_mod_cast hn1.le
    · have := hab.1.trans hgt; exact_mod_cast this
  have hle : b n ≤ ((⌊a n⌋ + 1 : ℤ) : ℚ) := by rw [hfl]; exact_mod_cast hn2.le
  simp only [Enclosure.settled, if_pos hle, Option.isSome_some]

/-- `scaledBetween` encloses the product. -/
theorem scaledBetween_holds {r : Int} (hr : r ≠ 0) {a b : ℚ} {z : ℝ} (h : (a : ℝ) < z ∧ z < b) :
    (scaledBetween r a b).Holds (r * z) := by
  unfold scaledBetween
  split
  · rename_i hpos
    have hpos' : (0 : ℝ) < r := by exact_mod_cast hpos
    simp only [Enclosure.Holds]; push_cast
    exact ⟨mul_lt_mul_of_pos_left h.1 hpos', mul_lt_mul_of_pos_left h.2 hpos'⟩
  · have hneg : (r : ℝ) < 0 := by exact_mod_cast (by omega : r < 0)
    simp only [Enclosure.Holds]; push_cast
    exact ⟨mul_lt_mul_of_neg_left h.2 hneg, mul_lt_mul_of_neg_left h.1 hneg⟩

/-! ### The series -/

theorem expSum_cast (x : ℚ) (n : Nat) : ((expSum x n : ℚ) : ℝ) = ∑ m ∈ Finset.range n, (x : ℝ) ^ m / (m.factorial : ℝ) := by
  induction n with
  | zero => simp [expSum]
  | succ n ih => rw [expSum, Finset.sum_range_succ]; push_cast; rw [ih]

theorem logSum_cast (y : ℚ) (n : Nat) : ((logSum y n : ℚ) : ℝ) = ∑ m ∈ Finset.range n, (y : ℝ) ^ (m + 1) / ((m : ℝ) + 1) := by
  induction n with
  | zero => simp [logSum]
  | succ n ih => rw [logSum, Finset.sum_range_succ]; push_cast; rw [ih]

/-- The series of `exp` and its remainder, for exponents up to 22 in size. -/
theorem expSum_near (d : ℚ) (hd : |d| ≤ 22) (n : Nat) (hn : 43 ≤ n) :
    |Real.exp d - (expSum d n : ℚ)| ≤ 2 * |(d : ℝ)| ^ n / (n.factorial : ℝ) := by
  have hd' : |(d : ℝ)| ≤ 22 := by exact_mod_cast hd
  have hnorm : ‖((d : ℝ) : ℂ)‖ = |(d : ℝ)| := by rw [Complex.norm_real, Real.norm_eq_abs]
  have hq : ‖((d : ℝ) : ℂ)‖ / (n.succ : ℝ) ≤ 1 / 2 := by
    rw [hnorm, div_le_iff₀ (by positivity)]
    have : (43 : ℝ) ≤ n := by exact_mod_cast hn
    push_cast; linarith
  have h := Complex.exp_bound' hq
  have hcast : Complex.exp ((d : ℝ) : ℂ) - ∑ m ∈ Finset.range n, ((d : ℝ) : ℂ) ^ m / (m.factorial : ℂ)
      = ((Real.exp d - (expSum d n : ℚ) : ℝ) : ℂ) := by
    rw [expSum_cast]; push_cast; rfl
  rw [hcast, Complex.norm_real, Real.norm_eq_abs, hnorm] at h
  calc _ ≤ _ := h
    _ = _ := by ring

/-- The series of `−ln(1 − y)` and its remainder, for `|y| ≤ 16/25`. -/
theorem logSum_near (y : ℚ) (hy : |y| ≤ 16 / 25) (n : Nat) :
    |((logSum y n : ℚ) : ℝ) + Real.log (1 - y)| ≤ 2 * (16 / 25) ^ n := by
  have hy' : |(y : ℝ)| ≤ 16 / 25 := by
    have : ((|y| : ℚ) : ℝ) ≤ ((16 / 25 : ℚ) : ℝ) := by exact_mod_cast hy
    push_cast at this; exact this
  have h := Real.abs_log_sub_add_sum_range_le (x := (y : ℝ)) (by linarith) n
  rw [logSum_cast]
  refine h.trans ?_
  rw [div_le_iff₀ (by linarith), pow_succ]
  have h1 : |(y : ℝ)| ^ n ≤ (16 / 25) ^ n := pow_le_pow_left₀ (abs_nonneg _) hy' n
  have h2 : (0 : ℝ) ≤ (16 / 25) ^ n := by positivity
  nlinarith [abs_nonneg (y : ℝ), mul_le_mul h1 hy' (abs_nonneg _) h2]

/-! ### RHICE -/

/-- `V` of RHICE is `rh · exp(d)` with the rational exponent `d` (R85). -/
theorem rhiceV_eq (t rh : Word) (betaW lambdaW betaI lambdaI : Half) :
    rhiceV t rh betaW lambdaW betaI lambdaI = rh.toInt * Real.exp (rhiceExponent t betaW lambdaW betaI lambdaI : ℚ) := by
  unfold rhiceV rhiceExponent
  rw [mul_div_assoc, ← Real.exp_sub]
  push_cast; rfl

theorem exp_22_gt : (3000000000 : ℝ) < Real.exp 22 := by
  have h : Real.exp 22 = Real.exp 1 ^ 22 := by rw [← Real.exp_nat_mul]; norm_num
  rw [h]
  have h1 : (2.7 : ℝ) ^ 22 ≤ Real.exp 1 ^ 22 := pow_le_pow_left₀ (by norm_num) (by linarith [Real.exp_one_gt_d9]) 22
  have h2 : (3000000000 : ℝ) < (2.7 : ℝ) ^ 22 := by norm_num
  linarith

/-- Inside ±22 the series encloses the exponential. -/
theorem exp_between (d : ℚ) (hd : |d| ≤ 22) (hd0 : d ≠ 0) (n : Nat) (hn : 43 ≤ n) :
    ((expSum d n - 3 * |d| ^ n / (n.factorial : ℚ) : ℚ) : ℝ) < Real.exp d
      ∧ Real.exp d < ((expSum d n + 3 * |d| ^ n / (n.factorial : ℚ) : ℚ) : ℝ) := by
  have h := expSum_near d hd n hn
  have hpos : 0 < |(d : ℝ)| ^ n / (n.factorial : ℝ) := by
    have : 0 < |(d : ℝ)| := by rw [abs_pos]; exact_mod_cast hd0
    positivity
  rw [mul_div_assoc] at h
  rw [abs_le] at h
  push_cast
  rw [mul_div_assoc]
  constructor <;> linarith [h.1, h.2]

theorem rhiceEnclosure_holds (t rh : Word) (betaW lambdaW betaI lambdaI : Half) (n : Nat) :
    (rhiceEnclosure t rh betaW lambdaW betaI lambdaI n).Holds (rhiceV t rh betaW lambdaW betaI lambdaI) := by
  rw [rhiceV_eq]
  unfold rhiceEnclosure
  generalize rhiceExponent t betaW lambdaW betaI lambdaI = d
  generalize rh.toInt = r
  simp only
  split
  · rename_i hr; simp [Enclosure.Holds, hr]
  rename_i hr
  split
  · rename_i hd; simp [Enclosure.Holds, hd]
  rename_i hd0
  split
  · rename_i hd
    have hexp : (3000000000 : ℝ) < Real.exp d :=
      exp_22_gt.trans_le (Real.exp_le_exp.mpr (by exact_mod_cast hd))
    simp only [Enclosure.Holds]
    rcases lt_or_gt_of_ne hr with hneg | hpos
    · left
      have : (r : ℝ) ≤ -1 := by exact_mod_cast (by omega : r ≤ -1)
      nlinarith
    · right
      have : (1 : ℝ) ≤ r := by exact_mod_cast (by omega : 1 ≤ r)
      nlinarith
  rename_i hd1
  split
  · rename_i hd
    refine scaledBetween_holds hr ⟨by simpa using Real.exp_pos _, ?_⟩
    have h1 : Real.exp d ≤ Real.exp (-22) := Real.exp_le_exp.mpr (by exact_mod_cast hd)
    rw [Real.exp_neg] at h1
    have h2 : (Real.exp 22)⁻¹ < 1 / 3000000000 := by
      rw [inv_eq_one_div]; exact one_div_lt_one_div_of_lt (by norm_num) exp_22_gt
    push_cast; linarith
  · rename_i hd2
    exact scaledBetween_holds hr (exp_between d (by rw [abs_le]; constructor <;> linarith) hd0 _ (by omega))

theorem toInt_bounds (w : Word) : -2 ^ 31 ≤ w.toInt ∧ w.toInt ≤ 2 ^ 31 - 1 := by
  have h1 := BitVec.le_toInt w
  have h2 := BitVec.toInt_lt (x := w)
  simp at h1 h2
  omega

theorem rhiceEnclosure_settles (t rh : Word) (betaW lambdaW betaI lambdaI : Half) :
    ∃ n, (rhiceEnclosure t rh betaW lambdaW betaI lambdaI n).settled.isSome := by
  have hV := rhiceV_eq t rh betaW lambdaW betaI lambdaI
  have hr31 := toInt_bounds rh
  unfold rhiceEnclosure
  generalize rhiceExponent t betaW lambdaW betaI lambdaI = d at *
  generalize rh.toInt = r at *
  simp only
  split
  · exact ⟨0, rfl⟩
  rename_i hr
  split
  · exact ⟨0, rfl⟩
  rename_i hd0
  split
  · exact ⟨0, rfl⟩
  split
  · refine ⟨0, ?_⟩
    unfold scaledBetween
    split
    · have : (r : ℚ) * (1 / 3000000000) ≤ 1 := by
        have : (r : ℚ) ≤ 2 ^ 31 - 1 := by exact_mod_cast hr31.2
        linarith
      have h0 : (⌊(r : ℚ) * 0⌋ : ℤ) = 0 := by simp
      simp only [Enclosure.settled, h0]
      rw [if_pos (by push_cast; linarith)]
      rfl
    · rename_i hneg
      have h1 : ⌊(r : ℚ) * (1 / 3000000000)⌋ = -1 := by
        rw [Int.floor_eq_iff]
        have h2 : (-2 ^ 31 : ℚ) ≤ r := by exact_mod_cast hr31.1
        have h3 : (r : ℚ) ≤ -1 := by exact_mod_cast (by omega : r ≤ -1)
        push_cast
        constructor <;> linarith
      simp only [Enclosure.settled, h1]; simp
  rename_i hd1 hd2
  have hd : |d| ≤ 22 := by rw [abs_le]; constructor <;> linarith
  have hb := fun n : Nat => exp_between d hd hd0 (128 + n) (by omega)
  -- the radius tends to 0
  have hrad : Filter.Tendsto (fun n : Nat => ((3 * |d| ^ (128 + n) / ((128 + n).factorial : ℚ) : ℚ) : ℝ)) Filter.atTop (nhds 0) := by
    have h := ((FloorSemiring.tendsto_pow_div_factorial_atTop |(d : ℝ)|).const_mul 3).comp (Filter.tendsto_add_atTop_nat 128)
    simp only [mul_zero] at h
    refine h.congr fun n => ?_
    simp only [Function.comp_apply, Nat.add_comm n 128]
    push_cast; ring
  have hmid : Filter.Tendsto (fun n : Nat => ((expSum d (128 + n) : ℚ) : ℝ)) Filter.atTop (nhds (Real.exp d)) := by
    rw [tendsto_iff_dist_tendsto_zero]
    refine squeeze_zero (fun _ => dist_nonneg) (fun n => ?_) hrad
    have := hb n
    rw [Real.dist_eq, abs_le]
    push_cast at this ⊢
    constructor <;> linarith [this.1, this.2]
  have hlo : Filter.Tendsto (fun n : Nat => ((expSum d (128 + n) - 3 * |d| ^ (128 + n) / ((128 + n).factorial : ℚ) : ℚ) : ℝ))
      Filter.atTop (nhds (Real.exp d)) := by
    have := hmid.sub hrad; simp only [sub_zero] at this
    exact this.congr fun n => by push_cast; rfl
  have hhi : Filter.Tendsto (fun n : Nat => ((expSum d (128 + n) + 3 * |d| ^ (128 + n) / ((128 + n).factorial : ℚ) : ℚ) : ℝ))
      Filter.atTop (nhds (Real.exp d)) := by
    have := hmid.add hrad; simp only [add_zero] at this
    exact this.congr fun n => by push_cast; rfl
  have hirr : Irrational ((r : ℝ) * Real.exp d) := by
    have := (Laws.irrational_exp_of_rat d hd0).intCast_mul hr
    exact this
  unfold scaledBetween
  split
  · refine (settled_of_tendsto hirr _ _ ?_ ?_).exists.imp fun n hn => hn ?_
    · refine (hlo.const_mul (r : ℝ)).congr fun n => ?_
      push_cast; rfl
    · refine (hhi.const_mul (r : ℝ)).congr fun n => ?_
      push_cast; rfl
    · have h := scaledBetween_holds hr (hb n)
      rwa [scaledBetween, if_pos (by assumption)] at h
  · refine (settled_of_tendsto hirr _ _ ?_ ?_).exists.imp fun n hn => hn ?_
    · refine (hhi.const_mul (r : ℝ)).congr fun n => ?_
      push_cast; rfl
    · refine (hlo.const_mul (r : ℝ)).congr fun n => ?_
      push_cast; rfl
    · have h := scaledBetween_holds hr (hb n)
      rwa [scaledBetween, if_neg (by assumption)] at h

/-! ### DEWPT -/

/-- `c2` of DEWPT lies strictly within the radius of the computed middle. -/
theorem log_between (rh : Nat) (hrh : 0 < rh) (n : Nat) :
    ((logMiddle rh n - logRadius rh n : ℚ) : ℝ) < Real.log ((rh : ℝ) / 10000)
      ∧ Real.log ((rh : ℝ) / 10000) < ((logMiddle rh n + logRadius rh n : ℚ) : ℝ) := by
  unfold logMiddle logRadius
  have hjle : 2 ^ Nat.log2 rh ≤ rh := Nat.log2_self_le hrh.ne'
  have hjlt : rh < 2 ^ (Nat.log2 rh + 1) := Nat.lt_log2_self
  generalize Nat.log2 rh = j at *
  have hp : (0 : ℝ) < 2 ^ j := by positivity
  have hjle' : (2 : ℝ) ^ j ≤ rh := by exact_mod_cast hjle
  have hjlt' : (rh : ℝ) < 2 * 2 ^ j := by rw [pow_succ] at hjlt; have : (rh : ℝ) < 2 ^ j * 2 := by exact_mod_cast hjlt
                                          linarith
  set y : ℚ := 1 - (rh : ℚ) * 8192 / (10000 * 2 ^ j) with hy
  have hm : (1 : ℝ) - (y : ℝ) = (rh : ℝ) * 8192 / (10000 * 2 ^ j) := by rw [hy]; push_cast; ring
  have hm1 : (0.8192 : ℝ) ≤ 1 - (y : ℝ) := by rw [hm, le_div_iff₀ (by positivity)]; nlinarith
  have hm2 : 1 - (y : ℝ) < 1.6384 := by rw [hm, div_lt_iff₀ (by positivity)]; nlinarith
  have hyabs : |y| ≤ 16 / 25 := by
    have h1 : ((-(16 / 25) : ℚ) : ℝ) ≤ (y : ℝ) := by push_cast; linarith
    have h2 : (y : ℝ) ≤ ((16 / 25 : ℚ) : ℝ) := by push_cast; linarith
    exact abs_le.mpr ⟨by exact_mod_cast h1, by exact_mod_cast h2⟩
  have hlog : Real.log ((rh : ℝ) / 10000) = ((j : ℝ) - 13) * Real.log 2 + Real.log (1 - y) := by
    have hrh' : (0 : ℝ) < rh := by exact_mod_cast hrh
    rw [hm, Real.log_div (by positivity) (by positivity), Real.log_div (by positivity) (by positivity),
      Real.log_mul (by positivity) (by positivity), Real.log_mul (by positivity) (by positivity),
      Real.log_pow, show (8192 : ℝ) = 2 ^ 13 by norm_num, Real.log_pow]
    push_cast; ring
  have hA := logSum_near y hyabs n
  have hB : |((logSum (1 / 2) n : ℚ) : ℝ) - Real.log 2| ≤ 1 / 2 ^ n := by
    have h := Real.abs_log_sub_add_sum_range_le (x := (1 / 2 : ℝ)) (by norm_num [abs_of_pos]) n
    have hl : Real.log (1 - 1 / 2) = -Real.log 2 := by
      rw [show (1 : ℝ) - 1 / 2 = 2⁻¹ by norm_num, Real.log_inv]
    rw [hl] at h
    rw [logSum_cast]
    push_cast
    have habs : |(1 / 2 : ℝ)| = 1 / 2 := by norm_num
    rw [habs] at h
    have hr : (1 / 2 : ℝ) ^ (n + 1) / (1 - 1 / 2) = 1 / 2 ^ n := by
      rw [pow_succ, div_pow, one_pow]; field_simp; norm_num
    rw [hr] at h
    rw [sub_eq_add_neg]
    exact h
  have hC : |((j : ℝ) - 13) * ((logSum (1 / 2) n : ℚ) : ℝ) - ((j : ℝ) - 13) * Real.log 2| ≤ |(j : ℝ) - 13| * (1 / 2 ^ n) := by
    rw [← mul_sub, abs_mul]; exact mul_le_mul_of_nonneg_left hB (abs_nonneg _)
  have hD : (0 : ℝ) < 1 / 2 ^ n := by positivity
  have hE : (0 : ℝ) < (16 / 25) ^ n := by positivity
  have hF : (|(j : ℝ) - 13| + 1) / 2 ^ n = |(j : ℝ) - 13| * (1 / 2 ^ n) + 1 / 2 ^ n := by ring
  rw [hlog]
  push_cast
  rw [hF]
  rw [abs_le] at hA hC
  constructor <;> linarith [hA.1, hA.2, hC.1, hC.2]

theorem logRadius_tendsto (rh : Nat) : Filter.Tendsto (fun n => ((logRadius rh (128 + n) : ℚ) : ℝ)) Filter.atTop (nhds 0) := by
  unfold logRadius
  have h1 : Filter.Tendsto (fun n : Nat => (|((Nat.log2 rh : ℕ) : ℝ) - 13| + 1) * (1 / 2 : ℝ) ^ n) Filter.atTop (nhds 0) := by
    simpa using (tendsto_pow_atTop_nhds_zero_of_lt_one (by norm_num : (0 : ℝ) ≤ 1 / 2) (by norm_num)).const_mul
      (|((Nat.log2 rh : ℕ) : ℝ) - 13| + 1)
  have h2 : Filter.Tendsto (fun n : Nat => 3 * (16 / 25 : ℝ) ^ n) Filter.atTop (nhds 0) := by
    simpa using (tendsto_pow_atTop_nhds_zero_of_lt_one (by norm_num : (0 : ℝ) ≤ 16 / 25) (by norm_num)).const_mul 3
  have h := ((h1.add h2).comp (Filter.tendsto_add_atTop_nat 128))
  simp only [add_zero] at h
  refine h.congr fun n => ?_
  simp only [Function.comp_apply, Nat.add_comm n 128]
  push_cast
  rw [one_div, inv_pow]; ring

theorem toInt_eq_toNat_of_pos {w : Word} (h : 0 < w.toInt) : (w.toInt : ℤ) = (w.toNat : ℤ) := by
  have := BitVec.toInt_eq_toNat_cond w
  have := w.isLt
  split at * <;> omega

theorem dewptC1_cast (t : Word) (b l : Half) : ((dewptC1Q t b l : ℚ) : ℝ) = dewptC1 t b l := by
  unfold dewptC1Q dewptC1; push_cast; rfl

/-- For `rh > 0` other than 10000, `c2` is irrational (R86). -/
theorem dewptC2_irrational {rh : Word} (hrh : 0 < rh.toInt) (h1 : rh.toInt ≠ 10000) : Irrational (dewptC2 rh) := by
  have hq : (0 : ℚ) < (rh.toInt : ℚ) / 10000 := by have : (0 : ℚ) < rh.toInt := by exact_mod_cast hrh
                                                   positivity
  have hq1 : (rh.toInt : ℚ) / 10000 ≠ 1 := by
    intro h; rw [div_eq_iff (by norm_num)] at h; exact h1 (by exact_mod_cast (by linarith : (rh.toInt : ℚ) = 10000))
  have := Laws.irrational_log_of_rat _ hq hq1
  unfold dewptC2
  push_cast at this
  exact this

theorem dewptC2_hundred {rh : Word} (h : rh.toInt = 10000) : dewptC2 rh = 0 := by
  unfold dewptC2; rw [h]; norm_num

/-- The machine's test of `den = 0` is right (R86): for `rh > 0` other than 10000, `c2` is irrational and `den` is not 0. -/
theorem dewptDenZero_iff {t rh : Word} {b l : Half} (hrh : 0 < rh.toInt) :
    dewptDenZero t rh b l = true ↔ dewptDen t rh b l = 0 := by
  unfold dewptDenZero dewptDen
  rw [decide_eq_true_iff]
  by_cases h : rh.toInt = 10000
  · rw [dewptC2_hundred h, ← dewptC1_cast]
    constructor
    · rintro ⟨_, h0⟩
      have : (((b.toNat : ℚ) / 100 - dewptC1Q t b l : ℚ) : ℝ) = 0 := by exact_mod_cast h0
      push_cast at this; linarith
    · intro h0
      refine ⟨h, ?_⟩
      have : (((b.toNat : ℚ) / 100 - dewptC1Q t b l : ℚ) : ℝ) = 0 := by push_cast; linarith
      exact_mod_cast this
  · constructor
    · rintro ⟨h', _⟩; exact absurd h' h
    · intro h0
      exfalso
      refine dewptC2_irrational hrh h ⟨(b.toNat : ℚ) / 100 - dewptC1Q t b l, ?_⟩
      push_cast; rw [dewptC1_cast]; linarith

/-- The Moebius map `s ↦ l·s/(β − s)` increases on each side of its pole. -/
theorem moebius_lt {l beta s s' : ℝ} (hl : 0 < l) (hb : 0 < beta) (h : s < s') (hs : 0 < (beta - s) * (beta - s')) :
    l * s / (beta - s) < l * s' / (beta - s') := by
  have h1 : beta - s ≠ 0 := left_ne_zero_of_mul hs.ne'
  have h2 : beta - s' ≠ 0 := right_ne_zero_of_mul hs.ne'
  have : l * s' / (beta - s') - l * s / (beta - s) = l * beta * (s' - s) / ((beta - s) * (beta - s')) := by
    field_simp; ring
  have hpos : 0 < l * beta * (s' - s) / ((beta - s) * (beta - s')) := by
    apply div_pos (mul_pos (mul_pos hl hb) (by linarith)) hs
  linarith

/-- `V` of DEWPT as the Moebius map at `s = c1 + c2`. -/
theorem dewptV_eq (t rh : Word) (b l : Half) :
    dewptV t rh b l = (l.toNat : ℝ) * (dewptC1 t b l + dewptC2 rh) / ((b.toNat : ℝ) / 100 - (dewptC1 t b l + dewptC2 rh)) := by
  unfold dewptV dewptDen; rw [add_comm (dewptC2 rh)]; congr 1; ring

theorem dewptEnclosure_holds {t rh : Word} {b l : Half} (hrh : 0 < rh.toInt) (n : Nat) :
    (dewptEnclosure t rh b l n).Holds (dewptV t rh b l) := by
  unfold dewptEnclosure
  simp only
  split
  · rename_i h
    rw [dewptV_eq, dewptC2_hundred h, ← dewptC1_cast]
    simp [Enclosure.Holds]
  rename_i h
  have hirr := dewptC2_irrational hrh h
  split
  · rename_i hb
    have hc1 : dewptC1 t b l = 0 := by unfold dewptC1; rw [hb]; simp
    have h0 : dewptC2 rh ≠ 0 := hirr.ne_zero
    rw [dewptV_eq, hc1, hb]
    simp only [Enclosure.Holds]; push_cast; field_simp; ring
  rename_i hb
  split
  · rename_i hl
    rw [dewptV_eq, hl]; simp [Enclosure.Holds]
  rename_i hl
  split
  · rename_i hs
    have hlog := log_between rh.toNat (by have := toInt_eq_toNat_of_pos hrh; omega) (128 + n)
    have hcast : Real.log ((rh.toNat : ℝ) / 10000) = dewptC2 rh := by
      unfold dewptC2; congr 2
      exact_mod_cast (congrArg (Int.cast : ℤ → ℝ) (toInt_eq_toNat_of_pos hrh)).symm
    rw [hcast] at hlog
    rw [dewptV_eq, ← dewptC1_cast]
    have hl' : (0 : ℝ) < l.toNat := by exact_mod_cast Nat.pos_of_ne_zero hl
    have hb' : (0 : ℝ) < (b.toNat : ℝ) / 100 := by have : (0 : ℝ) < b.toNat := by exact_mod_cast Nat.pos_of_ne_zero hb
                                                   positivity
    generalize dewptC1Q t b l = c1 at *
    generalize dewptC2 rh = c2 at *
    generalize logMiddle rh.toNat (128 + n) = mid at *
    generalize logRadius rh.toNat (128 + n) = rad at *
    have hs' : (0 : ℝ) < ((b.toNat : ℝ) / 100 - (c1 + (mid - rad))) * ((b.toNat : ℝ) / 100 - (c1 + (mid + rad))) := by
      have := (Rat.cast_pos (K := ℝ)).mpr hs
      push_cast at this; exact this
    push_cast at hlog
    have hprod : ∀ x z : ℝ, (mid : ℝ) - rad ≤ x → x ≤ mid + rad → (mid : ℝ) - rad ≤ z → z ≤ mid + rad →
        0 < ((b.toNat : ℝ) / 100 - (c1 + x)) * ((b.toNat : ℝ) / 100 - (c1 + z)) := by
      intro x z h1 h2 h3 h4
      rcases pos_and_pos_or_neg_and_neg_of_mul_pos hs' with ⟨ha, hb⟩ | ⟨ha, hb⟩
      · exact mul_pos (by linarith) (by linarith)
      · exact mul_pos_of_neg_of_neg (by linarith) (by linarith)
    simp only [Enclosure.Holds]
    push_cast
    constructor
    · exact moebius_lt hl' hb' (by linarith [hlog.1]) (hprod _ _ (by linarith) (by linarith) (by linarith) (by linarith))
    · exact moebius_lt hl' hb' (by linarith [hlog.2]) (hprod _ _ (by linarith) (by linarith) (by linarith) (by linarith))
  · simp [Enclosure.Holds]

theorem dewptEnclosure_settles {t rh : Word} {b l : Half} (hrh : 0 < rh.toInt) :
    ∃ n, (dewptEnclosure t rh b l n).settled.isSome := by
  have hholds := fun n => dewptEnclosure_holds (t := t) (b := b) (l := l) hrh n
  unfold dewptEnclosure at *
  simp only at *
  split
  · exact ⟨0, rfl⟩
  rename_i h
  have hirr := dewptC2_irrational hrh h
  split
  · exact ⟨0, rfl⟩
  rename_i hb
  split
  · exact ⟨0, rfl⟩
  rename_i hl
  simp only [if_neg h, if_neg hb, if_neg hl] at hholds
  have hcast : Real.log ((rh.toNat : ℝ) / 10000) = dewptC2 rh := by
    unfold dewptC2; congr 2
    exact_mod_cast (congrArg (Int.cast : ℤ → ℝ) (toInt_eq_toNat_of_pos hrh)).symm
  have hlog := fun n : Nat => log_between rh.toNat (by have := toInt_eq_toNat_of_pos hrh; omega) (128 + n)
  rw [hcast] at hlog
  have hrad := logRadius_tendsto rh.toNat
  have hmid : Filter.Tendsto (fun n : Nat => ((logMiddle rh.toNat (128 + n) : ℚ) : ℝ)) Filter.atTop (nhds (dewptC2 rh)) := by
    rw [tendsto_iff_dist_tendsto_zero]
    refine squeeze_zero (fun _ => dist_nonneg) (fun n => ?_) hrad
    have := hlog n
    rw [Real.dist_eq, abs_le]
    push_cast at this ⊢
    constructor <;> linarith [this.1, this.2]
  -- the two ends of the enclosure of s
  have hs0 : Filter.Tendsto (fun n : Nat => ((dewptC1Q t b l + (logMiddle rh.toNat (128 + n) - logRadius rh.toNat (128 + n)) : ℚ) : ℝ))
      Filter.atTop (nhds (dewptC1 t b l + dewptC2 rh)) := by
    have := (hmid.sub hrad).const_add (dewptC1 t b l); simp only [sub_zero] at this
    exact this.congr fun n => by push_cast [dewptC1_cast]; rfl
  have hs1 : Filter.Tendsto (fun n : Nat => ((dewptC1Q t b l + (logMiddle rh.toNat (128 + n) + logRadius rh.toNat (128 + n)) : ℚ) : ℝ))
      Filter.atTop (nhds (dewptC1 t b l + dewptC2 rh)) := by
    have := (hmid.add hrad).const_add (dewptC1 t b l); simp only [add_zero] at this
    exact this.congr fun n => by push_cast [dewptC1_cast]; rfl
  have hsirr : Irrational (dewptC1 t b l + dewptC2 rh) := by
    rw [← dewptC1_cast]; exact hirr.ratCast_add _
  have hden : (b.toNat : ℝ) / 100 - (dewptC1 t b l + dewptC2 rh) ≠ 0 := by
    intro h0
    exact hsirr ⟨(b.toNat : ℚ) / 100, by push_cast; linarith⟩
  have hVirr : Irrational (dewptV t rh b l) := by
    rw [dewptV_eq]
    generalize dewptC1 t b l + dewptC2 rh = s at *
    rintro ⟨q, hq⟩
    rw [eq_div_iff hden] at hq
    have hb0 : (b.toNat : ℝ) ≠ 0 := by exact_mod_cast hb
    have hl0 : (l.toNat : ℝ) ≠ 0 := by exact_mod_cast hl
    by_cases hlq : (l.toNat : ℝ) + q = 0
    · have : (q : ℝ) = -(l.toNat : ℝ) := by linarith
      rw [this] at hq
      have : (l.toNat : ℝ) * ((b.toNat : ℝ) / 100) = 0 := by linarith
      rcases mul_eq_zero.mp this with h | h
      · exact hl0 h
      · exact hb0 (by linarith)
    · refine hsirr ⟨q * ((b.toNat : ℚ) / 100) / ((l.toNat : ℚ) + q), ?_⟩
      push_cast
      rw [div_eq_iff hlq]
      linarith
  have hf : ∀ u : Nat → ℚ, Filter.Tendsto (fun n => ((u n : ℚ) : ℝ)) Filter.atTop (nhds (dewptC1 t b l + dewptC2 rh)) →
      Filter.Tendsto (fun n => (((l.toNat : ℚ) * u n / ((b.toNat : ℚ) / 100 - u n) : ℚ) : ℝ)) Filter.atTop (nhds (dewptV t rh b l)) := by
    intro u hu
    have := (hu.const_mul (l.toNat : ℝ)).div (hu.const_sub ((b.toNat : ℝ) / 100)) hden
    rw [dewptV_eq]
    exact this.congr fun n => by push_cast; rfl
  have hpole : ∀ᶠ n : Nat in Filter.atTop,
      0 < ((b.toNat : ℚ) / 100 - (dewptC1Q t b l + (logMiddle rh.toNat (128 + n) - logRadius rh.toNat (128 + n))))
        * ((b.toNat : ℚ) / 100 - (dewptC1Q t b l + (logMiddle rh.toNat (128 + n) + logRadius rh.toNat (128 + n)))) := by
    have := (hs0.const_sub ((b.toNat : ℝ) / 100)).mul (hs1.const_sub ((b.toNat : ℝ) / 100))
    filter_upwards [this.eventually (lt_mem_nhds (mul_self_pos.mpr hden))] with n hn
    rw [← Rat.cast_pos (K := ℝ)]
    push_cast at hn ⊢; exact hn
  have hdec := settled_of_tendsto hVirr _ _ (hf _ hs0) (hf _ hs1)
  obtain ⟨n, hn1, hn2⟩ := (hpole.and hdec).exists
  refine ⟨n, ?_⟩
  rw [if_pos hn1]
  have := hholds n
  rw [if_pos hn1] at this
  exact hn2 this

end Sys2Proof.Machine
end

