-- ==== Sys2Proof/Machine/Neighbours.lean ====
section
/-!
DEFINITION. The faithful pair of a reference value (spec/00_scope.md R14; spec/41_conversion.md R80, R85, R86): floor and ceiling where
the value fits s32, `none` where it does not. Each function's TYPE says that its answer is right; its value is computed exactly, by
refining a rational enclosure until it settles the pair (log entry 12).
-/
namespace Sys2Proof.Machine

/-- The pair that a settling enclosure gives. Precision 0 settles all but a vanishing share of inputs and precision 256 all but a vanishing
share of those, so both are tried before the search. -/
def firstSettled (e : Nat → Enclosure) (h : ∃ n, (e n).settled.isSome = true) : Option (Int × Int) :=
  match (e 0).settled with
  | some o => o
  | none =>
    match (e 256).settled with
    | some o => o
    | none => (e (Nat.find h)).settled.get (Nat.find_spec h)

/-- What the search gives is the faithful pair, if all the enclosures hold. -/
theorem firstSettled_faithful {V : ℝ} {e : Nat → Enclosure} (hV : ∀ n, (e n).Holds V) (h : ∃ n, (e n).settled.isSome = true) :
    FaithfulPair V (firstSettled e h) := by
  unfold firstSettled
  split
  · exact Enclosure.settled_faithful (hV 0) (by assumption)
  · split
    · exact Enclosure.settled_faithful (hV 256) (by assumption)
    · exact Enclosure.settled_faithful (hV _) (Option.some_get _).symm

/-- The faithful pair of RHICE's reference value (R85). -/
def rhiceNeighbours (t rh : Word) (betaW lambdaW betaI lambdaI : Half) :
    { o : Option (Int × Int) // FaithfulPair (rhiceV t rh betaW lambdaW betaI lambdaI) o } :=
  ⟨firstSettled (rhiceEnclosure t rh betaW lambdaW betaI lambdaI) (rhiceEnclosure_settles t rh betaW lambdaW betaI lambdaI),
    firstSettled_faithful (rhiceEnclosure_holds t rh betaW lambdaW betaI lambdaI) _⟩

/-- The faithful pair of DEWPT's reference value (R86), for `rh > 0`. -/
def dewptNeighbours (t rh : Word) (b l : Half) (hrh : 0 < rh.toInt) :
    { o : Option (Int × Int) // FaithfulPair (dewptV t rh b l) o } :=
  ⟨firstSettled (dewptEnclosure t rh b l) (dewptEnclosure_settles hrh), firstSettled_faithful (dewptEnclosure_holds hrh) _⟩

end Sys2Proof.Machine
end

