-- ==== Sys2Proof/Machine/Conversion.lean ====
section
/-!
DEFINITION. The conversion family: CVTT, CVTRH, RHICE, DEWPT (spec/41_conversion.md R78 to R86).
-/
namespace Sys2Proof.Machine

/-- `rnd(p, q)` for `q > 0` (R12): round to nearest, ties up. -/
def rnd (p q : Int) : Int := (2 * p + q) / (2 * q)

/-- `lin(mn, sp, raw)` (R78). -/
def lin (mn sp raw : Half) : Int := mn.toInt + rnd (sp.toInt * (raw.toNat : Int)) 65535

/-- An integer as an s32 word. -/
def s32 (v : Int) : Word := BitVec.ofInt 32 v

/-- The member of a faithful pair that a choice names (R14): the ceiling where it is true. -/
def drawn (up : Bool) (pair : Int × Int) : Int := if up then pair.2 else pair.1

/-- CVTT (R83). -/
def execCvtt (s : State) : Result := completeWith (s32 (lin s.tMin s.tSpan (rawCode s))) s

/-- CVTRH (R84): floored after rounding, no upper clamp. -/
def execCvtrh (s : State) : Result := completeWith (s32 (max (lin s.rhMin s.rhSpan (rawCode s)) (floorValue s))) s

/-- RHICE (R85): for `t ≥ 0` the humidity floored; for `t < 0` a faithful neighbour of the reference value, floored, or DOMAIN. Which
neighbour is the free value `Config.drawRhice` (log entry 10). The fit is checked before the floor, also for a negative value (log entry 13). -/
def execRhice (s : State) : Result :=
  if 0 ≤ operandT s then completeWith (s32 (max (operandRh s) (floorValue s))) s
  else if s.lambdaW = 0 ∨ s.lambdaI = 0 then raise .domain s
  else
    match (rhiceNeighbours s.arg0 s.arg1 s.betaW s.lambdaW s.betaI s.lambdaI).1 with
    | none => raise .domain s
    | some pair =>
      completeWith (s32 (max (drawn (Config.drawRhice s.arg0 s.arg1 s.betaW s.lambdaW s.betaI s.lambdaI) pair) (floorValue s))) s

/-- DEWPT (R86): a faithful neighbour of the Magnus dew point, or DOMAIN; the checks in the order of the rule. Which neighbour is the free
value `Config.drawDewpt` (log entry 11). -/
def execDewpt (s : State) : Result :=
  let b := (magnusSel s).1
  let l := (magnusSel s).2
  if h : 0 < operandRh s then
    if (l.toNat : Int) + operandT s = 0 then raise .domain s
    else if dewptDenZero s.arg0 s.arg1 b l then raise .domain s
    else
      match (dewptNeighbours s.arg0 s.arg1 b l h).1 with
      | none => raise .domain s
      | some pair => completeWith (s32 (drawn (Config.drawDewpt s.arg0 s.arg1 b l) pair)) s
  else raise .domain s

end Sys2Proof.Machine
end

