-- ==== Sys2Proof/Machine/Transaction.lean ====
section
/-!
DEFINITION. The transaction family: XFER and the steps that carry its transaction on (spec/42_transaction.md R90 to R100).
-/
namespace Sys2Proof.Machine

/-- The snapshot taken at acceptance (R91). -/
def takeSnapshot (opl : OpLen) (txlen rxlen : Nat) (s : State) : Snapshot where
  addr := s.addr
  opbytes := opcodeBytes opl s.opcode
  payload := s.tx.bytes 0 txlen
  settle := s.settle
  rdreg := s.rdreg
  rxlen := BitVec.ofNat 8 rxlen
  chk := s.chkcrc
  fatal := s.crcfatal

/-- The write request of a transaction (R92). -/
def writeRequest (x : Snapshot) : Request :=
  match x.opbytes, x.payload with
  | .one b, [] => .writeByte x.addr b
  | .one b, p :: ps => .writeBlock x.addr b (p :: ps)
  | .two first second, payload => .writeBlock x.addr first (second :: payload)

/-- A request goes to TRANSPORT (R88); it is the next of the observation of R138. -/
def issue (r : Request) (s : State) : State := { s with requests := s.requests ++ [r] }

/-- The transaction starts (R90): snapshot, WFAIL, FAILCNT and CRCWARN cleared, write request, phase WRITE. -/
def startTransaction (x : Snapshot) (s : State) : State :=
  { issue (writeRequest x) s with xs := some x, wfail := 0, failcnt := 0, crcwarn := false, pend := .wr, phase := .write }

/-- XFER (R90): the acceptance checks in their order, then the start of the transaction. -/
def execXfer (opl : OpLen) (txlen rxlen : Nat) (s : State) : Result :=
  if Config.txBufSize < txlen then raise .badlen s
  else if Config.rxBufSize < rxlen then raise .badlen s
  else if s.chkcrc = true ∧ rxlen % 3 ≠ 0 then raise .badlen s
  else if s.lock = false then raise .noaddr s
  else .next (startTransaction (takeSnapshot opl txlen rxlen s) s)

/-- What the held snapshot says, or a fault where none is held (I15). -/
def withSnapshot (s : State) (f : Snapshot → Result) : Result :=
  match s.xs with
  | some x => f x
  | none => .fault .snapshotAbsent

/-- `after_settle()` (R96). -/
def afterSettle (x : Snapshot) (s : State) : State :=
  if x.rxlen = 0 then finish .none { s with scnt := 0 }
  else { issue (.readBlock x.addr x.rdreg x.rxlen.toNat) s with scnt := 0, pend := .rd, phase := .read }

/-- A write request is outstanding (R40, R93). -/
def State.writeOutstanding (s : State) : Bool := decide (s.phase = .write) && decide (s.pend = .wr)

/-- A read request is outstanding (R40, R97). -/
def State.readOutstanding (s : State) : Bool := decide (s.phase = .read) && decide (s.pend = .rd)

/-- TRANSPORT answers the write request OK (R93). Without such a request the answer never reaches SENSIF (R89, R125; log entry 6). -/
def onWriteOk (s : State) : Result :=
  if s.writeOutstanding then
    withSnapshot s fun x =>
      if x.settle = 0 then .next (afterSettle x { s with pend := .none })
      else .next { s with pend := .none, scnt := x.settle.zeroExtend 17 + 1, phase := .settle }
  else .next s

/-- TRANSPORT answers the write request ERR (R93). -/
def onWriteErr (s : State) : Result :=
  if s.writeOutstanding then raise .buswr { s with pend := .none } else .next s

/-- A TICK (R94, R95): it counts in SETTLE and has no effect elsewhere. In SETTLE with scnt = 0, a state no run reaches, R100 has no
transition (log entry 14). -/
def onTick (s : State) : Result :=
  if s.phase = .settle ∧ s.scnt ≠ 0 then
    if s.scnt = 1 then withSnapshot s fun x => .next (afterSettle x s)
    else .next { s with scnt := s.scnt - 1 }
  else .next s

/-- The checksum dispatcher (R98). -/
def dispatchChecksum (x : Snapshot) (s : State) : Result :=
  if x.chk then validateAndFinish x.rxlen.toNat x.fatal s else complete s

/-- TRANSPORT answers the read request OK (R97): all bytes land, are checked and the command ends, in this one step (R99). -/
def onReadOk (bytes : List Byte) (s : State) : Result :=
  if s.readOutstanding then
    withSnapshot s fun x =>
      if bytes.length = x.rxlen.toNat then dispatchChecksum x { s with pend := .none, rx := s.rx.writeBytes 0 bytes }
      else .refused .readAnswerLength
  else .next s

/-- TRANSPORT answers the read request ERR (R97). -/
def onReadErr (s : State) : Result :=
  if s.readOutstanding then raise .busrd { s with pend := .none } else .next s

end Sys2Proof.Machine
end

