-- ==== Sys2Proof/Machine/Dispatch.lean ====
section
/-!
DEFINITION. One arm per command: the rule of its row (spec/30_encoding.md R65). Acceptance (DONE <- 0) stands before it, in `submit`
(log entry 26).
-/
namespace Sys2Proof.Machine

def exec (i : Instr) (s : State) : Host.Outcome State Fault Refusal :=
  match i with
  | .crcw => Sys2Proof.Machine.execCrcw s
  | .crcv => Sys2Proof.Machine.execCrcv s
  | .crcb buf start count => Sys2Proof.Machine.execCrcb buf start count s
  | .crcval len => Sys2Proof.Machine.execCrcval len s
  | .txpack idx => Sys2Proof.Machine.execTxpack idx s
  | .cvtt => Sys2Proof.Machine.execCvtt s
  | .cvtrh => Sys2Proof.Machine.execCvtrh s
  | .rhice => Sys2Proof.Machine.execRhice s
  | .dewpt => Sys2Proof.Machine.execDewpt s
  | .xfer opl txlen rxlen => Sys2Proof.Machine.execXfer opl txlen rxlen s

end Sys2Proof.Machine
end

