-- ==== Sys2Proof/Machine/Flags.lean ====
section
/-!
DEFINITION. The views of the state that a register read or an output gives: STATUS, CTRL and DEVADDR as words (spec/10_state.md R18, R20,
R24), SCNT (R32), and the interrupt output (R43; spec/60_exceptions.md R115).
-/
namespace Sys2Proof.Machine

/-- STATUS.ERR's code (R104). -/
def ErrCode.bits : ErrCode → BitVec 4
  | .none => 0
  | .badcmd => 1
  | .badlen => 2
  | .noaddr => 3
  | .buswr => 4
  | .busrd => 5
  | .crc => 6
  | .domain => 7

/-- STATUS.PHASE's code (R20, R39). -/
def Phase.bits : Phase → BitVec 2
  | .idle => 0
  | .write => 1
  | .settle => 2
  | .read => 3

/-- STATUS as a word (R20): from bit 31 down, reserved, FAILCNT, reserved, CFGERR, OVR, CRCWARN, ERR, PHASE, DONE, BUSY. -/
def statusWord (s : State) : Word :=
  0#11 ++ s.failcnt ++ 0#5 ++ BitVec.ofBool s.cfgerr ++ BitVec.ofBool s.ovr ++ BitVec.ofBool s.crcwarn ++ s.err.bits ++ s.phase.bits
    ++ BitVec.ofBool s.done ++ BitVec.ofBool s.busy

/-- CTRL as a word (R18). -/
def ctrlWord (s : State) : Word := 0#29 ++ BitVec.ofBool s.ie ++ BitVec.ofBool s.crcfatal ++ BitVec.ofBool s.chkcrc

/-- DEVADDR as a word (R24). -/
def devaddrWord (s : State) : Word := BitVec.ofBool s.lock ++ 0#24 ++ s.addr

/-- SCNT as a word (R32). -/
def scntWord (s : State) : Word := s.scnt.zeroExtend 32

/-- The interrupt output (R43, R115): `IRQ = CTRL.IE AND STATUS.DONE`. -/
def State.irq (s : State) : Bool := s.ie && s.done

end Sys2Proof.Machine
end

