-- ==== Sys2Proof/Machine/RegMap.lean ====
section
/-!
DEFINITION. The register map of the host window (spec/10_state.md R15; spec/20_memory.md R46, R47, R54): which register sits at which byte
offset, and which accesses are legal.
-/
namespace Sys2Proof.Machine

/-- The registers of the window (R15). -/
inductive Reg where
  | ident
  | ctrl
  | status
  | cmd
  | devaddr
  | opcode
  | settle
  | rdreg
  | arg0
  | arg1
  | result
  | wfail
  | scnt
  | tMin
  | tSpan
  | rhMin
  | rhSpan
  | rhFloor
  | betaW
  | lambdaW
  | betaI
  | lambdaI
  | tx (k : Nat)
  | rx (k : Nat)
  deriving DecidableEq, Repr

/-- The byte offset of a register (R15). -/
def Reg.offset : Reg → Nat
  | .ident => 0x000
  | .ctrl => 0x004
  | .status => 0x008
  | .cmd => 0x00C
  | .devaddr => 0x010
  | .opcode => 0x014
  | .settle => 0x018
  | .rdreg => 0x01C
  | .arg0 => 0x020
  | .arg1 => 0x024
  | .result => 0x028
  | .wfail => 0x02C
  | .scnt => 0x030
  | .tMin => 0x040
  | .tSpan => 0x044
  | .rhMin => 0x048
  | .rhSpan => 0x04C
  | .rhFloor => 0x050
  | .betaW => 0x054
  | .lambdaW => 0x058
  | .betaI => 0x05C
  | .lambdaI => 0x060
  | .tx k => 0x100 + 4 * k
  | .rx k => 0x200 + 4 * k

/-- The register is one of the map: only the buffer indices are bounded (R15). -/
def Reg.exists : Reg → Bool
  | .tx k => k < Config.txBufSize
  | .rx k => k < Config.rxBufSize
  | _ => true

/-- The registers that are no buffer byte, in the order of the map (R15). -/
def plainRegs : List Reg :=
  [.ident, .ctrl, .status, .cmd, .devaddr, .opcode, .settle, .rdreg, .arg0, .arg1, .result, .wfail, .scnt, .tMin, .tSpan, .rhMin, .rhSpan,
   .rhFloor, .betaW, .lambdaW, .betaI, .lambdaI]

/-- The register at a byte offset that is a multiple of 4, or none where the window holds no register (R15, R54). -/
def regAt (off : Nat) : Option Reg :=
  if 0x100 ≤ off ∧ off < 0x100 + 4 * Config.txBufSize then some (.tx ((off - 0x100) / 4))
  else if 0x200 ≤ off ∧ off < 0x200 + 4 * Config.rxBufSize then some (.rx ((off - 0x200) / 4))
  else plainRegs.find? (fun r => r.offset == off)

/-- A legal host access (R46): 32 bits wide, at an offset with `off[1:0] = 0`. -/
def legalAccess (width : Width) (off : BitVec 12) : Bool := decide (width = .w32) && off.extractLsb' 0 2 == 0

end Sys2Proof.Machine
end

