-- ==== Sys2Proof/Machine/Window.lean ====
section
/-!
DEFINITION. The host window: submitting a command (spec/10_state.md R23; spec/30_encoding.md R65, R66; spec/60_exceptions.md R108, R111), and
reading and writing every register (spec/10_state.md R16 to R37; spec/20_memory.md R46).
-/
namespace Sys2Proof.Machine

/-- The command unit on an accepted word: the row's rule, or BADCMD where no row matches (R65, R66). -/
def runCommand (v : Word) (s : State) : Result :=
  match decode v with
  | .ok i => exec i s
  | .error _ => raise .badcmd s

/-- A host write of `v` to CMD (R23): dropped while BUSY (R111), else accepted, which clears DONE, and run (R65, R108). -/
def submit (v : Word) (s : State) : Result :=
  if s.busy then .next (dropCommand s) else runCommand v (accept s)

/-- What a legal read of a register returns, by its access type (R16). No read has a side effect (R52). -/
def readReg (s : State) : Reg → Word
  | .ident => Config.identValue
  | .ctrl => ctrlWord s
  | .status => statusWord s
  | .cmd => 0
  | .devaddr => devaddrWord s
  | .opcode => s.opcode.zeroExtend 32
  | .settle => s.settle.zeroExtend 32
  | .rdreg => s.rdreg.zeroExtend 32
  | .arg0 => s.arg0
  | .arg1 => s.arg1
  | .result => s.result
  | .wfail => s.wfail
  | .scnt => scntWord s
  | .tMin => s.tMin.signExtend 32
  | .tSpan => s.tSpan.signExtend 32
  | .rhMin => s.rhMin.signExtend 32
  | .rhSpan => s.rhSpan.signExtend 32
  | .rhFloor => s.rhFloor.zeroExtend 32
  | .betaW => s.betaW.zeroExtend 32
  | .lambdaW => s.lambdaW.zeroExtend 32
  | .betaI => s.betaI.zeroExtend 32
  | .lambdaI => s.lambdaI.zeroExtend 32
  | .tx k => (s.tx.read k).zeroExtend 32
  | .rx k => (s.rx.read k).zeroExtend 32

/-- A write to CTRL (R19). -/
def writeCtrl (v : Word) (s : State) : State :=
  { s with chkcrc := v.getLsbD 0, crcfatal := v.getLsbD 1, ie := v.getLsbD 2 }

/-- A write to DEVADDR (R25): once, with v[30:7] = 0; any other is refused with CFGERR. -/
def writeDevaddr (v : Word) (s : State) : State :=
  if s.lock = false ∧ v.extractLsb' 7 24 = 0 then { s with addr := v.extractLsb' 0 7, lock := true }
  else { s with cfgerr := true }

/-- What RH_FLOOR stores for a write of `v` (R35): v[15:0], or 1 where that is 0. -/
def legalFloor (v : Word) : Half := if v.extractLsb' 0 16 = 0 then 1 else v.extractLsb' 0 16

/-- A write to RX[k] (R37): ignored while BUSY. -/
def writeRx (k : Nat) (v : Word) (s : State) : State :=
  if s.busy then s else { s with rx := s.rx.write k (v.extractLsb' 0 8) }

/-- A legal write of `v` to a register, by its rule (R16 to R37). RO registers ignore it. -/
def writeReg (v : Word) (s : State) : Reg → Result
  | .ident => .next s
  | .ctrl => .next (writeCtrl v s)
  | .status => .next (writeStatus v s)
  | .cmd => submit v s
  | .devaddr => .next (writeDevaddr v s)
  | .opcode => .next { s with opcode := v.extractLsb' 0 16 }
  | .settle => .next { s with settle := v.extractLsb' 0 16 }
  | .rdreg => .next { s with rdreg := v.extractLsb' 0 8 }
  | .arg0 => .next { s with arg0 := v }
  | .arg1 => .next { s with arg1 := v }
  | .result => .next s
  | .wfail => .next s
  | .scnt => .next s
  | .tMin => .next { s with tMin := v.extractLsb' 0 16 }
  | .tSpan => .next { s with tSpan := v.extractLsb' 0 16 }
  | .rhMin => .next { s with rhMin := v.extractLsb' 0 16 }
  | .rhSpan => .next { s with rhSpan := v.extractLsb' 0 16 }
  | .rhFloor => .next { s with rhFloor := legalFloor v }
  | .betaW => .next { s with betaW := v.extractLsb' 0 16 }
  | .lambdaW => .next { s with lambdaW := v.extractLsb' 0 16 }
  | .betaI => .next { s with betaI := v.extractLsb' 0 16 }
  | .lambdaI => .next { s with lambdaI := v.extractLsb' 0 16 }
  | .tx k => .next { s with tx := s.tx.write k (v.extractLsb' 0 8) }
  | .rx k => .next (writeRx k v s)

/-- `MemRead(off, 4)` (R46): 0 where the window holds no register (R15, R54). -/
def memRead (off : BitVec 12) (s : State) : Word :=
  match regAt off.toNat with
  | some r => readReg s r
  | none => 0

/-- `MemWrite(off, 4, v)` (R46): no effect where the window holds no register. -/
def memWrite (off : BitVec 12) (v : Word) (s : State) : Result :=
  match regAt off.toNat with
  | some r => writeReg v s r
  | none => .next s

end Sys2Proof.Machine
end

