-- ==== Sys2Proof/Machine/Serve.lean ====
section
/-!
DEFINITION. One step of one agent (spec/00_scope.md R5; spec/60_exceptions.md R107, R121): what each event of `State.inputs` does.
-/
namespace Sys2Proof.Machine

/-- The effect of one event. An illegal host access changes nothing and faults the run (R47). -/
def act (e : Event) (s : State) : Result :=
  match e with
  | .hostRead width off => if legalAccess width off then .next { s with hostData := some (memRead off s) } else .fault .hostError
  | .hostWrite width off v => if legalAccess width off then memWrite off v s else .fault .hostError
  | .tick => onTick s
  | .writeOk => onWriteOk s
  | .writeErr => onWriteErr s
  | .readOk bytes => onReadOk bytes s
  | .readErr => onReadErr s
  | .reset => .next (applyReset s)
  | .secondMaster => .refused .secondMaster
  | .peerStarts => if s.peerBusy then .refused .twoTransactionsOnBus else .next { s with peerBusy := true }
  | .peerEnds => .next { s with peerBusy := false }

/-- A run with two transactions in flight on one bus is refused (R121). -/
def guardBus (r : Result) : Result :=
  match r with
  | .next s => if s.busy && s.peerBusy then .refused .twoTransactionsOnBus else .next s
  | .fault f => .fault f
  | .refused f => .refused f

/-- Serve one event. -/
def serve (e : Event) (s : State) : Result := guardBus (act e s)

/-- The event of a host write of a command word to CMD (R23). -/
def cmdWrite (v : Word) : Event := .hostWrite .w32 0x00C v

end Sys2Proof.Machine
end

