-- ==== Sys2Proof/Machine/Step.lean ====
section
/-!
DEFINITION. The step of the machine: the oldest event of `State.inputs` is served; where none is left, no agent acts and the state stays
(log entries 1 and 2). SENSIF has no program counter and fetches nothing (spec/10_state.md R42).
-/
namespace Sys2Proof.Machine

def step (s : State) : Host.Outcome State Fault Refusal :=
  match s.inputs with
  | [] => .next s
  | e :: rest => serve e { s with inputs := rest }

/-- The host's next act is the CMD write of the word `w`, and the block is free to accept it: IDLE, nothing pending, and no other instance on
the bus (R23, R121; log entry 3). -/
def State.withFetchWord (s : State) (nbits w : Nat) : State :=
  { s with
    inputs := cmdWrite (BitVec.ofNat 32 (w % 2 ^ nbits)) :: s.inputs
    phase := .idle
    pend := .none
    scnt := 0
    peerBusy := false }

end Sys2Proof.Machine
end

