-- ==== Sys2Proof/Machine/HostProgram.lean ====
section
/-!
DEFINITION. The host assembly of spec/30_encoding.md R68: the accesses each line of a host program expands to, and HOST as the agent that makes
them one at a time, with the loop of `wait` and `run`, which reads STATUS until DONE is 1 (spec/70_reset_and_hazards.md R129 bounds it).
-/
namespace Sys2Proof.Machine

/-- A line of a host program (R68). `wait none` and `run i none` are the lines of R68, whose loop has no bound of its own; `wait (some n)` and
`run i (some n)` are the same lines under the bound R129 asks of a host: n reads of STATUS after the first (log entry 23). `cmd` and `run` take a
command, R68's `<syntax of rule R67>`, and no raw word: the line `cmd 0x00000015` of spec/95_test_vectors.md P1 is written `wr CMD, 0x00000015`
(DESIGN CHOICE, log entry 28). -/
inductive HostOp where
  | wr (r : Reg) (v : Word)
  | rd (r : Reg)
  | cmd (i : Instr)
  | wait (bound : Option Nat)
  | ack
  | clrsticky
  | run (i : Instr) (bound : Option Nat)
  deriving DecidableEq, Repr

/-- What a line expands to: an access of the window, or the loop `repeat rd STATUS until bit 1 (DONE) is 1`, with the reads it may still make
after the next one, or none where the loop has no bound. -/
inductive HostAccess where
  | wr (r : Reg) (v : Word)
  | rd (r : Reg)
  | poll (bound : Option Nat)
  deriving DecidableEq, Repr

/-- A line that names a register: TX[k] or RX[k] for a k beyond the buffer is no register name of R15, and so an assembly error. The spec names no
error for it; this is the model's choice (DESIGN CHOICE, log entry 27). -/
def namedAccess (r : Reg) (a : HostAccess) : Option (List HostAccess) := if r.exists then some [a] else none

/-- The accesses a line expands to (R68), or none where it does not assemble (R67; log entry 27). -/
def HostOp.accesses : HostOp → Option (List HostAccess)
  | .wr r v => namedAccess r (.wr r v)
  | .rd r => namedAccess r (.rd r)
  | .cmd i => (assemble i).map fun w => [.wr .cmd w]
  | .wait bound => some [.poll bound]
  | .ack => some [.wr .status 0x00000002]
  | .clrsticky => some [.wr .status 0x00000600]
  | .run i bound => (assemble i).map fun w => [.wr .cmd w, .poll bound]

/-- The accesses of a whole program, or none where a line of it does not assemble. -/
def assembleProgram : List HostOp → Option (List HostAccess)
  | [] => some []
  | line :: lines => line.accesses.bind fun now => (assembleProgram lines).map fun later => now ++ later

/-- `MemRead(offset of NAME, 4)`. -/
def readOf (r : Reg) : Event := .hostRead .w32 (BitVec.ofNat 12 r.offset)

/-- `MemWrite(offset of NAME, 4, VALUE)`. -/
def writeOf (r : Reg) (v : Word) : Event := .hostWrite .w32 (BitVec.ofNat 12 r.offset) v

/-- The event of HOST's next act in an access; for the loop, its next read of STATUS. -/
def HostAccess.event : HostAccess → Event
  | .wr r v => writeOf r v
  | .rd r => readOf r
  | .poll _ => readOf .status

/-- A host program under way: the machine, the accesses still to make, and whether a bounded wait has expired. -/
structure HostRun where
  machine : State
  program : List HostAccess
  timedOut : Bool
  deriving DecidableEq, Repr

/-- DONE, bit 1 of the word the host has just read. -/
def sawDone (s : State) : Bool := s.hostData.any fun w => w.getLsbD 1

/-- The run after HOST has made its act in `a`, with `rest` to follow. A loop is left exactly where the STATUS just read has DONE = 1; where it has
not, the loop goes on, or, its bound used up, the host gives the program up and reports a timeout (R68, R129). -/
def HostRun.after (a : HostAccess) (rest : List HostAccess) (timedOut : Bool) (s : State) : HostRun :=
  match a with
  | .wr _ _ => ⟨s, rest, timedOut⟩
  | .rd _ => ⟨s, rest, timedOut⟩
  | .poll bound =>
    if sawDone s then ⟨s, rest, timedOut⟩
    else match bound with
      | none => ⟨s, .poll none :: rest, timedOut⟩
      | some (n + 1) => ⟨s, .poll (some n) :: rest, timedOut⟩
      | some 0 => ⟨s, [], true⟩

/-- What a step of the machine, answered, makes of the run. -/
def continueWith (f : State → HostRun) : Result → Host.Outcome HostRun Fault Refusal
  | .next s => .next (f s)
  | .fault r => .fault r
  | .refused r => .refused r

/-- HOST's turn: the next act of its program, in program order (R56), served before the events still to come. A finished program acts no more. -/
def HostRun.hostTurn (r : HostRun) : Host.Outcome HostRun Fault Refusal :=
  match r.program with
  | [] => .next r
  | a :: rest =>
    continueWith (HostRun.after a rest r.timedOut) (step { r.machine with inputs := a.event :: r.machine.inputs })

/-- Another agent's turn: the machine serves the oldest of its events. -/
def HostRun.otherTurn (r : HostRun) : Host.Outcome HostRun Fault Refusal :=
  continueWith (fun s => { r with machine := s }) (step r.machine)

/-- Whose turn it is. R107 leaves the order of the agents open, so a run is given one (log entry 23). -/
inductive Turn where
  | host
  | other
  deriving DecidableEq, Repr

/-- One turn. -/
def HostRun.turn (r : HostRun) : Turn → Host.Outcome HostRun Fault Refusal
  | .host => r.hostTurn
  | .other => r.otherTurn

/-- The turns of a run, one after the other, up to the first fault or refusal. -/
def HostRun.turns (r : HostRun) : List Turn → Host.Outcome HostRun Fault Refusal
  | [] => .next r
  | t :: ts =>
    match r.turn t with
    | .next r' => r'.turns ts
    | .fault f => .fault f
    | .refused f => .refused f

end Sys2Proof.Machine
end

