-- ==== Sys2Proof/Safety.lean ====
section
/-!
DEFINITION. What claims about SENSIF are stated in: what one state leaves of another, how a command ends, the invariants, and the end of a
run with its observation (spec/70_reset_and_hazards.md R138).
-/
namespace Sys2Proof.Machine

/-! ### What is unchanged -/

/-- The registers that the host writes and no command writes: CTRL, DEVADDR, OPCODE, SETTLE, RDREG, ARG0, ARG1 and the constants. -/
structure SameSetup (s t : State) : Prop where
  chkcrc : t.chkcrc = s.chkcrc
  crcfatal : t.crcfatal = s.crcfatal
  ie : t.ie = s.ie
  addr : t.addr = s.addr
  lock : t.lock = s.lock
  opcode : t.opcode = s.opcode
  settle : t.settle = s.settle
  rdreg : t.rdreg = s.rdreg
  arg0 : t.arg0 = s.arg0
  arg1 : t.arg1 = s.arg1
  tMin : t.tMin = s.tMin
  tSpan : t.tSpan = s.tSpan
  rhMin : t.rhMin = s.rhMin
  rhSpan : t.rhSpan = s.rhSpan
  rhFloor : t.rhFloor = s.rhFloor
  betaW : t.betaW = s.betaW
  lambdaW : t.lambdaW = s.lambdaW
  betaI : t.betaI = s.betaI
  lambdaI : t.lambdaI = s.lambdaI

/-- The record of the last validation: WFAIL, FAILCNT, CRCWARN (R71). -/
structure SameRecord (s t : State) : Prop where
  wfail : t.wfail = s.wfail
  failcnt : t.failcnt = s.failcnt
  crcwarn : t.crcwarn = s.crcwarn

/-- The sticky bits OVR and CFGERR (R20). -/
structure SameSticky (s t : State) : Prop where
  ovr : t.ovr = s.ovr
  cfgerr : t.cfgerr = s.cfgerr

/-- The environment's fields, but for the events still to come. -/
structure SameEnvironment (s t : State) : Prop where
  requests : t.requests = s.requests
  hostData : t.hostData = s.hostData
  peerBusy : t.peerBusy = s.peerBusy

/-- Every byte of TX reads as before. -/
def SameTx (s t : State) : Prop := ∀ k, t.tx.read k = s.tx.read k

/-- Every byte of RX reads as before. -/
def SameRx (s t : State) : Prop := ∀ k, t.rx.read k = s.rx.read k

/-! ### How a command ends -/

/-- The command has ended with code `e` (R109): ERR, DONE, phase IDLE, nothing pending, counter 0. -/
structure EndedWith (e : ErrCode) (t : State) : Prop where
  err : t.err = e
  done : t.done = true
  phase : t.phase = .idle
  pend : t.pend = .none
  scnt : t.scnt = 0

/-- `t` is `s` after a command that ended with code `e`, but for RESULT, TX and the record of the last validation: everything else is
unchanged, every byte of RX too. -/
structure EndedCommon (e : ErrCode) (s t : State) : Prop where
  ended : EndedWith e t
  setup : SameSetup s t
  sticky : SameSticky s t
  environment : SameEnvironment s t
  inputs : t.inputs = s.inputs
  xs : t.xs = s.xs
  rx : SameRx s t

/-- The same for a command that wrote RESULT at most: the record and every byte of TX are unchanged too. -/
structure EndedFrame (e : ErrCode) (s t : State) : Prop where
  common : EndedCommon e s t
  record : SameRecord s t
  tx : SameTx s t

/-- The same for a command that was refused with code `e`: RESULT is unchanged too. -/
structure RefusedFrame (e : ErrCode) (s t : State) : Prop where
  frame : EndedFrame e s t
  result : t.result = s.result

/-! ### Invariants -/

/-- The memories keep their canonical form (log entry 15). -/
def BuffersCanonical (s : State) : Prop := s.tx.wf ∧ s.rx.wf

/-- The pending request a phase has (R40). -/
def pendingOf : Phase → Pending
  | .write => .wr
  | .read => .rd
  | _ => .none

/-- The controller is in step with itself: `pend` is what `phase` says (R40), the counter is 0 outside SETTLE (R32) and lies between 1
and XS.settle + 1 in it (R94), and in a transaction a snapshot is held (R38), DEVADDR is locked (R90) and DONE is 0 (R108). -/
structure ControllerInv (s : State) : Prop where
  pend : s.pend = pendingOf s.phase
  scnt_outside : s.phase ≠ .settle → s.scnt = 0
  scnt_inside : s.phase = .settle → s.scnt ≠ 0 ∧ ∀ x, s.xs = some x → s.scnt.toNat ≤ x.settle.toNat + 1
  held : s.phase ≠ .idle → s.xs.isSome = true
  locked : s.phase ≠ .idle → s.lock = true
  notDone : s.phase ≠ .idle → s.done = false

/-- A snapshot obeys the acceptance checks (R90). -/
structure Snapshot.Accepted (x : Snapshot) : Prop where
  rxlen : x.rxlen.toNat ≤ Config.rxBufSize
  payload : x.payload.length ≤ Config.txBufSize
  whole : x.chk = true → x.rxlen.toNat % 3 = 0

/-- No buffer lists an index it does not have, and a held snapshot obeys the acceptance checks (R36, R37, R90). -/
structure BuffersBounded (s : State) : Prop where
  tx : ∀ c ∈ s.tx, c.1 < Config.txBufSize
  rx : ∀ c ∈ s.rx, c.1 < Config.rxBufSize
  xs : ∀ x, s.xs = some x → x.Accepted

/-- How many of the first `n` bits of a word are set. -/
def bitsSet (v : Word) : Nat → Nat
  | 0 => 0
  | n + 1 => if v.getLsbD n then bitsSet v n + 1 else bitsSet v n

/-- The registers hold legal values: RH_FLOOR is never 0 (R35), and the record of the last validation agrees with itself (R20, R31, R71): no
bit of WFAIL beyond NWORDS, FAILCNT the number of bits set in it, CRCWARN 1 where that is not 0. With it, that a held snapshot reads at most
RXBUF_SIZE bytes. -/
structure RegistersLegal (s : State) : Prop where
  floor : s.rhFloor ≠ 0
  high : ∀ i, Config.nWords ≤ i → s.wfail.getLsbD i = false
  count : s.failcnt.toNat = bitsSet s.wfail Config.nWords
  warn : s.crcwarn = decide (s.failcnt ≠ 0)
  xs : ∀ x, s.xs = some x → x.rxlen.toNat ≤ Config.rxBufSize

/-! ### The environment -/

/-- The event is a legal host access (R46). -/
def Event.isLegalHost : Event → Bool
  | .hostRead width off => legalAccess width off
  | .hostWrite width off _ => legalAccess width off
  | _ => false

/-- The event is an access of HOST. -/
def Event.isHost : Event → Bool
  | .hostRead _ _ => true
  | .hostWrite _ _ _ => true
  | _ => false

/-- The event is an answer of TRANSPORT (R89). -/
def Event.isAnswer : Event → Bool
  | .writeOk => true
  | .writeErr => true
  | .readOk _ => true
  | .readErr => true
  | _ => false

/-- No access of HOST is still to come among the events, and no transaction runs: phase = IDLE and pend = NONE (R138). -/
def State.runOver (s : State) : Bool := !s.inputs.any Event.isHost && decide (s.phase = .idle) && decide (s.pend = .none)

/-- The run of a host program is over (R138): the host has made the last access of its program, and no transaction runs. -/
def HostRun.over (r : HostRun) : Bool := r.program.isEmpty && r.machine.runOver

/-- The host-visible register state (R15, R138): every register of the map, in the order of the map. -/
def State.visible (s : State) : List Word :=
  (plainRegs ++ (List.range Config.txBufSize).map Reg.tx ++ (List.range Config.rxBufSize).map Reg.rx).map (readReg s)

/-- The observation at the end of a run (R138). -/
def State.observation (s : State) : List Word × List Request := (s.visible, s.requests)

end Sys2Proof.Machine
end

