-- ==== Sys2Proof/Certificates/Slice0/Obligations.lean ====
section
/-!
DEFINITION. What this model claims, for the provers. Each statement's docstring names the rules of spec/ it comes from and, where it rests on
a choice of the model, the log entry.
-/
open Sys2Proof Sys2Proof.Machine

/-! ### Encoding (30_encoding.md) -/

/-- Decoding the word of a well-formed command gives the command back (R62, R63, R64, R67). -/
def Obligations.DecodeOfEncodeIsIdentity : Prop :=
  ∀ i : Instr, i.wellFormed = true → decode (encode i) = .ok i

/-- A word that decodes is the word of the well-formed command it decodes to: no bit of an accepted word is dropped (R62, R63). -/
def Obligations.EncodeOfDecodeIsIdentity : Prop :=
  ∀ (v : Word) (i : Instr), decode v = .ok i → i.wellFormed = true ∧ encode i = v

/-- A word decodes exactly where it selects a row `(match, mask)` of the opcode map, and no word selects two rows (R63, R66). -/
def Obligations.DecodeAcceptsExactlyTheRows : Prop :=
  ∀ v : Word, ((∃ i, decode v = .ok i) ↔ ∃ row ∈ opcodeRows, v &&& row.2 = row.1)
    ∧ ∀ row ∈ opcodeRows, ∀ row' ∈ opcodeRows, v &&& row.2 = row.1 → v &&& row'.2 = row'.1 → row = row'

/-- Words written out from the rules decode to the commands they stand for (R63, R67; 95_test_vectors.md V1). A sanity statement. -/
def Obligations.WrittenWordsDecode : Prop :=
  decode 0x00000010 = .ok .crcw ∧ decode 0x02000112 = .ok (.crcb .rx 0 2) ∧ decode 0xFF000013 = .ok (.crcval 255)
    ∧ decode 0x00030014 = .ok (.txpack 3) ∧ decode 0x00000023 = .ok .dewpt ∧ decode 0x00030130 = .ok (.xfer .two 3 0)
    ∧ decode 0x06000030 = .ok (.xfer .one 0 6) ∧ decode 0x00000110 = .error .nonzeroField ∧ decode 0x00000015 = .error .unlistedOp

/-- The assembler (R67), row by row of its table: a command with an operand outside 0..255 is an assembly error, and any other assembles to its
word, as a number. -/
def Obligations.AssemblerGivesTheWords : Prop :=
  assemble .crcw = some 0x00000010 ∧ assemble .crcv = some 0x00000011
  ∧ assemble .cvtt = some 0x00000020 ∧ assemble .cvtrh = some 0x00000021 ∧ assemble .rhice = some 0x00000022 ∧ assemble .dewpt = some 0x00000023
  ∧ (∀ start count : Nat,
      assemble (.crcb .tx start count) = (if start ≤ 255 ∧ count ≤ 255 then some (BitVec.ofNat 32 (count * 2 ^ 24 + start * 2 ^ 16 + 0x012)) else none)
      ∧ assemble (.crcb .rx start count) = (if start ≤ 255 ∧ count ≤ 255 then some (BitVec.ofNat 32 (count * 2 ^ 24 + start * 2 ^ 16 + 0x112)) else none))
  ∧ (∀ len : Nat, assemble (.crcval len) = (if len ≤ 255 then some (BitVec.ofNat 32 (len * 2 ^ 24 + 0x13)) else none))
  ∧ (∀ idx : Nat, assemble (.txpack idx) = (if idx ≤ 255 then some (BitVec.ofNat 32 (idx * 2 ^ 16 + 0x14)) else none))
  ∧ (∀ txlen rxlen : Nat,
      assemble (.xfer .one txlen rxlen) = (if txlen ≤ 255 ∧ rxlen ≤ 255 then some (BitVec.ofNat 32 (rxlen * 2 ^ 24 + txlen * 2 ^ 16 + 0x030)) else none)
      ∧ assemble (.xfer .two txlen rxlen) = (if txlen ≤ 255 ∧ rxlen ≤ 255 then some (BitVec.ofNat 32 (rxlen * 2 ^ 24 + txlen * 2 ^ 16 + 0x130)) else none))

/-! ### The step and the host window (10_state.md, 20_memory.md, 60_exceptions.md) -/

/-- Where the next event is the CMD write of a word that decodes and BUSY is 0, the step is the command's own rule on the state with DONE
cleared and the event taken (R23, R65, R108), under the guard that refuses two transactions on one bus (R121). -/
def Obligations.StepRunsTheDecodedCommand : Prop :=
  ∀ (s : State) (rest : List Event) (v : Word) (i : Instr), s.inputs = .hostWrite .w32 0x00C v :: rest → s.phase = .idle → decode v = .ok i →
    step s = guardBus (exec i { s with inputs := rest, done := false })

/-- A word that selects no row (R66): written while BUSY = 0 it ends at once with BADCMD and DONE, and no other state changes; written while
BUSY = 1 it is dropped. -/
def Obligations.IllegalWordIsBadcmd : Prop :=
  ∀ (s : State) (rest : List Event) (v : Word), s.inputs = .hostWrite .w32 0x00C v :: rest → (∀ row ∈ opcodeRows, v &&& row.2 ≠ row.1) →
    ControllerInv s → (s.phase ≠ .idle → s.peerBusy = false) →
    step s = .next (if s.phase = .idle then { s with inputs := rest, done := true, err := .badcmd } else { s with inputs := rest, ovr := true })

/-- A CMD write while BUSY = 1 is dropped: OVR is set, and nothing else changes (R111); and OVR stays 1 until the host writes 1 to STATUS
bit 9 or reset. -/
def Obligations.CommandWhileBusyIsDropped : Prop :=
  (∀ (s : State) (rest : List Event) (v : Word), s.inputs = .hostWrite .w32 0x00C v :: rest → s.phase ≠ .idle → s.peerBusy = false →
    step s = .next { s with inputs := rest, ovr := true })
  ∧ (∀ (s t : State) (e : Event) (rest : List Event), s.inputs = e :: rest → step s = .next t → s.ovr = true → t.ovr = false →
    e = .reset ∨ ∃ v : Word, e = .hostWrite .w32 0x008 v ∧ v.getLsbD 9 = true)

/-- A host access of width 8 or 16, or at an offset that is not a multiple of 4, faults the run (R47). -/
def Obligations.IllegalAccessFaults : Prop :=
  ∀ (s : State) (rest : List Event) (width : Width) (off : BitVec 12) (v : Word), (width ≠ .w32 ∨ off.toNat % 4 ≠ 0) →
    (s.inputs = .hostRead width off :: rest → step s = .fault .hostError)
    ∧ (s.inputs = .hostWrite width off v :: rest → step s = .fault .hostError)

/-- A legal read gives the host the value at the offset and changes nothing else (R46, R52). Where the value is held is the model's choice
(log entry 4). -/
def Obligations.ReadsHaveNoSideEffect : Prop :=
  ∀ (s : State) (rest : List Event) (off : BitVec 12), off.toNat % 4 = 0 → s.inputs = .hostRead .w32 off :: rest →
    (s.phase ≠ .idle → s.peerBusy = false) →
    step s = .next { s with inputs := rest, hostData := some (memRead off s) }

/-- Every register of the map sits at its offset of R15, is read and written there, and no two registers of the map share one (R15, R46). DEVADDR
reads as LOCK in bit 31 and ADDR in bits 6:0, the rest 0 (R24); RESULT, WFAIL and SCNT read at 0x028, 0x02C and 0x030 (R30, R31, R32). -/
def Obligations.RegisterMapIsFaithful : Prop :=
  (∀ p ∈ [(Reg.ident, 0x000), (.ctrl, 0x004), (.status, 0x008), (.cmd, 0x00C), (.devaddr, 0x010), (.opcode, 0x014), (.settle, 0x018),
      (.rdreg, 0x01C), (.arg0, 0x020), (.arg1, 0x024), (.result, 0x028), (.wfail, 0x02C), (.scnt, 0x030), (.tMin, 0x040), (.tSpan, 0x044),
      (.rhMin, 0x048), (.rhSpan, 0x04C), (.rhFloor, 0x050), (.betaW, 0x054), (.lambdaW, 0x058), (.betaI, 0x05C), (.lambdaI, 0x060)],
      p.1.offset = p.2)
  ∧ (∀ k, (Reg.tx k).offset = 0x100 + 4 * k ∧ (Reg.rx k).offset = 0x200 + 4 * k)
  ∧ (∀ r : Reg, r.exists = true →
    (∀ s : State, memRead (BitVec.ofNat 12 r.offset) s = readReg s r)
    ∧ (∀ (s : State) (v : Word), memWrite (BitVec.ofNat 12 r.offset) v s = writeReg v s r)
    ∧ (∀ r' : Reg, r'.exists = true → r'.offset = r.offset → r' = r))
  ∧ ∀ s : State, (memRead 0x010 s).toNat = (if s.lock then 2 ^ 31 else 0) + s.addr.toNat
    ∧ memRead 0x028 s = s.result ∧ memRead 0x02C s = s.wfail ∧ (memRead 0x030 s).toNat = s.scnt.toNat

/-- A host write of v to OPCODE or SETTLE stores v[15:0], to RDREG v[7:0], to ARG0 or ARG1 all of v, at any time, and changes nothing else; each
reads back what it holds, the bits above 0 (R15, R16, R26, R27, R28, R29). -/
def Obligations.OperandRegistersStoreAndReadBack : Prop :=
  ∀ (s : State) (rest : List Event) (v : Word), (s.phase ≠ .idle → s.peerBusy = false) →
    (s.inputs = .hostWrite .w32 0x014 v :: rest →
      ∃ t, step s = .next t ∧ t = { s with inputs := rest, opcode := BitVec.ofNat 16 v.toNat } ∧ (memRead 0x014 t).toNat = v.toNat % 2 ^ 16)
    ∧ (s.inputs = .hostWrite .w32 0x018 v :: rest →
      ∃ t, step s = .next t ∧ t = { s with inputs := rest, settle := BitVec.ofNat 16 v.toNat } ∧ (memRead 0x018 t).toNat = v.toNat % 2 ^ 16)
    ∧ (s.inputs = .hostWrite .w32 0x01C v :: rest →
      ∃ t, step s = .next t ∧ t = { s with inputs := rest, rdreg := BitVec.ofNat 8 v.toNat } ∧ (memRead 0x01C t).toNat = v.toNat % 2 ^ 8)
    ∧ (s.inputs = .hostWrite .w32 0x020 v :: rest →
      ∃ t, step s = .next t ∧ t = { s with inputs := rest, arg0 := v } ∧ memRead 0x020 t = v)
    ∧ (s.inputs = .hostWrite .w32 0x024 v :: rest →
      ∃ t, step s = .next t ∧ t = { s with inputs := rest, arg1 := v } ∧ memRead 0x024 t = v)

/-- STATUS reads as the fields of R20 at their places: bit 0 BUSY, bit 1 DONE, bits 3:2 PHASE, bits 7:4 ERR, bits 8, 9, 10 CRCWARN, OVR and
CFGERR, bits 20:16 FAILCNT, the rest 0. -/
def Obligations.StatusWordHasTheLayout : Prop :=
  ∀ s : State, (memRead 0x008 s).toNat =
    (if s.phase = .idle then 0 else 1) + (if s.done then 2 else 0)
      + 4 * (match s.phase with | .idle => 0 | .write => 1 | .settle => 2 | .read => 3)
      + 16 * (match s.err with | .none => 0 | .badcmd => 1 | .badlen => 2 | .noaddr => 3 | .buswr => 4 | .busrd => 5 | .crc => 6 | .domain => 7)
      + (if s.crcwarn then 256 else 0) + (if s.ovr then 512 else 0) + (if s.cfgerr then 1024 else 0) + 65536 * s.failcnt.toNat

/-- A host write of v to STATUS clears DONE where v[1] = 1, OVR where v[9] = 1, CFGERR where v[10] = 1, and changes nothing else (R22). -/
def Obligations.StatusWriteClearsNamedBits : Prop :=
  ∀ (s : State) (rest : List Event) (v : Word), s.inputs = .hostWrite .w32 0x008 v :: rest → (s.phase ≠ .idle → s.peerBusy = false) →
    step s = .next { s with
      inputs := rest
      done := s.done && !v.getLsbD 1
      ovr := s.ovr && !v.getLsbD 9
      cfgerr := s.cfgerr && !v.getLsbD 10 }

/-- A host write of v to DEVADDR stores ADDR and locks where LOCK = 0 and v[30:7] = 0, else it sets CFGERR and leaves DEVADDR (R25); and
only reset clears LOCK or changes a locked address. -/
def Obligations.DevaddrIsWrittenOnce : Prop :=
  (∀ (s : State) (rest : List Event) (v : Word), s.inputs = .hostWrite .w32 0x010 v :: rest → (s.phase ≠ .idle → s.peerBusy = false) →
    step s = .next (if s.lock = false ∧ v.toNat / 2 ^ 7 % 2 ^ 24 = 0
      then { s with inputs := rest, addr := BitVec.ofNat 7 (v.toNat % 2 ^ 7), lock := true }
      else { s with inputs := rest, cfgerr := true }))
  ∧ (∀ (s t : State) (e : Event) (rest : List Event), s.inputs = e :: rest → step s = .next t → s.lock = true → e ≠ .reset →
    t.lock = true ∧ t.addr = s.addr)

/-- A host write of v to CTRL stores v[2:0] at once, BUSY or not, changes nothing else, and CTRL reads back v[2:0]; a change of IE acts on IRQ
at once (R18, R19, R115). -/
def Obligations.CtrlWriteStoresThreeBits : Prop :=
  ∀ (s : State) (rest : List Event) (v : Word), s.inputs = .hostWrite .w32 0x004 v :: rest → (s.phase ≠ .idle → s.peerBusy = false) →
    ∃ t, step s = .next t ∧ t = { s with inputs := rest, chkcrc := v.getLsbD 0, crcfatal := v.getLsbD 1, ie := v.getLsbD 2 }
      ∧ (memRead 0x004 t).toNat = v.toNat % 8 ∧ t.irq = (v.getLsbD 2 && s.done)

/-- The conversion constants: T_MIN, T_SPAN, RH_MIN and RH_SPAN follow the s16 access type, the Magnus coefficients the u16 access type, and
RH_FLOOR too but for 0, which it stores as 1; every other offset reads as before (R16, R34, R35). -/
def Obligations.ConstantsReadBack : Prop :=
  (∀ off ∈ [(0x040 : BitVec 12), 0x044, 0x048, 0x04C], ∀ (s : State) (v : Word),
    ∃ t, memWrite off v s = .next t ∧ (memRead off t).toInt = (BitVec.ofNat 16 (v.toNat % 2 ^ 16)).toInt
      ∧ ∀ off' : BitVec 12, off' ≠ off → memRead off' t = memRead off' s)
  ∧ (∀ off ∈ [(0x050 : BitVec 12), 0x054, 0x058, 0x05C, 0x060], ∀ (s : State) (v : Word),
    ∃ t, memWrite off v s = .next t
      ∧ (memRead off t).toNat = (if off = 0x050 ∧ v.toNat % 2 ^ 16 = 0 then 1 else v.toNat % 2 ^ 16)
      ∧ ∀ off' : BitVec 12, off' ≠ off → memRead off' t = memRead off' s)

/-- TX[k] takes v[7:0] at any time, RX[k] takes it only while BUSY = 0; every other register reads as before (R36, R37). -/
def Obligations.BufferWritesStoreOneByte : Prop :=
  (∀ (k : Nat) (s : State) (v : Word), k < Config.txBufSize →
    ∃ t, memWrite (BitVec.ofNat 12 (0x100 + 4 * k)) v s = .next t
      ∧ (memRead (BitVec.ofNat 12 (0x100 + 4 * k)) t).toNat = v.toNat % 256
      ∧ ∀ off : BitVec 12, off.toNat ≠ 0x100 + 4 * k → off.toNat % 4 = 0 → memRead off t = memRead off s)
  ∧ (∀ (k : Nat) (s : State) (v : Word), k < Config.rxBufSize →
    ∃ t, memWrite (BitVec.ofNat 12 (0x200 + 4 * k)) v s = .next t
      ∧ (s.phase = .idle → (memRead (BitVec.ofNat 12 (0x200 + 4 * k)) t).toNat = v.toNat % 256)
      ∧ (s.phase ≠ .idle → t = s)
      ∧ ∀ off : BitVec 12, off.toNat ≠ 0x200 + 4 * k → off.toNat % 4 = 0 → memRead off t = memRead off s)

/-- Writes to IDENT, RESULT, WFAIL and SCNT are ignored, IDENT reads its constant and CMD reads 0 (R16, R17, R23); the offsets that hold no
register read 0 and ignore writes (R15, R46, R54). -/
def Obligations.ReadOnlyAndUnmappedOffsets : Prop :=
  ∀ s : State, memRead 0x000 s = 0x53454E01 ∧ memRead 0x00C s = 0
    ∧ (∀ off ∈ [(0x000 : BitVec 12), 0x028, 0x02C, 0x030], ∀ v : Word, memWrite off v s = .next s)
    ∧ ∀ (off : BitVec 12) (v : Word), off.toNat % 4 = 0 →
      ((0x034 ≤ off.toNat ∧ off.toNat ≤ 0x03C) ∨ (0x064 ≤ off.toNat ∧ off.toNat ≤ 0x0FC)
        ∨ (0x100 + 4 * Config.txBufSize ≤ off.toNat ∧ off.toNat ≤ 0x1FC) ∨ (0x200 + 4 * Config.rxBufSize ≤ off.toNat ∧ off.toNat ≤ 0xFFC)) →
      memRead off s = 0 ∧ memWrite off v s = .next s

/-! ### Checksum family (40_crc.md) -/

/-- `crc8` is the register of R69: 0xFF before the first byte, and for each byte an XOR and eight shifts, each with an XOR of 0x31 where the bit
shifted out was 1; nothing after the last. And `verify` accepts every word with its own checksum and rejects every single-bit change of the data
or of the checksum (R77). -/
def Obligations.CrcDetectsSingleBitFlips : Prop :=
  crc8 [] = 0xFF
  ∧ (∀ (bs : List Byte) (b : Byte), crc8 (bs ++ [b]) =
      (fun r : Byte => if 128 ≤ r.toNat then BitVec.ofNat 8 (2 * r.toNat) ^^^ 0x31 else BitVec.ofNat 8 (2 * r.toNat))^[8] (crc8 bs ^^^ b))
  ∧ crc8 [0xBE, 0xEF] = 0x92
  ∧ ∀ b0 b1 : Byte, verify b0 b1 (crc8 [b0, b1]) = true
    ∧ ∀ i : Nat, i < 8 →
      verify (b0 ^^^ BitVec.twoPow 8 i) b1 (crc8 [b0, b1]) = false
      ∧ verify b0 (b1 ^^^ BitVec.twoPow 8 i) (crc8 [b0, b1]) = false
      ∧ verify b0 b1 (crc8 [b0, b1] ^^^ BitVec.twoPow 8 i) = false

/-- CRCW completes in every state: RESULT is the checksum of ARG0[15:8], ARG0[7:0], ARG0[31:16] ignored, RESULT[31:8] 0, and nothing else but
STATUS changes (R72, R109). -/
def Obligations.CrcwWritesTheChecksum : Prop :=
  ∀ s : State, ∃ t, exec .crcw s = .next t ∧ EndedFrame .none s t
    ∧ t.result.toNat = (crc8 [BitVec.ofNat 8 (s.arg0.toNat / 2 ^ 8), BitVec.ofNat 8 s.arg0.toNat]).toNat

/-- CRCV completes in every state: RESULT is 1 where ARG0[7:0] is the checksum of ARG0[23:16], ARG0[15:8] and 0 otherwise, and the record of
the last validation is unchanged (R73). -/
def Obligations.CrcvWritesTheVerdict : Prop :=
  ∀ s : State, ∃ t, exec .crcv s = .next t ∧ EndedFrame .none s t
    ∧ t.result = if crc8 [BitVec.ofNat 8 (s.arg0.toNat / 2 ^ 16), BitVec.ofNat 8 (s.arg0.toNat / 2 ^ 8)] = BitVec.ofNat 8 s.arg0.toNat then 1 else 0

/-- CRCB (R74): where START + COUNT stays within the buffer, RESULT is the checksum of its bytes START to START + COUNT − 1; where it does
not, the command ends with BADLEN and RESULT is unchanged. -/
def Obligations.CrcbWritesTheRangeChecksum : Prop :=
  ∀ (start count : Nat) (s : State),
    (∃ t, exec (.crcb .tx start count) s = .next t
      ∧ (start + count ≤ Config.txBufSize →
          EndedFrame .none s t ∧ t.result.toNat = (crc8 ((List.range count).map fun k => s.tx.read (start + k))).toNat)
      ∧ (Config.txBufSize < start + count → RefusedFrame .badlen s t))
    ∧ ∃ t, exec (.crcb .rx start count) s = .next t
      ∧ (start + count ≤ Config.rxBufSize →
          EndedFrame .none s t ∧ t.result.toNat = (crc8 ((List.range count).map fun k => s.rx.read (start + k))).toNat)
      ∧ (Config.rxBufSize < start + count → RefusedFrame .badlen s t)

/-- CRCVAL (R75, R71): LEN over RXBUF_SIZE or not a multiple of 3 ends with BADLEN and changes nothing; else WFAIL has bit i exactly for the
failed words, FAILCNT is their number, CRCWARN says whether there is one, and ERR is CRC exactly where one failed and CTRL.CRCFATAL = 1.
CTRL.CHKCRC does not matter. -/
def Obligations.CrcvalValidatesRx : Prop :=
  ∀ (len : Nat) (s : State),
    ∃ t, exec (.crcval len) s = .next t
      ∧ ((Config.rxBufSize < len ∨ len % 3 ≠ 0) → RefusedFrame .badlen s t)
      ∧ (len ≤ Config.rxBufSize → len % 3 = 0 →
          (∀ i, t.wfail.getLsbD i = (decide (i < len / 3) && !verify (s.rx.read (3 * i)) (s.rx.read (3 * i + 1)) (s.rx.read (3 * i + 2))))
          ∧ t.failcnt.toNat = bitsSet t.wfail Config.nWords
          ∧ t.crcwarn = decide (t.wfail ≠ 0)
          ∧ EndedCommon (if t.wfail ≠ 0 ∧ s.crcfatal = true then .crc else .none) s t
          ∧ t.result = s.result ∧ SameTx s t)

/-- TXPACK (R76): where IDX + 3 stays within TX, ARG0[15:8], ARG0[7:0] and their checksum go to TX[IDX], TX[IDX+1], TX[IDX+2] and every other
byte is unchanged; else BADLEN and TX unchanged. RESULT is not written. -/
def Obligations.TxpackStoresACheckedWord : Prop :=
  ∀ (idx : Nat) (s : State),
    ∃ t, exec (.txpack idx) s = .next t
      ∧ (Config.txBufSize < idx + 3 → RefusedFrame .badlen s t)
      ∧ (idx + 3 ≤ Config.txBufSize →
          EndedCommon .none s t ∧ SameRecord s t ∧ t.result = s.result
          ∧ t.tx.read idx = BitVec.ofNat 8 (s.arg0.toNat / 2 ^ 8)
          ∧ t.tx.read (idx + 1) = BitVec.ofNat 8 s.arg0.toNat
          ∧ t.tx.read (idx + 2) = crc8 [BitVec.ofNat 8 (s.arg0.toNat / 2 ^ 8), BitVec.ofNat 8 s.arg0.toNat]
          ∧ ∀ k, (k < idx ∨ idx + 3 ≤ k) → t.tx.read k = s.tx.read k)

/-! ### Conversion family (41_conversion.md) -/

/-- CVTT completes in every state with RESULT = T_MIN plus the integer nearest to T_SPAN · raw / 65535 (R12, R78, R83): the result differs
from the exact quotient by less than half a centi-unit. -/
def Obligations.CvttRoundsToNearest : Prop :=
  ∀ s : State, ∃ t, exec .cvtt s = .next t ∧ EndedFrame .none s t
    ∧ 2 * |65535 * (t.result.toInt - s.tMin.toInt) - s.tSpan.toInt * ((s.arg0.toNat % 2 ^ 16 : Nat) : Int)| < 65535

/-- CVTRH completes in every state with RESULT = max(h, RH_FLOOR), where h is RH_MIN plus the integer nearest to RH_SPAN · raw / 65535
(R84): floored after rounding, no upper clamp. -/
def Obligations.CvtrhRoundsThenFloors : Prop :=
  ∀ s : State, ∃ t, exec .cvtrh s = .next t ∧ EndedFrame .none s t
    ∧ ∃ h : Int, 2 * |65535 * (h - s.rhMin.toInt) - s.rhSpan.toInt * ((s.arg0.toNat % 2 ^ 16 : Nat) : Int)| < 65535
      ∧ t.result.toInt = max h (s.rhFloor.toNat : Int)

/-- For fixed constants CVTT and CVTRH are monotonic in the raw code, non-decreasing for a span ≥ 0 and non-increasing for a span ≤ 0
(R83, R84, R87). -/
def Obligations.ConversionIsMonotonic : Prop :=
  ∀ s s' : State, s.arg0.toNat % 2 ^ 16 ≤ s'.arg0.toNat % 2 ^ 16 →
    (s'.tMin = s.tMin → s'.tSpan = s.tSpan → ∃ t t', exec .cvtt s = .next t ∧ exec .cvtt s' = .next t'
      ∧ (0 ≤ s.tSpan.toInt → t.result.toInt ≤ t'.result.toInt) ∧ (s.tSpan.toInt ≤ 0 → t'.result.toInt ≤ t.result.toInt))
    ∧ (s'.rhMin = s.rhMin → s'.rhSpan = s.rhSpan → s'.rhFloor = s.rhFloor → ∃ t t', exec .cvtrh s = .next t ∧ exec .cvtrh s' = .next t'
      ∧ (0 ≤ s.rhSpan.toInt → t.result.toInt ≤ t'.result.toInt) ∧ (s.rhSpan.toInt ≤ 0 → t'.result.toInt ≤ t.result.toInt))

/-- RHICE for t ≥ 0: RESULT is max(rh, RH_FLOOR) (R85). -/
def Obligations.RhicePassesThroughAboveFreezing : Prop :=
  ∀ s : State, 0 ≤ s.arg0.toInt → ∃ t, exec .rhice s = .next t ∧ EndedFrame .none s t
    ∧ t.result.toInt = max s.arg1.toInt (s.rhFloor.toNat : Int)

/-- RHICE for t < 0 (R85, R80, R14): with both λ nonzero and V = rh·exp(β_w·t/λ_w)/exp(β_i·t/λ_i) within s32, RESULT is max(r, RH_FLOOR) for a
faithful neighbour r of V. -/
def Obligations.RhiceIsFaithfulBelowFreezing : Prop :=
  ∀ (s : State) (V : ℝ), s.arg0.toInt < 0 → s.lambdaW ≠ 0 → s.lambdaI ≠ 0 →
    V = (s.arg1.toInt : ℝ) * Real.exp ((s.betaW.toNat : ℝ) * s.arg0.toInt / (100 * s.lambdaW.toNat))
      / Real.exp ((s.betaI.toNat : ℝ) * s.arg0.toInt / (100 * s.lambdaI.toNat)) →
    -2 ^ 31 ≤ ⌊V⌋ → ⌈V⌉ ≤ 2 ^ 31 - 1 →
    ∃ t, exec .rhice s = .next t ∧ EndedFrame .none s t
      ∧ ∃ r : Int, (r = ⌊V⌋ ∨ r = ⌈V⌉) ∧ t.result.toInt = max r (s.rhFloor.toNat : Int)

/-- RHICE for t < 0 with a λ of 0, or with V above the range of s32, ends with DOMAIN and leaves RESULT (R82, R85). That a V below -2^31 (rh negative)
ends so too is the model's choice (log entry 13): it follows R85's pseudocode, while R85's corner sentence says that rh ≤ 0 with t < 0 gives
RESULT = RH_FLOOR. -/
def Obligations.RhiceDomainErrors : Prop :=
  ∀ (s : State) (V : ℝ), s.arg0.toInt < 0 →
    V = (s.arg1.toInt : ℝ) * Real.exp ((s.betaW.toNat : ℝ) * s.arg0.toInt / (100 * s.lambdaW.toNat))
      / Real.exp ((s.betaI.toNat : ℝ) * s.arg0.toInt / (100 * s.lambdaI.toNat)) →
    (s.lambdaW = 0 ∨ s.lambdaI = 0 ∨ ⌊V⌋ < -2 ^ 31 ∨ 2 ^ 31 - 1 < ⌈V⌉) →
    ∃ t, exec .rhice s = .next t ∧ RefusedFrame .domain s t

/-- DEWPT (R86, R81, R80, R14): with rh > 0, l + t ≠ 0, den ≠ 0 and V within s32, RESULT is a faithful neighbour of V. -/
def Obligations.DewptIsFaithful : Prop :=
  ∀ (s : State) (b l : Nat) (c1 c2 den V : ℝ),
    (b, l) = (if 0 ≤ s.arg0.toInt then (s.betaW.toNat, s.lambdaW.toNat) else (s.betaI.toNat, s.lambdaI.toNat)) →
    c1 = (b : ℝ) * s.arg0.toInt / (100 * (l + s.arg0.toInt)) → c2 = Real.log ((s.arg1.toInt : ℝ) / 10000) →
    den = (b : ℝ) / 100 - c2 - c1 → V = l * (c2 + c1) / den →
    0 < s.arg1.toInt → (l : Int) + s.arg0.toInt ≠ 0 → den ≠ 0 → -2 ^ 31 ≤ ⌊V⌋ → ⌈V⌉ ≤ 2 ^ 31 - 1 →
    ∃ t, exec .dewpt s = .next t ∧ EndedFrame .none s t ∧ (t.result.toInt = ⌊V⌋ ∨ t.result.toInt = ⌈V⌉)

/-- DEWPT with rh ≤ 0, l + t = 0, den = 0 or V outside s32 ends with DOMAIN and leaves RESULT (R82, R86). -/
def Obligations.DewptDomainErrors : Prop :=
  ∀ (s : State) (b l : Nat) (c1 c2 den V : ℝ),
    (b, l) = (if 0 ≤ s.arg0.toInt then (s.betaW.toNat, s.lambdaW.toNat) else (s.betaI.toNat, s.lambdaI.toNat)) →
    c1 = (b : ℝ) * s.arg0.toInt / (100 * (l + s.arg0.toInt)) → c2 = Real.log ((s.arg1.toInt : ℝ) / 10000) →
    den = (b : ℝ) / 100 - c2 - c1 → V = l * (c2 + c1) / den →
    (s.arg1.toInt ≤ 0 ∨ (l : Int) + s.arg0.toInt = 0 ∨ den = 0 ∨ ⌊V⌋ < -2 ^ 31 ∨ 2 ^ 31 - 1 < ⌈V⌉) →
    ∃ t, exec .dewpt s = .next t ∧ RefusedFrame .domain s t

/-- At 100 % the dew point is the temperature, and every dew point at or below 100 % is at or below the temperature: for β > 0, λ > 0,
λ + t > 0 and 0 < rh ≤ 10000, DEWPT completes, RESULT ≤ t, and RESULT = t where rh = 10000 (R86, R87). -/
def Obligations.DewPointIsAtMostTemperature : Prop :=
  ∀ s : State, 0 < s.arg1.toInt → s.arg1.toInt ≤ 10000 →
    (0 ≤ s.arg0.toInt → 0 < s.betaW.toNat ∧ 0 < s.lambdaW.toNat ∧ 0 < (s.lambdaW.toNat : Int) + s.arg0.toInt) →
    (s.arg0.toInt < 0 → 0 < s.betaI.toNat ∧ 0 < s.lambdaI.toNat ∧ 0 < (s.lambdaI.toNat : Int) + s.arg0.toInt) →
    ∃ t, exec .dewpt s = .next t ∧ EndedFrame .none s t ∧ t.result.toInt ≤ s.arg0.toInt
      ∧ (s.arg1.toInt = 10000 → t.result.toInt = s.arg0.toInt)

/-- RHICE and DEWPT are functions of their operands and the constant registers only: in two states that agree on these, both end with the same
code, and with the same RESULT where it is written (R14, R87). -/
def Obligations.ConversionsAreDeterministic : Prop :=
  ∀ s s' : State, s'.arg0 = s.arg0 → s'.arg1 = s.arg1 → s'.rhFloor = s.rhFloor → s'.betaW = s.betaW → s'.lambdaW = s.lambdaW →
    s'.betaI = s.betaI → s'.lambdaI = s.lambdaI →
    ∀ i ∈ [Instr.rhice, Instr.dewpt], ∃ t t', exec i s = .next t ∧ exec i s' = .next t' ∧ t'.err = t.err
      ∧ (t.err = .none ∧ t'.result = t.result ∨ t.err = .domain ∧ t.result = s.result ∧ t'.result = s'.result)

/-- No humidity result is 0 or negative: after CVTRH, and after RHICE that ends without error, RESULT ≥ RH_FLOOR (R84, R85, R87). -/
def Obligations.HumidityIsAtLeastTheFloor : Prop :=
  ∀ s t : State, s.rhFloor ≠ 0 → ∀ i ∈ [Instr.cvtrh, Instr.rhice], exec i s = .next t → t.err = .none →
    (s.rhFloor.toNat : Int) ≤ t.result.toInt ∧ 0 < t.result.toInt

/-! ### Transaction family (42_transaction.md) -/

/-- XFER is refused by the first check that fails, in the order of R90: BADLEN for TXLEN, RXLEN and the multiple of 3 under CHKCRC, then
NOADDR; a refused XFER issues no request and changes nothing else (R90, R106, R110). -/
def Obligations.XferRefusalsAreInOrder : Prop :=
  ∀ (opl : OpLen) (txlen rxlen : Nat) (s : State),
    ((Config.txBufSize < txlen ∨ Config.rxBufSize < rxlen ∨ (s.chkcrc = true ∧ rxlen % 3 ≠ 0)) →
      ∃ t, exec (.xfer opl txlen rxlen) s = .next t ∧ RefusedFrame .badlen s t)
    ∧ (txlen ≤ Config.txBufSize → rxlen ≤ Config.rxBufSize → (s.chkcrc = true → rxlen % 3 = 0) → s.lock = false →
      ∃ t, exec (.xfer opl txlen rxlen) s = .next t ∧ RefusedFrame .noaddr s t)

/-- An accepted XFER (R90, R91, R92): the snapshot is taken, WFAIL, FAILCNT and CRCWARN are cleared, the write request is issued with the opcode
bytes first and the payload after them, and the phase is WRITE; everything else is unchanged. -/
def Obligations.XferStartsATransaction : Prop :=
  ∀ (opl : OpLen) (txlen rxlen : Nat) (s : State), txlen ≤ Config.txBufSize → rxlen ≤ Config.rxBufSize →
    (s.chkcrc = true → rxlen % 3 = 0) → s.lock = true →
    ∃ (x : Snapshot) (r : Request), exec (.xfer opl txlen rxlen) s = .next { s with
        xs := some x, wfail := 0, failcnt := 0, crcwarn := false, requests := s.requests ++ [r], pend := .wr, phase := .write }
      ∧ x.addr = s.addr ∧ x.settle = s.settle ∧ x.rdreg = s.rdreg ∧ x.rxlen.toNat = rxlen ∧ x.chk = s.chkcrc ∧ x.fatal = s.crcfatal
      ∧ x.payload = (List.range txlen).map s.tx.read
      ∧ (opl = .one → x.opbytes = .one (BitVec.ofNat 8 s.opcode.toNat)
          ∧ r = if txlen = 0 then .writeByte s.addr (BitVec.ofNat 8 s.opcode.toNat)
                else .writeBlock s.addr (BitVec.ofNat 8 s.opcode.toNat) x.payload)
      ∧ (opl = .two → x.opbytes = .two (BitVec.ofNat 8 (s.opcode.toNat / 2 ^ 8)) (BitVec.ofNat 8 s.opcode.toNat)
          ∧ r = .writeBlock s.addr (BitVec.ofNat 8 (s.opcode.toNat / 2 ^ 8)) (BitVec.ofNat 8 s.opcode.toNat :: x.payload))

/-- TRANSPORT answers the write request (R93, R96): ERR ends with BUSWR; OK loads SETTLE + 1 and enters SETTLE, or, with SETTLE = 0, issues the
read or, with RXLEN = 0, ends with NONE. Nothing else changes. -/
def Obligations.WriteAnswerMovesTheTransaction : Prop :=
  ∀ (s : State) (rest : List Event) (x : Snapshot), s.phase = .write → s.pend = .wr → s.scnt = 0 → s.xs = some x → s.peerBusy = false →
    (s.inputs = .writeErr :: rest →
      step s = .next { s with inputs := rest, err := .buswr, done := true, phase := .idle, pend := .none })
    ∧ (s.inputs = .writeOk :: rest → step s = .next (
        if x.settle.toNat ≠ 0 then { s with inputs := rest, pend := .none, scnt := BitVec.ofNat 17 (x.settle.toNat + 1), phase := .settle }
        else if x.rxlen.toNat ≠ 0 then
          { s with inputs := rest, requests := s.requests ++ [.readBlock x.addr x.rdreg x.rxlen.toNat], pend := .rd, phase := .read }
        else { s with inputs := rest, err := .none, done := true, phase := .idle, pend := .none }))

/-- A TICK in SETTLE counts down and at 0 issues the read, or ends with NONE where RXLEN = 0 (R94, R96, R100). -/
def Obligations.TickCountsInSettle : Prop :=
  ∀ (s : State) (rest : List Event) (x : Snapshot), s.inputs = .tick :: rest → s.phase = .settle → s.pend = .none → s.xs = some x →
    s.scnt ≠ 0 → s.peerBusy = false →
    step s = .next (
      if 1 < s.scnt.toNat then { s with inputs := rest, scnt := BitVec.ofNat 17 (s.scnt.toNat - 1) }
      else if x.rxlen.toNat ≠ 0 then
        { s with inputs := rest, scnt := 0, requests := s.requests ++ [.readBlock x.addr x.rdreg x.rxlen.toNat], pend := .rd, phase := .read }
      else { s with inputs := rest, scnt := 0, err := .none, done := true, phase := .idle })

/-- A TICK event in phase IDLE, WRITE or READ has no effect (R95). -/
def Obligations.TickOutsideSettleHasNoEffect : Prop :=
  ∀ (s : State) (rest : List Event), s.inputs = .tick :: rest → s.phase ≠ .settle → (s.phase ≠ .idle → s.peerBusy = false) →
    step s = .next { s with inputs := rest }

/-- TRANSPORT answers the read request OK with the n bytes (R97, R98, R99): RX[0..n−1] are these bytes and every other byte of RX is unchanged,
the words are checked where XS.chk = 1, and the command ends with CRC where a word failed and XS.fatal = 1, else with NONE, all in this
step. -/
def Obligations.ReadAnswerLandsAndEnds : Prop :=
  ∀ (s : State) (rest : List Event) (x : Snapshot) (bytes : List Byte), s.inputs = .readOk bytes :: rest → s.phase = .read → s.pend = .rd →
    s.xs = some x → s.peerBusy = false → bytes.length = x.rxlen.toNat → x.rxlen.toNat ≤ Config.rxBufSize →
    ∃ t, step s = .next t
      ∧ (∀ k, t.rx.read k = if k < x.rxlen.toNat then bytes.getD k 0 else s.rx.read k)
      ∧ (x.chk = false → SameRecord s t ∧ EndedWith .none t)
      ∧ (x.chk = true →
          (∀ i, t.wfail.getLsbD i =
            (decide (i < x.rxlen.toNat / 3) && !verify (bytes.getD (3 * i) 0) (bytes.getD (3 * i + 1) 0) (bytes.getD (3 * i + 2) 0)))
          ∧ t.failcnt.toNat = bitsSet t.wfail Config.nWords ∧ t.crcwarn = decide (t.wfail ≠ 0)
          ∧ EndedWith (if t.wfail ≠ 0 ∧ x.fatal = true then .crc else .none) t)
      ∧ SameSetup s t ∧ SameSticky s t ∧ SameEnvironment s t ∧ SameTx s t ∧ t.result = s.result ∧ t.xs = s.xs ∧ t.inputs = rest

/-- TRANSPORT answers the read request ERR (R97): the command ends with BUSRD and RX is unchanged; nothing else changes (R110). -/
def Obligations.ReadErrorEndsWithBusrd : Prop :=
  ∀ (s : State) (rest : List Event), s.inputs = .readErr :: rest → s.phase = .read → s.pend = .rd → s.scnt = 0 →
    step s = .next { s with inputs := rest, err := .busrd, done := true, phase := .idle, pend := .none }

/-- Between the write answer and the read (or the end, where RXLEN = 0) exactly XS.settle + 1 TICKs occur (R94): after the answer and j ticks the
counter reads XS.settle + 1 − j, and the last tick issues the read or ends the command. -/
def Obligations.SettleTakesSettlePlusOneTicks : Prop :=
  ∀ (s : State) (x : Snapshot) (rest : List Event), s.phase = .write → s.pend = .wr → s.xs = some x → x.settle ≠ 0 → s.peerBusy = false →
    s.inputs = .writeOk :: (List.replicate (x.settle.toNat + 1) .tick ++ rest) →
    (∀ j, j ≤ x.settle.toNat → ∃ t, core.run (1 + j) s = .next t ∧ t.phase = .settle ∧ t.scnt.toNat = x.settle.toNat + 1 - j
      ∧ t.requests = s.requests)
    ∧ ∃ t, core.run (1 + (x.settle.toNat + 1)) s = .next t ∧ t.inputs = rest ∧ t.scnt = 0
      ∧ (x.rxlen ≠ 0 → t.phase = .read ∧ t.requests = s.requests ++ [.readBlock x.addr x.rdreg x.rxlen.toNat])
      ∧ (x.rxlen = 0 → EndedWith .none t ∧ t.requests = s.requests)

/-- A whole transaction (R90 to R99): an accepted XFER with SETTLE > 0 and RXLEN > 0, answered OK, ticked XS.settle + 1 times and answered OK with
RXLEN bytes, ends with its two requests issued, the write with the opcode bytes first and TX[0..TXLEN−1] after them (R92) and then the read, and
with the bytes in RX. With CHKCRC = 0 its code is NONE and the record is clear; with CHKCRC = 1 WFAIL has bit i exactly for the failed words of
the bytes, FAILCNT and CRCWARN agree with it, and the code is CRC where one failed and CRCFATAL = 1, else NONE. TX, RESULT, the sticky bits and
the registers the host sets up are unchanged. The events come one after the other here; the invariants say what any other event may do in
between. -/
def Obligations.TransactionRunsToCompletion : Prop :=
  ∀ (s : State) (opl : OpLen) (txlen rxlen : Nat) (bytes payload : List Byte) (high low : Byte) (rest : List Event),
    s.phase = .idle → s.peerBusy = false →
    s.lock = true → s.settle ≠ 0 → txlen ≤ Config.txBufSize → 0 < rxlen → rxlen ≤ Config.rxBufSize → (s.chkcrc = true → rxlen % 3 = 0) →
    bytes.length = rxlen →
    payload = (List.range txlen).map s.tx.read → high = BitVec.ofNat 8 (s.opcode.toNat / 2 ^ 8) → low = BitVec.ofNat 8 s.opcode.toNat →
    s.inputs = .hostWrite .w32 0x00C (encode (.xfer opl txlen rxlen)) :: .writeOk
      :: (List.replicate (s.settle.toNat + 1) .tick ++ .readOk bytes :: rest) →
    ∃ t : State, core.run (s.settle.toNat + 4) s = .next t ∧ t.inputs = rest
      ∧ t.requests = s.requests
          ++ [match opl with
              | .one => if txlen = 0 then .writeByte s.addr low else .writeBlock s.addr low payload
              | .two => .writeBlock s.addr high (low :: payload),
            .readBlock s.addr s.rdreg rxlen]
      ∧ (∀ k, t.rx.read k = if k < rxlen then bytes.getD k 0 else s.rx.read k)
      ∧ (s.chkcrc = false → EndedWith .none t ∧ t.wfail = 0 ∧ t.failcnt = 0 ∧ t.crcwarn = false)
      ∧ (s.chkcrc = true →
          (∀ i, t.wfail.getLsbD i =
            (decide (i < rxlen / 3) && !verify (bytes.getD (3 * i) 0) (bytes.getD (3 * i + 1) 0) (bytes.getD (3 * i + 2) 0)))
          ∧ t.failcnt.toNat = bitsSet t.wfail Config.nWords ∧ t.crcwarn = decide (t.wfail ≠ 0)
          ∧ EndedWith (if t.wfail ≠ 0 ∧ s.crcfatal = true then .crc else .none) t)
      ∧ SameSetup s t ∧ SameSticky s t ∧ SameTx s t ∧ t.result = s.result

/-- In WRITE and READ only TRANSPORT can move the machine, in SETTLE only TIMEBASE; reset apart (R100). Any other event leaves phase, pend, scnt
and the snapshot as they are, and issues no request. -/
def Obligations.OnlyTheOwnerMovesATransaction : Prop :=
  ∀ (s t : State) (e : Event) (rest : List Event), s.inputs = e :: rest → step s = .next t → e ≠ .reset →
    ((s.phase = .write ∨ s.phase = .read) ∧ e.isAnswer = false ∨ s.phase = .settle ∧ e ≠ .tick) →
    t.phase = s.phase ∧ t.pend = s.pend ∧ t.scnt = s.scnt ∧ t.xs = s.xs ∧ t.requests = s.requests

/-- While no answer and no reset comes, a transaction in WRITE or READ stays there for ever, whatever the host legally does and however many TICKs
come (R101): no answer is invented. -/
def Obligations.UnansweredTransactionStaysBusy : Prop :=
  ∀ (n : Nat) (s : State), (s.phase = .write ∨ s.phase = .read) → s.peerBusy = false →
    (∀ e ∈ s.inputs, e = .tick ∨ e.isLegalHost = true) →
    ∃ t, core.run n s = .next t ∧ t.phase = s.phase ∧ t.pend = s.pend ∧ t.requests = s.requests

/-- No host access changes a running transaction or what it has left so far (R57, R60, R102): while BUSY = 1 a legal host access leaves phase,
pend, scnt, the snapshot, every byte of RX, the record of the last validation, RESULT and ERR, and issues no request. -/
def Obligations.HostCannotDisturbATransaction : Prop :=
  ∀ (s : State) (e : Event) (rest : List Event), s.inputs = e :: rest → s.phase ≠ .idle → s.peerBusy = false → e.isLegalHost = true →
    ∃ t, step s = .next t ∧ t.phase = s.phase ∧ t.pend = s.pend ∧ t.scnt = s.scnt ∧ t.xs = s.xs ∧ t.rx = s.rx ∧ SameRecord s t
      ∧ t.result = s.result ∧ t.err = s.err ∧ t.requests = s.requests ∧ t.inputs = rest

/-- Completion is atomic (R57, R99): a step that ends a transaction, reset apart, leaves DONE = 1, nothing pending and the counter at 0, and
RX changes in no step of a transaction but such a one. -/
def Obligations.CompletionIsAtomic : Prop :=
  ∀ (s t : State) (e : Event) (rest : List Event), s.inputs = e :: rest → step s = .next t → s.phase ≠ .idle → e ≠ .reset →
    (t.phase = .idle → t.done = true ∧ t.pend = .none ∧ t.scnt = 0) ∧ (t.phase ≠ .idle → SameRx s t)

/-! ### The whole machine (60_exceptions.md, 70_reset_and_hazards.md) -/

/-- Every command answers a next state, in every state: no command faults, and none is refused (R104, R116). No command writes the registers
that the host sets up, RX or the sticky bits. A command either ends, with any code, and then IRQ = IE (R115), or is an accepted XFER. That an
accepted XFER leaves DONE as `exec` found it is the model's form and no rule of the spec (log entry 26): acceptance, which clears DONE before the
command's rule runs (R65, R108), stands outside `exec`. -/
def Obligations.EveryCommandCompletes : Prop :=
  ∀ (i : Instr) (s : State), ∃ t, exec i s = .next t ∧ SameSetup s t ∧ SameRx s t ∧ SameSticky s t ∧ t.hostData = s.hostData
    ∧ t.peerBusy = s.peerBusy ∧ t.inputs = s.inputs
    ∧ (t.phase = .idle ∧ t.done = true ∧ t.irq = s.ie
        ∨ (∃ opl txlen rxlen, i = .xfer opl txlen rxlen) ∧ t.phase = .write ∧ t.done = s.done)

/-- Errors are precise (R110): a command that ends at once with BADLEN, NOADDR or DOMAIN leaves DONE = 1 and its code, and nothing else. -/
def Obligations.ErrorsArePrecise : Prop :=
  ∀ (i : Instr) (s t : State), s.done = false → s.phase = .idle → s.pend = .none → s.scnt = 0 → exec i s = .next t → t.done = true →
    t.err ≠ .none → t.err ≠ .crc → t = { s with err := t.err, done := true }
      ∧ (t.err = .badlen ∨ t.err = .noaddr ∨ t.err = .domain)

/-- RESULT changes only by reset and by an accepted CRCW, CRCV, CRCB, CVTT, CVTRH, RHICE or DEWPT that ends without error (R30). -/
def Obligations.ResultHasSevenWriters : Prop :=
  ∀ (s t : State) (e : Event) (rest : List Event), s.inputs = e :: rest → step s = .next t → t.result ≠ s.result →
    e = .reset ∨ ∃ (v : Word) (i : Instr), e = .hostWrite .w32 0x00C v ∧ s.phase = .idle ∧ decode v = .ok i ∧ t.err = .none ∧ t.done = true
      ∧ (i = .crcw ∨ i = .crcv ∨ (∃ buf start count, i = .crcb buf start count) ∨ i = .cvtt ∨ i = .cvtrh ∨ i = .rhice ∨ i = .dewpt)

/-- Reset, in any state and also during a transaction, puts every register, buffer and flag at its reset value in its one step (R124, R125), and
IRQ is 0. -/
def Obligations.ResetGivesTheTable : Prop :=
  ∀ (s : State) (rest : List Event), s.inputs = .reset :: rest →
    ∃ t, step s = .next t ∧ t.phase = .idle ∧ t.pend = .none ∧ t.scnt = 0 ∧ t.irq = false
      ∧ (∀ k, t.tx.read k = 0 ∧ t.rx.read k = 0)
      ∧ [0x000, 0x004, 0x008, 0x00C, 0x010, 0x014, 0x018, 0x01C, 0x020, 0x024, 0x028, 0x02C, 0x030].map (fun off => memRead off t)
        = [0x53454E01, 0x00000001, 0, 0, 0, 0, 0, 0, 0, 0, 0, 0, 0]
      ∧ [0x040, 0x044, 0x048, 0x04C, 0x050, 0x054, 0x058, 0x05C, 0x060].map (fun off => memRead off t)
        = [0xFFFFEE6C, 0x445C, 0, 0x2710, 1, 0x06E2, 0x5EF8, 0x08C6, 0x6A7E]

/-- A second bus master, and a run with two transactions in flight on one bus, are refused (R121). That both show as events and as a bit of
State is the model's choice (log entry 17). -/
def Obligations.ForeignTransactionsAreRefused : Prop :=
  (∀ (s : State) (rest : List Event), s.inputs = .secondMaster :: rest → step s = .refused .secondMaster)
  ∧ (∀ (s : State) (rest : List Event), s.inputs = .peerStarts :: rest → (s.phase ≠ .idle ∨ s.peerBusy = true) →
      step s = .refused .twoTransactionsOnBus)
  ∧ (∀ (s t : State) (e : Event) (rest : List Event), s.inputs = e :: rest → step s = .next t → ¬ (t.phase ≠ .idle ∧ t.peerBusy = true))

/-- The snapshot's value outside a transaction has no effect (R38): in IDLE, two states that differ only in XS step alike, and differ afterwards
at most in XS, and not even there in a transaction. -/
def Obligations.StaleSnapshotHasNoEffect : Prop :=
  ∀ (s : State) (x : Option Snapshot), s.phase = .idle →
    (∃ t t', step s = .next t ∧ step { s with xs := x } = .next t' ∧ t' = { t with xs := t'.xs } ∧ (t.phase ≠ .idle → t' = t))
    ∨ (∃ f, step s = .fault f ∧ step { s with xs := x } = .fault f)
    ∨ (∃ f, step s = .refused f ∧ step { s with xs := x } = .refused f)

/-! ### Invariants of every step -/

/-- Every step keeps the canonical form of both buffers (log entry 15). -/
def Obligations.StepKeepsBuffersCanonical : Prop :=
  ∀ s t : State, BuffersCanonical s → step s = .next t → BuffersCanonical t

/-- Every step keeps the controller in step with itself (R32, R39, R40, R41, R90, R94, R108, R109). -/
def Obligations.StepKeepsController : Prop :=
  ∀ s t : State, ControllerInv s → step s = .next t → ControllerInv t

/-- Every step keeps the buffers within their sizes and the snapshot within the acceptance checks (R36, R37, R90). -/
def Obligations.StepKeepsBuffersBounded : Prop :=
  ∀ s t : State, BuffersBounded s → step s = .next t → BuffersBounded t

/-- Every step keeps RH_FLOOR ≥ 1 and WFAIL, FAILCNT and CRCWARN in agreement (R20, R31, R35, R71). -/
def Obligations.StepKeepsRegistersLegal : Prop :=
  ∀ s t : State, RegistersLegal s → step s = .next t → RegistersLegal t

/-- The invariants hold after reset. -/
def Obligations.ResetMeetsTheInvariants : Prop :=
  BuffersCanonical State.reset ∧ ControllerInv State.reset ∧ BuffersBounded State.reset ∧ RegistersLegal State.reset
end

