-- ==== Sys2Proof/Laws/Conversion.lean ====
section
/-!
SUPPORT. What the conversion commands compute with: `rnd` within half a unit, results that fit s32, and a faithful pair that holds.
-/
namespace Sys2Proof.Machine

/-- `rnd(p, q)` is within half a unit of p/q, ties up (R12). -/
theorem rnd_bounds (p q : Int) (hq : 0 < q) : -q ≤ 2 * (p - q * rnd p q) ∧ 2 * (p - q * rnd p q) < q + 1 := by
  have h1 := Int.mul_ediv_add_emod (2 * p + q) (2 * q)
  have h2 := Int.emod_nonneg (2 * p + q) (show 2 * q ≠ 0 by omega)
  have h3 := Int.emod_lt_of_pos (2 * p + q) (show 0 < 2 * q by omega)
  have h4 : 2 * q * rnd p q = 2 * (q * rnd p q) := by ring
  unfold rnd at *
  constructor <;> omega

theorem toInt_s32 {v : Int} (h1 : -2 ^ 31 ≤ v) (h2 : v ≤ 2 ^ 31 - 1) : (s32 v).toInt = v := by
  unfold s32
  rw [BitVec.toInt_ofInt]
  exact Int.bmod_eq_of_le (by omega) (by omega)

/-- `lin` never leaves s32: it lies between −65537 and 65537 (R78). -/
theorem lin_bounds (mn sp raw : Half) : -65537 ≤ lin mn sp raw ∧ lin mn sp raw ≤ 65537 := by
  have h1 := rnd_bounds (sp.toInt * (raw.toNat : Int)) 65535 (by decide)
  have hr : ((raw.toNat : Nat) : Int) ≤ 65535 := by have := raw.isLt; omega
  have hr0 : (0 : Int) ≤ (raw.toNat : Int) := Int.natCast_nonneg _
  have hs1 : -32768 ≤ sp.toInt := BitVec.le_toInt sp
  have hs2 : sp.toInt < 32768 := BitVec.toInt_lt
  have hm1 : -32768 ≤ mn.toInt := BitVec.le_toInt mn
  have hm2 : mn.toInt < 32768 := BitVec.toInt_lt
  have hp1 : -32768 * 65535 ≤ sp.toInt * (raw.toNat : Int) := by nlinarith
  have hp2 : sp.toInt * (raw.toNat : Int) ≤ 32768 * 65535 := by nlinarith
  unfold lin
  constructor <;> omega

/-- Either member of a faithful pair is the floor or the ceiling of the value, and fits s32 (R14). -/
theorem drawn_faithful {V : ℝ} {pair : Int × Int} (up : Bool) (h : FaithfulPair V (some pair)) :
    (drawn up pair = ⌊V⌋ ∨ drawn up pair = ⌈V⌉) ∧ (s32 (drawn up pair)).toInt = drawn up pair := by
  obtain ⟨⟨hlo, hhi⟩, h1, h2⟩ := h
  have hle := Int.floor_le_ceil V
  have hd : drawn up pair = ⌊V⌋ ∨ drawn up pair = ⌈V⌉ := by
    cases up
    · exact .inl h1
    · exact .inr h2
  refine ⟨hd, toInt_s32 ?_ ?_⟩ <;> rcases hd with hd | hd <;> omega

/-! ### DEWPT, check by check (R86) -/

theorem execDewpt_dry {s : State} (h : s.arg1.toInt ≤ 0) : execDewpt s = raise .domain s := by
  have h' : ¬ 0 < operandRh s := not_lt.mpr h
  simp only [execDewpt, dif_neg h']

theorem execDewpt_pole {s : State} {b l : Half} (hm : magnusSel s = (b, l)) (hrh : 0 < s.arg1.toInt)
    (h : (l.toNat : Int) + s.arg0.toInt = 0) : execDewpt s = raise .domain s := by
  have h1 : 0 < operandRh s := hrh
  have h2 : (((magnusSel s).2).toNat : Int) + operandT s = 0 := by rw [hm]; exact h
  simp only [execDewpt, dif_pos h1, if_pos h2]

theorem execDewpt_denZero {s : State} {b l : Half} (hm : magnusSel s = (b, l)) (hrh : 0 < s.arg1.toInt)
    (h : dewptDenZero s.arg0 s.arg1 b l = true) : execDewpt s = raise .domain s := by
  have h1 : 0 < operandRh s := hrh
  have h3 : dewptDenZero s.arg0 s.arg1 (magnusSel s).1 (magnusSel s).2 = true := by rw [hm]; exact h
  simp only [execDewpt, dif_pos h1, if_pos h3, ite_self]

/-- Past its checks, DEWPT ends by its faithful pair. -/
theorem execDewpt_pair {s : State} {b l : Half} (hm : magnusSel s = (b, l)) (hrh : 0 < s.arg1.toInt)
    (hl : (l.toNat : Int) + s.arg0.toInt ≠ 0) (hd : dewptDenZero s.arg0 s.arg1 b l = false) :
    (∃ pair, FaithfulPair (dewptV s.arg0 s.arg1 b l) (some pair)
      ∧ execDewpt s = completeWith (s32 (drawn (Config.drawDewpt s.arg0 s.arg1 b l) pair)) s)
    ∨ FaithfulPair (dewptV s.arg0 s.arg1 b l) none ∧ execDewpt s = raise .domain s := by
  have h1 : 0 < operandRh s := hrh
  obtain ⟨rfl, rfl⟩ : b = (magnusSel s).1 ∧ l = (magnusSel s).2 := by rw [hm]; exact ⟨rfl, rfl⟩
  have h2 : ¬ (((magnusSel s).2).toNat : Int) + operandT s = 0 := hl
  have hp := (dewptNeighbours s.arg0 s.arg1 (magnusSel s).1 (magnusSel s).2 hrh).2
  rcases h : (dewptNeighbours s.arg0 s.arg1 (magnusSel s).1 (magnusSel s).2 hrh).1 with _ | pair
  · rw [h] at hp
    exact .inr ⟨hp, by simp only [execDewpt, dif_pos h1, if_neg h2, hd, Bool.false_eq_true, if_false, h]⟩
  · rw [h] at hp
    exact .inl ⟨pair, hp, by simp only [execDewpt, dif_pos h1, if_neg h2, hd, Bool.false_eq_true, if_false, h]⟩

/-! ### RHICE, check by check (R85) -/

theorem execRhice_water {s : State} (h : 0 ≤ s.arg0.toInt) : execRhice s = completeWith (s32 (max s.arg1.toInt (floorValue s))) s :=
  if_pos h

theorem execRhice_noLambda {s : State} (ht : s.arg0.toInt < 0) (h : s.lambdaW = 0 ∨ s.lambdaI = 0) : execRhice s = raise .domain s := by
  have h1 : ¬ 0 ≤ operandT s := not_le.mpr ht
  simp only [execRhice, if_neg h1, if_pos h]

/-- Past its checks, RHICE ends by its faithful pair. -/
theorem execRhice_pair {s : State} (ht : s.arg0.toInt < 0) (hw : s.lambdaW ≠ 0) (hi : s.lambdaI ≠ 0) :
    (∃ pair, FaithfulPair (rhiceV s.arg0 s.arg1 s.betaW s.lambdaW s.betaI s.lambdaI) (some pair)
      ∧ execRhice s = completeWith
          (s32 (max (drawn (Config.drawRhice s.arg0 s.arg1 s.betaW s.lambdaW s.betaI s.lambdaI) pair) (floorValue s))) s)
    ∨ FaithfulPair (rhiceV s.arg0 s.arg1 s.betaW s.lambdaW s.betaI s.lambdaI) none ∧ execRhice s = raise .domain s := by
  have h1 : ¬ 0 ≤ operandT s := not_le.mpr ht
  have h2 : ¬ (s.lambdaW = 0 ∨ s.lambdaI = 0) := fun h => h.elim hw hi
  have hp := (rhiceNeighbours s.arg0 s.arg1 s.betaW s.lambdaW s.betaI s.lambdaI).2
  rcases h : (rhiceNeighbours s.arg0 s.arg1 s.betaW s.lambdaW s.betaI s.lambdaI).1 with _ | pair
  · rw [h] at hp
    exact .inr ⟨hp, by simp only [execRhice, if_neg h1, if_neg h2, h]⟩
  · rw [h] at hp
    exact .inl ⟨pair, hp, by simp only [execRhice, if_neg h1, if_neg h2, h]⟩

end Sys2Proof.Machine
end

