-- ==== Sys2Proof/Laws/Encoding.lean ====
section
/-!
SUPPORT. The fields of a packed word, and what decoding needs of them.
-/
namespace Sys2Proof

theorem getLsbD_packFields (op f a b : Byte) (i : Nat) :
    (packFields op f a b).getLsbD i = if i < 8 then op.getLsbD i else if i < 16 then f.getLsbD (i - 8)
      else if i < 24 then a.getLsbD (i - 16) else b.getLsbD (i - 24) := by
  have h : (packFields op f a b).getLsbD i = BitVec.getLsbD (w := 8 + 8 + 8 + 8) (b ++ a ++ f ++ op) i := rfl
  rw [h, BitVec.getLsbD_append, BitVec.getLsbD_append, BitVec.getLsbD_append]
  have h1 : i - 8 < 8 ↔ i < 16 := by omega
  have h2 : i - 8 - 8 < 8 ↔ i < 24 := by omega
  rw [Nat.sub_sub, Nat.sub_sub] at *
  simp only [h1, h2]

@[simp] theorem fieldOP_packFields (op f a b : Byte) : fieldOP (packFields op f a b) = op := by
  apply BitVec.eq_of_getLsbD_eq
  intro i hi
  simp [-BitVec.getLsbD_eq_getElem, fieldOP, getLsbD_packFields, hi]

@[simp] theorem fieldF_packFields (op f a b : Byte) : fieldF (packFields op f a b) = f := by
  apply BitVec.eq_of_getLsbD_eq
  intro i hi
  have h1 : 8 + i < 16 := by omega
  simp [-BitVec.getLsbD_eq_getElem, fieldF, getLsbD_packFields, hi, h1]

@[simp] theorem fieldA_packFields (op f a b : Byte) : fieldA (packFields op f a b) = a := by
  apply BitVec.eq_of_getLsbD_eq
  intro i hi
  have h1 : ¬ 16 + i < 8 := by omega
  have h2 : 16 + i < 24 := by omega
  simp [-BitVec.getLsbD_eq_getElem, fieldA, getLsbD_packFields, hi, h1, h2]

@[simp] theorem fieldB_packFields (op f a b : Byte) : fieldB (packFields op f a b) = b := by
  apply BitVec.eq_of_getLsbD_eq
  intro i hi
  have h1 : ¬ 24 + i < 8 := by omega
  have h2 : ¬ 24 + i < 16 := by omega
  simp [-BitVec.getLsbD_eq_getElem, fieldB, getLsbD_packFields, hi, h1, h2]

/-- A word is its four fields (R62). -/
theorem packFields_fields (v : Word) : packFields (fieldOP v) (fieldF v) (fieldA v) (fieldB v) = v := by
  apply BitVec.eq_of_getLsbD_eq
  intro i hi
  rw [getLsbD_packFields]
  simp only [fieldOP, fieldF, fieldA, fieldB, BitVec.getLsbD_extractLsb']
  split
  · simp [*]
  · split
    · rw [show 8 + (i - 8) = i by omega]; simp; omega
    · split
      · rw [show 16 + (i - 16) = i by omega]; simp; omega
      · rw [show 24 + (i - 24) = i by omega]; simp; omega

theorem packFields_and (op f a b op' f' a' b' : Byte) :
    packFields op f a b &&& packFields op' f' a' b' = packFields (op &&& op') (f &&& f') (a &&& a') (b &&& b') := by
  apply BitVec.eq_of_getLsbD_eq
  intro i hi
  rw [BitVec.getLsbD_and, getLsbD_packFields, getLsbD_packFields, getLsbD_packFields]
  split
  · rw [BitVec.getLsbD_and]
  · split
    · rw [BitVec.getLsbD_and]
    · split <;> rw [BitVec.getLsbD_and]

/-- Two packed words are equal exactly where their fields are. -/
theorem packFields_inj {op f a b op' f' a' b' : Byte} :
    packFields op f a b = packFields op' f' a' b' ↔ op = op' ∧ f = f' ∧ a = a' ∧ b = b' := by
  constructor
  · intro h
    refine ⟨?_, ?_, ?_, ?_⟩
    · simpa using congrArg fieldOP h
    · simpa using congrArg fieldF h
    · simpa using congrArg fieldA h
    · simpa using congrArg fieldB h
  · rintro ⟨rfl, rfl, rfl, rfl⟩; rfl

/-- A word selects a row exactly where each of its fields, under the field's mask, is the row's. -/
theorem selects_iff (v : Word) (op f a b mop mf ma mb : Byte) :
    v &&& packFields mop mf ma mb = packFields op f a b
      ↔ fieldOP v &&& mop = op ∧ fieldF v &&& mf = f ∧ fieldA v &&& ma = a ∧ fieldB v &&& mb = b := by
  conv_lhs => rw [← packFields_fields v, packFields_and, packFields_inj]

/-- A field that fits is its number again. -/
theorem toNat_ofNat_fits {n : Nat} (h : fitsField n = true) : (BitVec.ofNat 8 n).toNat = n := by
  rw [BitVec.toNat_ofNat]
  exact Nat.mod_eq_of_lt (by simpa [fitsField] using h)

end Sys2Proof
end

