-- ==== Sys2Proof/Laws/Memory.lean ====
section
/-!
SUPPORT. The laws of the byte buffers: a read after a write, what a write leaves alone, that every operation keeps the canonical form and
the bound of the indices, and the same for the writes of several bytes.
-/
namespace Sys2Proof.Machine

theorem Memory.read_erase (m : Memory) (k j : Nat) : (m.erase k).read j = if k = j then Memory.unlisted else m.read j := by
  induction m with
  | nil => simp [Memory.erase, Memory.read]
  | cons c m ih =>
    obtain ⟨i, x⟩ := c
    unfold Memory.erase at ih ⊢
    by_cases hik : i = k
    · subst hik
      simp only [List.filter_cons, ne_eq, not_true, decide_false, Bool.false_eq_true, if_false, ih, Memory.read]
      by_cases hij : i = j <;> simp [hij]
    · simp only [List.filter_cons, ne_eq, hik, not_false_eq_true, decide_true, if_true, Memory.read]
      by_cases hij : i = j
      · have : k ≠ j := by omega
        simp [hij, this]
      · simp only [if_neg hij]; exact ih

theorem Memory.read_insert (m : Memory) (k j : Nat) (b : Byte) (hm : ∀ c ∈ m, c.1 ≠ k) :
    (m.insert k b).read j = if k = j then b else m.read j := by
  induction m with
  | nil => simp [Memory.insert, Memory.read]
  | cons c m ih =>
    obtain ⟨i, x⟩ := c
    simp only [Memory.insert]
    split
    · simp [Memory.read]
    · have hik : i ≠ k := hm (i, x) (by simp)
      simp only [Memory.read, ih (fun d hd => hm d (by simp [hd]))]
      by_cases hij : i = j
      · have : k ≠ j := by omega
        simp [hij, this]
      · simp [hij]

/-- Reading after a write: the byte written at its index, the byte before anywhere else. -/
theorem Memory.read_write (m : Memory) (k j : Nat) (b : Byte) : (m.write k b).read j = if k = j then b else m.read j := by
  unfold Memory.write
  split
  · rename_i hb; rw [Memory.read_erase, hb]
  · rw [Memory.read_insert _ _ _ _ (by simp [Memory.erase]), Memory.read_erase]
    split <;> rfl

theorem Memory.erase_wf (m : Memory) (k : Nat) (hm : m.wf) : (m.erase k).wf :=
  ⟨hm.1.filter _, fun c hc => hm.2 c (List.mem_of_mem_filter hc)⟩

theorem Memory.mem_insert {m : Memory} {k : Nat} {b : Byte} {c : Host.Cell} (h : c ∈ m.insert k b) : c = (k, b) ∨ c ∈ m := by
  induction m with
  | nil => left; simpa [Memory.insert] using h
  | cons d m ih =>
    obtain ⟨i, x⟩ := d
    simp only [Memory.insert] at h
    split at h
    · rcases List.mem_cons.mp h with h | h
      · exact .inl h
      · exact .inr h
    · rcases List.mem_cons.mp h with rfl | h
      · exact .inr (by simp)
      · rcases ih h with h | h
        · exact .inl h
        · exact .inr (by simp [h])

theorem Memory.insert_wf (m : Memory) (k : Nat) (b : Byte) (hm : m.wf) (hk : ∀ c ∈ m, c.1 ≠ k) (hb : b ≠ Memory.unlisted) :
    (m.insert k b).wf := by
  refine ⟨?_, fun c hc => ?_⟩
  · have hs := hm.1
    clear hm
    induction m with
    | nil => simp [Memory.insert]
    | cons c m ih =>
      obtain ⟨i, x⟩ := c
      have hs' := List.pairwise_cons.mp hs
      simp only [Memory.insert]
      split
      · rename_i hlt
        refine List.pairwise_cons.mpr ⟨fun d hd => ?_, hs⟩
        rcases List.mem_cons.mp hd with rfl | hd
        · exact hlt
        · exact hlt.trans (hs'.1 d hd)
      · rename_i hge
        refine List.pairwise_cons.mpr ⟨fun d hd => ?_, ih (fun d hd => hk d (by simp [hd])) hs'.2⟩
        rcases Memory.mem_insert hd with rfl | hd
        · have : i ≠ k := hk (i, x) (by simp)
          show i < k; omega
        · exact hs'.1 d hd
  · rcases Memory.mem_insert hc with rfl | hc
    · exact hb
    · exact hm.2 c hc

/-- Every cell of a written buffer is the written one or an old one. -/
theorem Memory.mem_write {m : Memory} {k : Nat} {b : Byte} {c : Host.Cell} (h : c ∈ m.write k b) : c.1 = k ∨ c ∈ m := by
  unfold Memory.write at h
  split at h
  · exact .inr (List.mem_of_mem_filter h)
  · rcases Memory.mem_insert h with rfl | h
    · exact .inl rfl
    · exact .inr (List.mem_of_mem_filter h)

/-- A write keeps the canonical form. -/
theorem Memory.write_wf (m : Memory) (k : Nat) (b : Byte) (hm : m.wf) : (m.write k b).wf := by
  unfold Memory.write
  split
  · exact Memory.erase_wf m k hm
  · exact Memory.insert_wf _ k b (Memory.erase_wf m k hm) (by simp [Memory.erase]) (by assumption)

/-- Writing several bytes keeps the canonical form. -/
theorem Memory.writeBytes_wf (m : Memory) (start : Nat) (bs : List Byte) (hm : m.wf) : (m.writeBytes start bs).wf := by
  induction bs generalizing m start with
  | nil => exact hm
  | cons b bs ih => exact ih _ _ (Memory.write_wf m start b hm)

/-- Reading after writing several bytes: the byte written where one was, the byte before elsewhere. -/
theorem Memory.read_writeBytes (m : Memory) (start : Nat) (bs : List Byte) (j : Nat) :
    (m.writeBytes start bs).read j = if start ≤ j then (bs[j - start]?).getD (m.read j) else m.read j := by
  induction bs generalizing m start with
  | nil => simp [Memory.writeBytes]
  | cons b bs ih =>
    simp only [Memory.writeBytes]
    rw [ih _ _, Memory.read_write m start j b]
    by_cases h1 : start + 1 ≤ j
    · have h2 : start ≠ j := by omega
      have h3 : j - start = (j - (start + 1)) + 1 := by omega
      rw [if_pos h1, if_neg h2, if_pos (by omega), h3, List.getElem?_cons_succ]
    · by_cases h2 : start = j
      · subst h2; simp
      · rw [if_neg h1, if_neg h2, if_neg (by omega)]

/-- Every cell after writing several bytes lies in their range or was there before. -/
theorem Memory.mem_writeBytes {m : Memory} {start : Nat} {bs : List Byte} {c : Host.Cell} (h : c ∈ m.writeBytes start bs) :
    (start ≤ c.1 ∧ c.1 < start + bs.length) ∨ c ∈ m := by
  induction bs generalizing m start with
  | nil => exact .inr h
  | cons b bs ih =>
    rcases ih h with h | h
    · left; simp only [List.length_cons]; omega
    · rcases Memory.mem_write h with h | h
      · left; simp only [List.length_cons]; omega
      · exact .inr h

/-- Buffers in canonical form that read the same are the same data. -/
theorem Memory.ext_read {m n : Memory} (hm : m.wf) (hn : n.wf) (h : ∀ k, m.read k = n.read k) : m = n := by
  have hread : ∀ (l : Memory) (i : Nat) (x : Byte), Memory.wf ((i, x) :: l) → l.read i = Memory.unlisted := by
    intro l i x hl
    have hs := (List.pairwise_cons.mp hl.1).1
    clear hl
    induction l with
    | nil => rfl
    | cons d l ih =>
      have hd : d.1 ≠ i := (hs d (by simp)).ne'
      simp only [Memory.read, if_neg hd]
      exact ih (fun e he => hs e (by simp [he]))
  have hbelow : ∀ (l : Memory) (i : Nat), (∀ c ∈ l, i < c.1) → l.read i = Memory.unlisted := by
    intro l i hl
    induction l with
    | nil => rfl
    | cons d l ih =>
      have hd : d.1 ≠ i := (hl d (by simp)).ne'
      simp only [Memory.read, if_neg hd]
      exact ih (fun e he => hl e (by simp [he]))
  induction m generalizing n with
  | nil =>
    cases n with
    | nil => rfl
    | cons d n =>
      have := h d.1
      simp only [Memory.read, if_true] at this
      exact absurd this.symm (hn.2 d (by simp))
  | cons c m ih =>
    obtain ⟨i, x⟩ := c
    cases n with
    | nil =>
      have := h i
      simp only [Memory.read, if_true] at this
      exact absurd this (hm.2 (i, x) (by simp))
    | cons d n =>
      obtain ⟨j, y⟩ := d
      have hsm := List.pairwise_cons.mp hm.1
      have hsn := List.pairwise_cons.mp hn.1
      have hij : i = j := by
        rcases lt_trichotomy i j with hlt | heq | hgt
        · have h1 := h i
          rw [hbelow ((j, y) :: n) i (by intro c hc; rcases List.mem_cons.mp hc with rfl | hc; exacts [hlt, hlt.trans (hsn.1 c hc)])] at h1
          simp only [Memory.read, if_true] at h1
          exact absurd h1 (hm.2 (i, x) (by simp))
        · exact heq
        · have h1 := h j
          rw [hbelow ((i, x) :: m) j (by intro c hc; rcases List.mem_cons.mp hc with rfl | hc; exacts [hgt, hgt.trans (hsm.1 c hc)])] at h1
          simp only [Memory.read, if_true] at h1
          exact absurd h1.symm (hn.2 (j, y) (by simp))
      subst hij
      have hxy : x = y := by have := h i; simpa [Memory.read] using this
      subst hxy
      have htm : Memory.wf m := ⟨hsm.2, fun d hd => hm.2 d (by simp [hd])⟩
      have htn : Memory.wf n := ⟨hsn.2, fun d hd => hn.2 d (by simp [hd])⟩
      rw [ih htm htn fun k => ?_]
      by_cases hk : i = k
      · subst hk; rw [hread m i x hm, hread n i x hn]
      · have := h k; simpa [Memory.read, hk] using this

/-- The bytes of a range, one by one. -/
theorem Memory.bytes_getElem? (m : Memory) (start count j : Nat) :
    (m.bytes start count)[j]? = if j < count then some (m.read (start + j)) else none := by
  induction count generalizing start j with
  | zero => simp [Memory.bytes]
  | succ count ih =>
    cases j with
    | zero => simp [Memory.bytes]
    | succ j =>
      simp only [Memory.bytes, List.getElem?_cons_succ, ih]
      have : start + 1 + j = start + (j + 1) := by omega
      simp [this]

@[simp] theorem Memory.bytes_length (m : Memory) (start count : Nat) : (m.bytes start count).length = count := by
  induction count generalizing start with
  | zero => rfl
  | succ count ih => simp [Memory.bytes, ih]

/-- The bytes of a range depend on its bytes only. -/
theorem Memory.bytes_congr {m n : Memory} (h : ∀ k, m.read k = n.read k) (start count : Nat) : m.bytes start count = n.bytes start count := by
  induction count generalizing start with
  | zero => rfl
  | succ count ih => simp [Memory.bytes, ih, h]

end Sys2Proof.Machine
end

