-- ==== Sys2Proof/Laws/State.lean ====
section
/-!
SUPPORT. One lemma per field per update: what each named update of the state leaves in each field.
-/
namespace Sys2Proof.Machine

/-! ### finish -/

@[simp] theorem finish_chkcrc (e : ErrCode) (s : State) : (finish e s).chkcrc = s.chkcrc := rfl
@[simp] theorem finish_crcfatal (e : ErrCode) (s : State) : (finish e s).crcfatal = s.crcfatal := rfl
@[simp] theorem finish_ie (e : ErrCode) (s : State) : (finish e s).ie = s.ie := rfl
@[simp] theorem finish_done (e : ErrCode) (s : State) : (finish e s).done = true := rfl
@[simp] theorem finish_err (e : ErrCode) (s : State) : (finish e s).err = e := rfl
@[simp] theorem finish_crcwarn (e : ErrCode) (s : State) : (finish e s).crcwarn = s.crcwarn := rfl
@[simp] theorem finish_ovr (e : ErrCode) (s : State) : (finish e s).ovr = s.ovr := rfl
@[simp] theorem finish_cfgerr (e : ErrCode) (s : State) : (finish e s).cfgerr = s.cfgerr := rfl
@[simp] theorem finish_failcnt (e : ErrCode) (s : State) : (finish e s).failcnt = s.failcnt := rfl
@[simp] theorem finish_addr (e : ErrCode) (s : State) : (finish e s).addr = s.addr := rfl
@[simp] theorem finish_lock (e : ErrCode) (s : State) : (finish e s).lock = s.lock := rfl
@[simp] theorem finish_opcode (e : ErrCode) (s : State) : (finish e s).opcode = s.opcode := rfl
@[simp] theorem finish_settle (e : ErrCode) (s : State) : (finish e s).settle = s.settle := rfl
@[simp] theorem finish_rdreg (e : ErrCode) (s : State) : (finish e s).rdreg = s.rdreg := rfl
@[simp] theorem finish_arg0 (e : ErrCode) (s : State) : (finish e s).arg0 = s.arg0 := rfl
@[simp] theorem finish_arg1 (e : ErrCode) (s : State) : (finish e s).arg1 = s.arg1 := rfl
@[simp] theorem finish_result (e : ErrCode) (s : State) : (finish e s).result = s.result := rfl
@[simp] theorem finish_wfail (e : ErrCode) (s : State) : (finish e s).wfail = s.wfail := rfl
@[simp] theorem finish_tMin (e : ErrCode) (s : State) : (finish e s).tMin = s.tMin := rfl
@[simp] theorem finish_tSpan (e : ErrCode) (s : State) : (finish e s).tSpan = s.tSpan := rfl
@[simp] theorem finish_rhMin (e : ErrCode) (s : State) : (finish e s).rhMin = s.rhMin := rfl
@[simp] theorem finish_rhSpan (e : ErrCode) (s : State) : (finish e s).rhSpan = s.rhSpan := rfl
@[simp] theorem finish_rhFloor (e : ErrCode) (s : State) : (finish e s).rhFloor = s.rhFloor := rfl
@[simp] theorem finish_betaW (e : ErrCode) (s : State) : (finish e s).betaW = s.betaW := rfl
@[simp] theorem finish_lambdaW (e : ErrCode) (s : State) : (finish e s).lambdaW = s.lambdaW := rfl
@[simp] theorem finish_betaI (e : ErrCode) (s : State) : (finish e s).betaI = s.betaI := rfl
@[simp] theorem finish_lambdaI (e : ErrCode) (s : State) : (finish e s).lambdaI = s.lambdaI := rfl
@[simp] theorem finish_tx (e : ErrCode) (s : State) : (finish e s).tx = s.tx := rfl
@[simp] theorem finish_rx (e : ErrCode) (s : State) : (finish e s).rx = s.rx := rfl
@[simp] theorem finish_xs (e : ErrCode) (s : State) : (finish e s).xs = s.xs := rfl
@[simp] theorem finish_phase (e : ErrCode) (s : State) : (finish e s).phase = .idle := rfl
@[simp] theorem finish_pend (e : ErrCode) (s : State) : (finish e s).pend = .none := rfl
@[simp] theorem finish_scnt (e : ErrCode) (s : State) : (finish e s).scnt = 0 := rfl
@[simp] theorem finish_inputs (e : ErrCode) (s : State) : (finish e s).inputs = s.inputs := rfl
@[simp] theorem finish_requests (e : ErrCode) (s : State) : (finish e s).requests = s.requests := rfl
@[simp] theorem finish_hostData (e : ErrCode) (s : State) : (finish e s).hostData = s.hostData := rfl
@[simp] theorem finish_peerBusy (e : ErrCode) (s : State) : (finish e s).peerBusy = s.peerBusy := rfl

/-! ### accept -/

@[simp] theorem accept_chkcrc (s : State) : (accept s).chkcrc = s.chkcrc := rfl
@[simp] theorem accept_crcfatal (s : State) : (accept s).crcfatal = s.crcfatal := rfl
@[simp] theorem accept_ie (s : State) : (accept s).ie = s.ie := rfl
@[simp] theorem accept_done (s : State) : (accept s).done = false := rfl
@[simp] theorem accept_err (s : State) : (accept s).err = s.err := rfl
@[simp] theorem accept_crcwarn (s : State) : (accept s).crcwarn = s.crcwarn := rfl
@[simp] theorem accept_ovr (s : State) : (accept s).ovr = s.ovr := rfl
@[simp] theorem accept_cfgerr (s : State) : (accept s).cfgerr = s.cfgerr := rfl
@[simp] theorem accept_failcnt (s : State) : (accept s).failcnt = s.failcnt := rfl
@[simp] theorem accept_addr (s : State) : (accept s).addr = s.addr := rfl
@[simp] theorem accept_lock (s : State) : (accept s).lock = s.lock := rfl
@[simp] theorem accept_opcode (s : State) : (accept s).opcode = s.opcode := rfl
@[simp] theorem accept_settle (s : State) : (accept s).settle = s.settle := rfl
@[simp] theorem accept_rdreg (s : State) : (accept s).rdreg = s.rdreg := rfl
@[simp] theorem accept_arg0 (s : State) : (accept s).arg0 = s.arg0 := rfl
@[simp] theorem accept_arg1 (s : State) : (accept s).arg1 = s.arg1 := rfl
@[simp] theorem accept_result (s : State) : (accept s).result = s.result := rfl
@[simp] theorem accept_wfail (s : State) : (accept s).wfail = s.wfail := rfl
@[simp] theorem accept_tMin (s : State) : (accept s).tMin = s.tMin := rfl
@[simp] theorem accept_tSpan (s : State) : (accept s).tSpan = s.tSpan := rfl
@[simp] theorem accept_rhMin (s : State) : (accept s).rhMin = s.rhMin := rfl
@[simp] theorem accept_rhSpan (s : State) : (accept s).rhSpan = s.rhSpan := rfl
@[simp] theorem accept_rhFloor (s : State) : (accept s).rhFloor = s.rhFloor := rfl
@[simp] theorem accept_betaW (s : State) : (accept s).betaW = s.betaW := rfl
@[simp] theorem accept_lambdaW (s : State) : (accept s).lambdaW = s.lambdaW := rfl
@[simp] theorem accept_betaI (s : State) : (accept s).betaI = s.betaI := rfl
@[simp] theorem accept_lambdaI (s : State) : (accept s).lambdaI = s.lambdaI := rfl
@[simp] theorem accept_tx (s : State) : (accept s).tx = s.tx := rfl
@[simp] theorem accept_rx (s : State) : (accept s).rx = s.rx := rfl
@[simp] theorem accept_xs (s : State) : (accept s).xs = s.xs := rfl
@[simp] theorem accept_phase (s : State) : (accept s).phase = s.phase := rfl
@[simp] theorem accept_pend (s : State) : (accept s).pend = s.pend := rfl
@[simp] theorem accept_scnt (s : State) : (accept s).scnt = s.scnt := rfl
@[simp] theorem accept_inputs (s : State) : (accept s).inputs = s.inputs := rfl
@[simp] theorem accept_requests (s : State) : (accept s).requests = s.requests := rfl
@[simp] theorem accept_hostData (s : State) : (accept s).hostData = s.hostData := rfl
@[simp] theorem accept_peerBusy (s : State) : (accept s).peerBusy = s.peerBusy := rfl

/-! ### dropCommand -/

@[simp] theorem dropCommand_chkcrc (s : State) : (dropCommand s).chkcrc = s.chkcrc := rfl
@[simp] theorem dropCommand_crcfatal (s : State) : (dropCommand s).crcfatal = s.crcfatal := rfl
@[simp] theorem dropCommand_ie (s : State) : (dropCommand s).ie = s.ie := rfl
@[simp] theorem dropCommand_done (s : State) : (dropCommand s).done = s.done := rfl
@[simp] theorem dropCommand_err (s : State) : (dropCommand s).err = s.err := rfl
@[simp] theorem dropCommand_crcwarn (s : State) : (dropCommand s).crcwarn = s.crcwarn := rfl
@[simp] theorem dropCommand_ovr (s : State) : (dropCommand s).ovr = true := rfl
@[simp] theorem dropCommand_cfgerr (s : State) : (dropCommand s).cfgerr = s.cfgerr := rfl
@[simp] theorem dropCommand_failcnt (s : State) : (dropCommand s).failcnt = s.failcnt := rfl
@[simp] theorem dropCommand_addr (s : State) : (dropCommand s).addr = s.addr := rfl
@[simp] theorem dropCommand_lock (s : State) : (dropCommand s).lock = s.lock := rfl
@[simp] theorem dropCommand_opcode (s : State) : (dropCommand s).opcode = s.opcode := rfl
@[simp] theorem dropCommand_settle (s : State) : (dropCommand s).settle = s.settle := rfl
@[simp] theorem dropCommand_rdreg (s : State) : (dropCommand s).rdreg = s.rdreg := rfl
@[simp] theorem dropCommand_arg0 (s : State) : (dropCommand s).arg0 = s.arg0 := rfl
@[simp] theorem dropCommand_arg1 (s : State) : (dropCommand s).arg1 = s.arg1 := rfl
@[simp] theorem dropCommand_result (s : State) : (dropCommand s).result = s.result := rfl
@[simp] theorem dropCommand_wfail (s : State) : (dropCommand s).wfail = s.wfail := rfl
@[simp] theorem dropCommand_tMin (s : State) : (dropCommand s).tMin = s.tMin := rfl
@[simp] theorem dropCommand_tSpan (s : State) : (dropCommand s).tSpan = s.tSpan := rfl
@[simp] theorem dropCommand_rhMin (s : State) : (dropCommand s).rhMin = s.rhMin := rfl
@[simp] theorem dropCommand_rhSpan (s : State) : (dropCommand s).rhSpan = s.rhSpan := rfl
@[simp] theorem dropCommand_rhFloor (s : State) : (dropCommand s).rhFloor = s.rhFloor := rfl
@[simp] theorem dropCommand_betaW (s : State) : (dropCommand s).betaW = s.betaW := rfl
@[simp] theorem dropCommand_lambdaW (s : State) : (dropCommand s).lambdaW = s.lambdaW := rfl
@[simp] theorem dropCommand_betaI (s : State) : (dropCommand s).betaI = s.betaI := rfl
@[simp] theorem dropCommand_lambdaI (s : State) : (dropCommand s).lambdaI = s.lambdaI := rfl
@[simp] theorem dropCommand_tx (s : State) : (dropCommand s).tx = s.tx := rfl
@[simp] theorem dropCommand_rx (s : State) : (dropCommand s).rx = s.rx := rfl
@[simp] theorem dropCommand_xs (s : State) : (dropCommand s).xs = s.xs := rfl
@[simp] theorem dropCommand_phase (s : State) : (dropCommand s).phase = s.phase := rfl
@[simp] theorem dropCommand_pend (s : State) : (dropCommand s).pend = s.pend := rfl
@[simp] theorem dropCommand_scnt (s : State) : (dropCommand s).scnt = s.scnt := rfl
@[simp] theorem dropCommand_inputs (s : State) : (dropCommand s).inputs = s.inputs := rfl
@[simp] theorem dropCommand_requests (s : State) : (dropCommand s).requests = s.requests := rfl
@[simp] theorem dropCommand_hostData (s : State) : (dropCommand s).hostData = s.hostData := rfl
@[simp] theorem dropCommand_peerBusy (s : State) : (dropCommand s).peerBusy = s.peerBusy := rfl

/-! ### writeStatus -/

@[simp] theorem writeStatus_chkcrc (v : Word) (s : State) : (writeStatus v s).chkcrc = s.chkcrc := rfl
@[simp] theorem writeStatus_crcfatal (v : Word) (s : State) : (writeStatus v s).crcfatal = s.crcfatal := rfl
@[simp] theorem writeStatus_ie (v : Word) (s : State) : (writeStatus v s).ie = s.ie := rfl
@[simp] theorem writeStatus_done (v : Word) (s : State) : (writeStatus v s).done = if v.getLsbD 1 then false else s.done := rfl
@[simp] theorem writeStatus_err (v : Word) (s : State) : (writeStatus v s).err = s.err := rfl
@[simp] theorem writeStatus_crcwarn (v : Word) (s : State) : (writeStatus v s).crcwarn = s.crcwarn := rfl
@[simp] theorem writeStatus_ovr (v : Word) (s : State) : (writeStatus v s).ovr = if v.getLsbD 9 then false else s.ovr := rfl
@[simp] theorem writeStatus_cfgerr (v : Word) (s : State) : (writeStatus v s).cfgerr = if v.getLsbD 10 then false else s.cfgerr := rfl
@[simp] theorem writeStatus_failcnt (v : Word) (s : State) : (writeStatus v s).failcnt = s.failcnt := rfl
@[simp] theorem writeStatus_addr (v : Word) (s : State) : (writeStatus v s).addr = s.addr := rfl
@[simp] theorem writeStatus_lock (v : Word) (s : State) : (writeStatus v s).lock = s.lock := rfl
@[simp] theorem writeStatus_opcode (v : Word) (s : State) : (writeStatus v s).opcode = s.opcode := rfl
@[simp] theorem writeStatus_settle (v : Word) (s : State) : (writeStatus v s).settle = s.settle := rfl
@[simp] theorem writeStatus_rdreg (v : Word) (s : State) : (writeStatus v s).rdreg = s.rdreg := rfl
@[simp] theorem writeStatus_arg0 (v : Word) (s : State) : (writeStatus v s).arg0 = s.arg0 := rfl
@[simp] theorem writeStatus_arg1 (v : Word) (s : State) : (writeStatus v s).arg1 = s.arg1 := rfl
@[simp] theorem writeStatus_result (v : Word) (s : State) : (writeStatus v s).result = s.result := rfl
@[simp] theorem writeStatus_wfail (v : Word) (s : State) : (writeStatus v s).wfail = s.wfail := rfl
@[simp] theorem writeStatus_tMin (v : Word) (s : State) : (writeStatus v s).tMin = s.tMin := rfl
@[simp] theorem writeStatus_tSpan (v : Word) (s : State) : (writeStatus v s).tSpan = s.tSpan := rfl
@[simp] theorem writeStatus_rhMin (v : Word) (s : State) : (writeStatus v s).rhMin = s.rhMin := rfl
@[simp] theorem writeStatus_rhSpan (v : Word) (s : State) : (writeStatus v s).rhSpan = s.rhSpan := rfl
@[simp] theorem writeStatus_rhFloor (v : Word) (s : State) : (writeStatus v s).rhFloor = s.rhFloor := rfl
@[simp] theorem writeStatus_betaW (v : Word) (s : State) : (writeStatus v s).betaW = s.betaW := rfl
@[simp] theorem writeStatus_lambdaW (v : Word) (s : State) : (writeStatus v s).lambdaW = s.lambdaW := rfl
@[simp] theorem writeStatus_betaI (v : Word) (s : State) : (writeStatus v s).betaI = s.betaI := rfl
@[simp] theorem writeStatus_lambdaI (v : Word) (s : State) : (writeStatus v s).lambdaI = s.lambdaI := rfl
@[simp] theorem writeStatus_tx (v : Word) (s : State) : (writeStatus v s).tx = s.tx := rfl
@[simp] theorem writeStatus_rx (v : Word) (s : State) : (writeStatus v s).rx = s.rx := rfl
@[simp] theorem writeStatus_xs (v : Word) (s : State) : (writeStatus v s).xs = s.xs := rfl
@[simp] theorem writeStatus_phase (v : Word) (s : State) : (writeStatus v s).phase = s.phase := rfl
@[simp] theorem writeStatus_pend (v : Word) (s : State) : (writeStatus v s).pend = s.pend := rfl
@[simp] theorem writeStatus_scnt (v : Word) (s : State) : (writeStatus v s).scnt = s.scnt := rfl
@[simp] theorem writeStatus_inputs (v : Word) (s : State) : (writeStatus v s).inputs = s.inputs := rfl
@[simp] theorem writeStatus_requests (v : Word) (s : State) : (writeStatus v s).requests = s.requests := rfl
@[simp] theorem writeStatus_hostData (v : Word) (s : State) : (writeStatus v s).hostData = s.hostData := rfl
@[simp] theorem writeStatus_peerBusy (v : Word) (s : State) : (writeStatus v s).peerBusy = s.peerBusy := rfl

/-! ### writeCtrl -/

@[simp] theorem writeCtrl_chkcrc (v : Word) (s : State) : (writeCtrl v s).chkcrc = v.getLsbD 0 := rfl
@[simp] theorem writeCtrl_crcfatal (v : Word) (s : State) : (writeCtrl v s).crcfatal = v.getLsbD 1 := rfl
@[simp] theorem writeCtrl_ie (v : Word) (s : State) : (writeCtrl v s).ie = v.getLsbD 2 := rfl
@[simp] theorem writeCtrl_done (v : Word) (s : State) : (writeCtrl v s).done = s.done := rfl
@[simp] theorem writeCtrl_err (v : Word) (s : State) : (writeCtrl v s).err = s.err := rfl
@[simp] theorem writeCtrl_crcwarn (v : Word) (s : State) : (writeCtrl v s).crcwarn = s.crcwarn := rfl
@[simp] theorem writeCtrl_ovr (v : Word) (s : State) : (writeCtrl v s).ovr = s.ovr := rfl
@[simp] theorem writeCtrl_cfgerr (v : Word) (s : State) : (writeCtrl v s).cfgerr = s.cfgerr := rfl
@[simp] theorem writeCtrl_failcnt (v : Word) (s : State) : (writeCtrl v s).failcnt = s.failcnt := rfl
@[simp] theorem writeCtrl_addr (v : Word) (s : State) : (writeCtrl v s).addr = s.addr := rfl
@[simp] theorem writeCtrl_lock (v : Word) (s : State) : (writeCtrl v s).lock = s.lock := rfl
@[simp] theorem writeCtrl_opcode (v : Word) (s : State) : (writeCtrl v s).opcode = s.opcode := rfl
@[simp] theorem writeCtrl_settle (v : Word) (s : State) : (writeCtrl v s).settle = s.settle := rfl
@[simp] theorem writeCtrl_rdreg (v : Word) (s : State) : (writeCtrl v s).rdreg = s.rdreg := rfl
@[simp] theorem writeCtrl_arg0 (v : Word) (s : State) : (writeCtrl v s).arg0 = s.arg0 := rfl
@[simp] theorem writeCtrl_arg1 (v : Word) (s : State) : (writeCtrl v s).arg1 = s.arg1 := rfl
@[simp] theorem writeCtrl_result (v : Word) (s : State) : (writeCtrl v s).result = s.result := rfl
@[simp] theorem writeCtrl_wfail (v : Word) (s : State) : (writeCtrl v s).wfail = s.wfail := rfl
@[simp] theorem writeCtrl_tMin (v : Word) (s : State) : (writeCtrl v s).tMin = s.tMin := rfl
@[simp] theorem writeCtrl_tSpan (v : Word) (s : State) : (writeCtrl v s).tSpan = s.tSpan := rfl
@[simp] theorem writeCtrl_rhMin (v : Word) (s : State) : (writeCtrl v s).rhMin = s.rhMin := rfl
@[simp] theorem writeCtrl_rhSpan (v : Word) (s : State) : (writeCtrl v s).rhSpan = s.rhSpan := rfl
@[simp] theorem writeCtrl_rhFloor (v : Word) (s : State) : (writeCtrl v s).rhFloor = s.rhFloor := rfl
@[simp] theorem writeCtrl_betaW (v : Word) (s : State) : (writeCtrl v s).betaW = s.betaW := rfl
@[simp] theorem writeCtrl_lambdaW (v : Word) (s : State) : (writeCtrl v s).lambdaW = s.lambdaW := rfl
@[simp] theorem writeCtrl_betaI (v : Word) (s : State) : (writeCtrl v s).betaI = s.betaI := rfl
@[simp] theorem writeCtrl_lambdaI (v : Word) (s : State) : (writeCtrl v s).lambdaI = s.lambdaI := rfl
@[simp] theorem writeCtrl_tx (v : Word) (s : State) : (writeCtrl v s).tx = s.tx := rfl
@[simp] theorem writeCtrl_rx (v : Word) (s : State) : (writeCtrl v s).rx = s.rx := rfl
@[simp] theorem writeCtrl_xs (v : Word) (s : State) : (writeCtrl v s).xs = s.xs := rfl
@[simp] theorem writeCtrl_phase (v : Word) (s : State) : (writeCtrl v s).phase = s.phase := rfl
@[simp] theorem writeCtrl_pend (v : Word) (s : State) : (writeCtrl v s).pend = s.pend := rfl
@[simp] theorem writeCtrl_scnt (v : Word) (s : State) : (writeCtrl v s).scnt = s.scnt := rfl
@[simp] theorem writeCtrl_inputs (v : Word) (s : State) : (writeCtrl v s).inputs = s.inputs := rfl
@[simp] theorem writeCtrl_requests (v : Word) (s : State) : (writeCtrl v s).requests = s.requests := rfl
@[simp] theorem writeCtrl_hostData (v : Word) (s : State) : (writeCtrl v s).hostData = s.hostData := rfl
@[simp] theorem writeCtrl_peerBusy (v : Word) (s : State) : (writeCtrl v s).peerBusy = s.peerBusy := rfl

/-! ### validate -/

@[simp] theorem validate_chkcrc (n : Nat) (s : State) : (validate n s).chkcrc = s.chkcrc := rfl
@[simp] theorem validate_crcfatal (n : Nat) (s : State) : (validate n s).crcfatal = s.crcfatal := rfl
@[simp] theorem validate_ie (n : Nat) (s : State) : (validate n s).ie = s.ie := rfl
@[simp] theorem validate_done (n : Nat) (s : State) : (validate n s).done = s.done := rfl
@[simp] theorem validate_err (n : Nat) (s : State) : (validate n s).err = s.err := rfl
@[simp] theorem validate_crcwarn (n : Nat) (s : State) : (validate n s).crcwarn = decide (failCount s.rx (n / 3) ≠ 0) := rfl
@[simp] theorem validate_ovr (n : Nat) (s : State) : (validate n s).ovr = s.ovr := rfl
@[simp] theorem validate_cfgerr (n : Nat) (s : State) : (validate n s).cfgerr = s.cfgerr := rfl
@[simp] theorem validate_failcnt (n : Nat) (s : State) : (validate n s).failcnt = BitVec.ofNat 5 (failCount s.rx (n / 3)) := rfl
@[simp] theorem validate_addr (n : Nat) (s : State) : (validate n s).addr = s.addr := rfl
@[simp] theorem validate_lock (n : Nat) (s : State) : (validate n s).lock = s.lock := rfl
@[simp] theorem validate_opcode (n : Nat) (s : State) : (validate n s).opcode = s.opcode := rfl
@[simp] theorem validate_settle (n : Nat) (s : State) : (validate n s).settle = s.settle := rfl
@[simp] theorem validate_rdreg (n : Nat) (s : State) : (validate n s).rdreg = s.rdreg := rfl
@[simp] theorem validate_arg0 (n : Nat) (s : State) : (validate n s).arg0 = s.arg0 := rfl
@[simp] theorem validate_arg1 (n : Nat) (s : State) : (validate n s).arg1 = s.arg1 := rfl
@[simp] theorem validate_result (n : Nat) (s : State) : (validate n s).result = s.result := rfl
@[simp] theorem validate_wfail (n : Nat) (s : State) : (validate n s).wfail = failMask s.rx (n / 3) := rfl
@[simp] theorem validate_tMin (n : Nat) (s : State) : (validate n s).tMin = s.tMin := rfl
@[simp] theorem validate_tSpan (n : Nat) (s : State) : (validate n s).tSpan = s.tSpan := rfl
@[simp] theorem validate_rhMin (n : Nat) (s : State) : (validate n s).rhMin = s.rhMin := rfl
@[simp] theorem validate_rhSpan (n : Nat) (s : State) : (validate n s).rhSpan = s.rhSpan := rfl
@[simp] theorem validate_rhFloor (n : Nat) (s : State) : (validate n s).rhFloor = s.rhFloor := rfl
@[simp] theorem validate_betaW (n : Nat) (s : State) : (validate n s).betaW = s.betaW := rfl
@[simp] theorem validate_lambdaW (n : Nat) (s : State) : (validate n s).lambdaW = s.lambdaW := rfl
@[simp] theorem validate_betaI (n : Nat) (s : State) : (validate n s).betaI = s.betaI := rfl
@[simp] theorem validate_lambdaI (n : Nat) (s : State) : (validate n s).lambdaI = s.lambdaI := rfl
@[simp] theorem validate_tx (n : Nat) (s : State) : (validate n s).tx = s.tx := rfl
@[simp] theorem validate_rx (n : Nat) (s : State) : (validate n s).rx = s.rx := rfl
@[simp] theorem validate_xs (n : Nat) (s : State) : (validate n s).xs = s.xs := rfl
@[simp] theorem validate_phase (n : Nat) (s : State) : (validate n s).phase = s.phase := rfl
@[simp] theorem validate_pend (n : Nat) (s : State) : (validate n s).pend = s.pend := rfl
@[simp] theorem validate_scnt (n : Nat) (s : State) : (validate n s).scnt = s.scnt := rfl
@[simp] theorem validate_inputs (n : Nat) (s : State) : (validate n s).inputs = s.inputs := rfl
@[simp] theorem validate_requests (n : Nat) (s : State) : (validate n s).requests = s.requests := rfl
@[simp] theorem validate_hostData (n : Nat) (s : State) : (validate n s).hostData = s.hostData := rfl
@[simp] theorem validate_peerBusy (n : Nat) (s : State) : (validate n s).peerBusy = s.peerBusy := rfl

/-! ### issue -/

@[simp] theorem issue_chkcrc (r : Request) (s : State) : (issue r s).chkcrc = s.chkcrc := rfl
@[simp] theorem issue_crcfatal (r : Request) (s : State) : (issue r s).crcfatal = s.crcfatal := rfl
@[simp] theorem issue_ie (r : Request) (s : State) : (issue r s).ie = s.ie := rfl
@[simp] theorem issue_done (r : Request) (s : State) : (issue r s).done = s.done := rfl
@[simp] theorem issue_err (r : Request) (s : State) : (issue r s).err = s.err := rfl
@[simp] theorem issue_crcwarn (r : Request) (s : State) : (issue r s).crcwarn = s.crcwarn := rfl
@[simp] theorem issue_ovr (r : Request) (s : State) : (issue r s).ovr = s.ovr := rfl
@[simp] theorem issue_cfgerr (r : Request) (s : State) : (issue r s).cfgerr = s.cfgerr := rfl
@[simp] theorem issue_failcnt (r : Request) (s : State) : (issue r s).failcnt = s.failcnt := rfl
@[simp] theorem issue_addr (r : Request) (s : State) : (issue r s).addr = s.addr := rfl
@[simp] theorem issue_lock (r : Request) (s : State) : (issue r s).lock = s.lock := rfl
@[simp] theorem issue_opcode (r : Request) (s : State) : (issue r s).opcode = s.opcode := rfl
@[simp] theorem issue_settle (r : Request) (s : State) : (issue r s).settle = s.settle := rfl
@[simp] theorem issue_rdreg (r : Request) (s : State) : (issue r s).rdreg = s.rdreg := rfl
@[simp] theorem issue_arg0 (r : Request) (s : State) : (issue r s).arg0 = s.arg0 := rfl
@[simp] theorem issue_arg1 (r : Request) (s : State) : (issue r s).arg1 = s.arg1 := rfl
@[simp] theorem issue_result (r : Request) (s : State) : (issue r s).result = s.result := rfl
@[simp] theorem issue_wfail (r : Request) (s : State) : (issue r s).wfail = s.wfail := rfl
@[simp] theorem issue_tMin (r : Request) (s : State) : (issue r s).tMin = s.tMin := rfl
@[simp] theorem issue_tSpan (r : Request) (s : State) : (issue r s).tSpan = s.tSpan := rfl
@[simp] theorem issue_rhMin (r : Request) (s : State) : (issue r s).rhMin = s.rhMin := rfl
@[simp] theorem issue_rhSpan (r : Request) (s : State) : (issue r s).rhSpan = s.rhSpan := rfl
@[simp] theorem issue_rhFloor (r : Request) (s : State) : (issue r s).rhFloor = s.rhFloor := rfl
@[simp] theorem issue_betaW (r : Request) (s : State) : (issue r s).betaW = s.betaW := rfl
@[simp] theorem issue_lambdaW (r : Request) (s : State) : (issue r s).lambdaW = s.lambdaW := rfl
@[simp] theorem issue_betaI (r : Request) (s : State) : (issue r s).betaI = s.betaI := rfl
@[simp] theorem issue_lambdaI (r : Request) (s : State) : (issue r s).lambdaI = s.lambdaI := rfl
@[simp] theorem issue_tx (r : Request) (s : State) : (issue r s).tx = s.tx := rfl
@[simp] theorem issue_rx (r : Request) (s : State) : (issue r s).rx = s.rx := rfl
@[simp] theorem issue_xs (r : Request) (s : State) : (issue r s).xs = s.xs := rfl
@[simp] theorem issue_phase (r : Request) (s : State) : (issue r s).phase = s.phase := rfl
@[simp] theorem issue_pend (r : Request) (s : State) : (issue r s).pend = s.pend := rfl
@[simp] theorem issue_scnt (r : Request) (s : State) : (issue r s).scnt = s.scnt := rfl
@[simp] theorem issue_inputs (r : Request) (s : State) : (issue r s).inputs = s.inputs := rfl
@[simp] theorem issue_requests (r : Request) (s : State) : (issue r s).requests = s.requests ++ [r] := rfl
@[simp] theorem issue_hostData (r : Request) (s : State) : (issue r s).hostData = s.hostData := rfl
@[simp] theorem issue_peerBusy (r : Request) (s : State) : (issue r s).peerBusy = s.peerBusy := rfl

/-! ### startTransaction -/

@[simp] theorem startTransaction_chkcrc (x : Snapshot) (s : State) : (startTransaction x s).chkcrc = s.chkcrc := rfl
@[simp] theorem startTransaction_crcfatal (x : Snapshot) (s : State) : (startTransaction x s).crcfatal = s.crcfatal := rfl
@[simp] theorem startTransaction_ie (x : Snapshot) (s : State) : (startTransaction x s).ie = s.ie := rfl
@[simp] theorem startTransaction_done (x : Snapshot) (s : State) : (startTransaction x s).done = s.done := rfl
@[simp] theorem startTransaction_err (x : Snapshot) (s : State) : (startTransaction x s).err = s.err := rfl
@[simp] theorem startTransaction_crcwarn (x : Snapshot) (s : State) : (startTransaction x s).crcwarn = false := rfl
@[simp] theorem startTransaction_ovr (x : Snapshot) (s : State) : (startTransaction x s).ovr = s.ovr := rfl
@[simp] theorem startTransaction_cfgerr (x : Snapshot) (s : State) : (startTransaction x s).cfgerr = s.cfgerr := rfl
@[simp] theorem startTransaction_failcnt (x : Snapshot) (s : State) : (startTransaction x s).failcnt = 0 := rfl
@[simp] theorem startTransaction_addr (x : Snapshot) (s : State) : (startTransaction x s).addr = s.addr := rfl
@[simp] theorem startTransaction_lock (x : Snapshot) (s : State) : (startTransaction x s).lock = s.lock := rfl
@[simp] theorem startTransaction_opcode (x : Snapshot) (s : State) : (startTransaction x s).opcode = s.opcode := rfl
@[simp] theorem startTransaction_settle (x : Snapshot) (s : State) : (startTransaction x s).settle = s.settle := rfl
@[simp] theorem startTransaction_rdreg (x : Snapshot) (s : State) : (startTransaction x s).rdreg = s.rdreg := rfl
@[simp] theorem startTransaction_arg0 (x : Snapshot) (s : State) : (startTransaction x s).arg0 = s.arg0 := rfl
@[simp] theorem startTransaction_arg1 (x : Snapshot) (s : State) : (startTransaction x s).arg1 = s.arg1 := rfl
@[simp] theorem startTransaction_result (x : Snapshot) (s : State) : (startTransaction x s).result = s.result := rfl
@[simp] theorem startTransaction_wfail (x : Snapshot) (s : State) : (startTransaction x s).wfail = 0 := rfl
@[simp] theorem startTransaction_tMin (x : Snapshot) (s : State) : (startTransaction x s).tMin = s.tMin := rfl
@[simp] theorem startTransaction_tSpan (x : Snapshot) (s : State) : (startTransaction x s).tSpan = s.tSpan := rfl
@[simp] theorem startTransaction_rhMin (x : Snapshot) (s : State) : (startTransaction x s).rhMin = s.rhMin := rfl
@[simp] theorem startTransaction_rhSpan (x : Snapshot) (s : State) : (startTransaction x s).rhSpan = s.rhSpan := rfl
@[simp] theorem startTransaction_rhFloor (x : Snapshot) (s : State) : (startTransaction x s).rhFloor = s.rhFloor := rfl
@[simp] theorem startTransaction_betaW (x : Snapshot) (s : State) : (startTransaction x s).betaW = s.betaW := rfl
@[simp] theorem startTransaction_lambdaW (x : Snapshot) (s : State) : (startTransaction x s).lambdaW = s.lambdaW := rfl
@[simp] theorem startTransaction_betaI (x : Snapshot) (s : State) : (startTransaction x s).betaI = s.betaI := rfl
@[simp] theorem startTransaction_lambdaI (x : Snapshot) (s : State) : (startTransaction x s).lambdaI = s.lambdaI := rfl
@[simp] theorem startTransaction_tx (x : Snapshot) (s : State) : (startTransaction x s).tx = s.tx := rfl
@[simp] theorem startTransaction_rx (x : Snapshot) (s : State) : (startTransaction x s).rx = s.rx := rfl
@[simp] theorem startTransaction_xs (x : Snapshot) (s : State) : (startTransaction x s).xs = some x := rfl
@[simp] theorem startTransaction_phase (x : Snapshot) (s : State) : (startTransaction x s).phase = .write := rfl
@[simp] theorem startTransaction_pend (x : Snapshot) (s : State) : (startTransaction x s).pend = .wr := rfl
@[simp] theorem startTransaction_scnt (x : Snapshot) (s : State) : (startTransaction x s).scnt = s.scnt := rfl
@[simp] theorem startTransaction_inputs (x : Snapshot) (s : State) : (startTransaction x s).inputs = s.inputs := rfl
@[simp] theorem startTransaction_requests (x : Snapshot) (s : State) : (startTransaction x s).requests = s.requests ++ [writeRequest x] := rfl
@[simp] theorem startTransaction_hostData (x : Snapshot) (s : State) : (startTransaction x s).hostData = s.hostData := rfl
@[simp] theorem startTransaction_peerBusy (x : Snapshot) (s : State) : (startTransaction x s).peerBusy = s.peerBusy := rfl

/-! ### applyReset -/

@[simp] theorem applyReset_chkcrc (s : State) : (applyReset s).chkcrc = State.reset.chkcrc := rfl
@[simp] theorem applyReset_crcfatal (s : State) : (applyReset s).crcfatal = State.reset.crcfatal := rfl
@[simp] theorem applyReset_ie (s : State) : (applyReset s).ie = State.reset.ie := rfl
@[simp] theorem applyReset_done (s : State) : (applyReset s).done = State.reset.done := rfl
@[simp] theorem applyReset_err (s : State) : (applyReset s).err = State.reset.err := rfl
@[simp] theorem applyReset_crcwarn (s : State) : (applyReset s).crcwarn = State.reset.crcwarn := rfl
@[simp] theorem applyReset_ovr (s : State) : (applyReset s).ovr = State.reset.ovr := rfl
@[simp] theorem applyReset_cfgerr (s : State) : (applyReset s).cfgerr = State.reset.cfgerr := rfl
@[simp] theorem applyReset_failcnt (s : State) : (applyReset s).failcnt = State.reset.failcnt := rfl
@[simp] theorem applyReset_addr (s : State) : (applyReset s).addr = State.reset.addr := rfl
@[simp] theorem applyReset_lock (s : State) : (applyReset s).lock = State.reset.lock := rfl
@[simp] theorem applyReset_opcode (s : State) : (applyReset s).opcode = State.reset.opcode := rfl
@[simp] theorem applyReset_settle (s : State) : (applyReset s).settle = State.reset.settle := rfl
@[simp] theorem applyReset_rdreg (s : State) : (applyReset s).rdreg = State.reset.rdreg := rfl
@[simp] theorem applyReset_arg0 (s : State) : (applyReset s).arg0 = State.reset.arg0 := rfl
@[simp] theorem applyReset_arg1 (s : State) : (applyReset s).arg1 = State.reset.arg1 := rfl
@[simp] theorem applyReset_result (s : State) : (applyReset s).result = State.reset.result := rfl
@[simp] theorem applyReset_wfail (s : State) : (applyReset s).wfail = State.reset.wfail := rfl
@[simp] theorem applyReset_tMin (s : State) : (applyReset s).tMin = State.reset.tMin := rfl
@[simp] theorem applyReset_tSpan (s : State) : (applyReset s).tSpan = State.reset.tSpan := rfl
@[simp] theorem applyReset_rhMin (s : State) : (applyReset s).rhMin = State.reset.rhMin := rfl
@[simp] theorem applyReset_rhSpan (s : State) : (applyReset s).rhSpan = State.reset.rhSpan := rfl
@[simp] theorem applyReset_rhFloor (s : State) : (applyReset s).rhFloor = State.reset.rhFloor := rfl
@[simp] theorem applyReset_betaW (s : State) : (applyReset s).betaW = State.reset.betaW := rfl
@[simp] theorem applyReset_lambdaW (s : State) : (applyReset s).lambdaW = State.reset.lambdaW := rfl
@[simp] theorem applyReset_betaI (s : State) : (applyReset s).betaI = State.reset.betaI := rfl
@[simp] theorem applyReset_lambdaI (s : State) : (applyReset s).lambdaI = State.reset.lambdaI := rfl
@[simp] theorem applyReset_tx (s : State) : (applyReset s).tx = State.reset.tx := rfl
@[simp] theorem applyReset_rx (s : State) : (applyReset s).rx = State.reset.rx := rfl
@[simp] theorem applyReset_xs (s : State) : (applyReset s).xs = State.reset.xs := rfl
@[simp] theorem applyReset_phase (s : State) : (applyReset s).phase = State.reset.phase := rfl
@[simp] theorem applyReset_pend (s : State) : (applyReset s).pend = State.reset.pend := rfl
@[simp] theorem applyReset_scnt (s : State) : (applyReset s).scnt = State.reset.scnt := rfl
@[simp] theorem applyReset_inputs (s : State) : (applyReset s).inputs = s.inputs := rfl
@[simp] theorem applyReset_requests (s : State) : (applyReset s).requests = s.requests := rfl
@[simp] theorem applyReset_hostData (s : State) : (applyReset s).hostData = s.hostData := rfl
@[simp] theorem applyReset_peerBusy (s : State) : (applyReset s).peerBusy = s.peerBusy := rfl

end Sys2Proof.Machine
end

