-- ==== Sys2Proof/Laws/Exec.lean ====
section
/-!
SUPPORT. What a command can do, said once: the two endings of each meaning, and over all commands the one case distinction that frames and
invariants are derived from: a command ends, having written RESULT, TX or the record of a validation at most, or it is an accepted XFER.
-/
namespace Sys2Proof.Machine

/-! ### The validator -/

theorem failMask_getLsbD (rx : Memory) (n i : Nat) (hi : i < 32) : (failMask rx n).getLsbD i = (decide (i < n) && wordFails rx i) := by
  induction n with
  | zero => simp [failMask]
  | succ n ih =>
    simp only [failMask]
    split
    · rename_i h
      rw [BitVec.getLsbD_or, ih, BitVec.getLsbD_twoPow]
      by_cases hin : n = i
      · subst hin; simp [h, hi]
      · have : (decide (i < n + 1)) = decide (i < n) := by congr 1; simp; omega
        rw [this]; simp [hin]
    · rename_i h
      rw [ih]
      by_cases hin : n = i
      · subst hin; simp [h]
      · have : (decide (i < n + 1)) = decide (i < n) := by congr 1; simp; omega
        rw [this]

theorem bitsSet_eq_failCount (rx : Memory) (v : Word) (n m : Nat) (hm : m ≤ 32)
    (h : ∀ i, i < 32 → v.getLsbD i = (decide (i < n) && wordFails rx i)) : bitsSet v m = failCount rx (min n m) := by
  induction m with
  | zero => simp [bitsSet, failCount]
  | succ m ih =>
    have ih := ih (by omega)
    simp only [bitsSet, h m (by omega), ih]
    by_cases hmn : m < n
    · have h1 : min n (m + 1) = m + 1 := by omega
      have h2 : min n m = m := by omega
      simp [h2, hmn, failCount]
    · have h1 : min n (m + 1) = min n m := by omega
      simp [h1, hmn]

theorem failCount_le (rx : Memory) (n : Nat) : failCount rx n ≤ n := by
  induction n with
  | zero => simp [failCount]
  | succ n ih => simp only [failCount]; split <;> omega

theorem failCount_pos_iff (rx : Memory) (n : Nat) (hn : n ≤ 32) : failCount rx n ≠ 0 ↔ failMask rx n ≠ 0 := by
  have h := bitsSet_eq_failCount rx (failMask rx n) n 32 (by omega) (fun i hi => failMask_getLsbD rx n i hi)
  rw [Nat.min_eq_left hn] at h
  rw [← h]
  constructor
  · intro h0 hz
    apply h0
    rw [hz]
    have : ∀ m, bitsSet 0#32 m = 0 := by
      intro m
      induction m with
      | zero => rfl
      | succ m ih => simp [bitsSet, ih]
    exact this 32
  · intro h0 hz
    apply h0
    have : ∀ m i, bitsSet (failMask rx n) m = 0 → i < m → (failMask rx n).getLsbD i = false := by
      intro m
      induction m with
      | zero => intro i _ hi; omega
      | succ m ih =>
        intro i h hi
        simp only [bitsSet] at h
        split at h
        · omega
        · rename_i hbit
          by_cases him : i = m
          · rw [him]; exact Bool.not_eq_true _ ▸ hbit
          · exact ih i h (by omega)
    apply BitVec.eq_of_getLsbD_eq
    intro i hi
    rw [this 32 i hz hi]; simp

/-- The record that `validate` writes for at most RXBUF_SIZE bytes (R71): its mask bit by bit, its count and its flag. -/
theorem validate_record (n : Nat) (s : State) (hn : n ≤ Config.rxBufSize) :
    (∀ i, (validate n s).wfail.getLsbD i = (decide (i < n / 3) && wordFails s.rx i))
    ∧ (validate n s).failcnt.toNat = bitsSet (validate n s).wfail Config.nWords
    ∧ (validate n s).failcnt.toNat = failCount s.rx (n / 3)
    ∧ (validate n s).crcwarn = decide ((validate n s).wfail ≠ 0)
    ∧ ((validate n s).wfail ≠ 0 ↔ failCount s.rx (n / 3) ≠ 0) := by
  have hn' : n ≤ 48 := hn
  have hw : n / 3 ≤ 16 := by omega
  have hle := failCount_le s.rx (n / 3)
  have hcnt : (BitVec.ofNat 5 (failCount s.rx (n / 3))).toNat = failCount s.rx (n / 3) := by
    rw [BitVec.toNat_ofNat]; exact Nat.mod_eq_of_lt (by omega)
  have hbits := bitsSet_eq_failCount s.rx (failMask s.rx (n / 3)) (n / 3) 16 (by omega) (fun i hi => failMask_getLsbD s.rx _ i hi)
  rw [Nat.min_eq_left hw] at hbits
  have hpos := failCount_pos_iff s.rx (n / 3) (by omega)
  refine ⟨fun i => ?_, ?_, hcnt, ?_, hpos.symm⟩
  · by_cases hi : i < 32
    · exact failMask_getLsbD s.rx _ i hi
    · rw [BitVec.getLsbD_of_ge _ _ (by omega)]
      have : ¬ i < n / 3 := by omega
      simp [this]
  · rw [validate_failcnt, hcnt, validate_wfail]; exact hbits.symm
  · rw [validate_crcwarn, validate_wfail]; exact decide_eq_decide.mpr hpos

/-! ### The one case distinction -/

/-- What a command that ends has written besides STATUS and the controller: RESULT, TX and the record of a validation at most. -/
structure Wrote (s m : State) : Prop where
  eq : m = { s with result := m.result, tx := m.tx, wfail := m.wfail, failcnt := m.failcnt, crcwarn := m.crcwarn }
  canonical : s.tx.wf → m.tx.wf
  bounded : (∀ c ∈ s.tx, c.1 < Config.txBufSize) → ∀ c ∈ m.tx, c.1 < Config.txBufSize
  record : (m.wfail = s.wfail ∧ m.failcnt = s.failcnt ∧ m.crcwarn = s.crcwarn)
    ∨ ∃ n, n ≤ Config.rxBufSize ∧ m.wfail = (validate n s).wfail ∧ m.failcnt = (validate n s).failcnt ∧ m.crcwarn = (validate n s).crcwarn

theorem Wrote.refl (s : State) : Wrote s s := ⟨rfl, id, id, .inl ⟨rfl, rfl, rfl⟩⟩

theorem Wrote.ofResult (s : State) (v : Word) : Wrote s { s with result := v } := ⟨rfl, id, id, .inl ⟨rfl, rfl, rfl⟩⟩

theorem Wrote.ofValidate (s : State) (n : Nat) (hn : n ≤ Config.rxBufSize) : Wrote s (validate n s) :=
  ⟨rfl, id, id, .inr ⟨n, hn, rfl, rfl, rfl⟩⟩

/-- The seven commands that write RESULT (R30). -/
def WritesResult (i : Instr) : Prop :=
  i = .crcw ∨ i = .crcv ∨ (∃ buf start count, i = .crcb buf start count) ∨ i = .cvtt ∨ i = .cvtrh ∨ i = .rhice ∨ i = .dewpt

/-- A command ends, having written at most what `Wrote` says, or is an accepted XFER. A command that changes RESULT is one of seven and ends
without error; one that ends with an error other than CRC has written nothing. -/
theorem exec_cases (i : Instr) (s : State) :
    (∃ e m, exec i s = .next (finish e m) ∧ Wrote s m ∧ (m.result = s.result ∨ WritesResult i ∧ e = .none)
      ∧ (e = .none ∨ e = .crc ∨ (e = .badlen ∨ e = .noaddr ∨ e = .domain) ∧ m = s))
    ∨ (∃ opl txlen rxlen, i = .xfer opl txlen rxlen ∧ txlen ≤ Config.txBufSize ∧ rxlen ≤ Config.rxBufSize
      ∧ (s.chkcrc = true → rxlen % 3 = 0) ∧ s.lock = true
      ∧ exec i s = .next (startTransaction (takeSnapshot opl txlen rxlen s) s)) := by
  have hres : ∀ v, WritesResult i → exec i s = completeWith v s → (∃ e m, exec i s = .next (finish e m) ∧ Wrote s m
      ∧ (m.result = s.result ∨ WritesResult i ∧ e = .none) ∧ (e = .none ∨ e = .crc ∨ (e = .badlen ∨ e = .noaddr ∨ e = .domain) ∧ m = s)) :=
    fun v hi h => ⟨.none, { s with result := v }, h, Wrote.ofResult s v, .inr ⟨hi, rfl⟩, .inl rfl⟩
  have herr : ∀ e, (e = .badlen ∨ e = .noaddr ∨ e = .domain) → exec i s = raise e s → (∃ e m, exec i s = .next (finish e m) ∧ Wrote s m
      ∧ (m.result = s.result ∨ WritesResult i ∧ e = .none) ∧ (e = .none ∨ e = .crc ∨ (e = .badlen ∨ e = .noaddr ∨ e = .domain) ∧ m = s)) :=
    fun e he h => ⟨e, s, h, Wrote.refl s, .inl rfl, .inr (.inr ⟨he, rfl⟩)⟩
  cases i with
  | crcw => exact .inl (hres _ (.inl rfl) rfl)
  | crcv => exact .inl (hres _ (.inr (.inl rfl)) rfl)
  | crcb buf start count =>
    left
    by_cases h : bufferSize buf < start + count
    · exact herr .badlen (.inl rfl) (by simp [exec, execCrcb, h])
    · exact hres _ (.inr (.inr (.inl ⟨_, _, _, rfl⟩))) (by simp only [exec, execCrcb, if_neg h]; rfl)
  | crcval len =>
    left
    by_cases h : Config.rxBufSize < len ∨ len % 3 ≠ 0
    · exact herr .badlen (.inl rfl) (by simp only [exec, execCrcval, if_pos h])
    · have hlen : len ≤ Config.rxBufSize := by omega
      by_cases hf : failCount s.rx (len / 3) ≠ 0 ∧ s.crcfatal = true
      · exact ⟨.crc, validate len s, by simp only [exec, execCrcval, if_neg h, validateAndFinish, if_pos hf]; rfl,
          Wrote.ofValidate s len hlen, .inl rfl, .inr (.inl rfl)⟩
      · exact ⟨.none, validate len s, by simp only [exec, execCrcval, if_neg h, validateAndFinish, if_neg hf]; rfl,
          Wrote.ofValidate s len hlen, .inl rfl, .inl rfl⟩
  | txpack idx =>
    left
    by_cases h : Config.txBufSize < idx + 3
    · exact herr .badlen (.inl rfl) (by simp only [exec, execTxpack, if_pos h])
    · refine ⟨.none, { s with tx := s.tx.writeBytes idx (dataBytes s ++ [crc8 (dataBytes s)]) },
        by simp only [exec, execTxpack, if_neg h]; rfl, ⟨rfl, fun hw => Memory.writeBytes_wf _ _ _ hw, fun hb c hc => ?_, .inl ⟨rfl, rfl, rfl⟩⟩,
        .inl rfl, .inl rfl⟩
      rcases Memory.mem_writeBytes hc with hc | hc
      · have : (dataBytes s ++ [crc8 (dataBytes s)]).length = 3 := rfl
        omega
      · exact hb c hc
  | cvtt => exact .inl (hres _ (.inr (.inr (.inr (.inl rfl)))) rfl)
  | cvtrh => exact .inl (hres _ (.inr (.inr (.inr (.inr (.inl rfl))))) rfl)
  | rhice =>
    left
    have hi : WritesResult .rhice := .inr (.inr (.inr (.inr (.inr (.inl rfl)))))
    by_cases h1 : 0 ≤ operandT s
    · exact hres _ hi (by simp only [exec, execRhice, if_pos h1]; rfl)
    by_cases h2 : s.lambdaW = 0 ∨ s.lambdaI = 0
    · exact herr .domain (.inr (.inr rfl)) (by simp only [exec, execRhice, if_neg h1, if_pos h2])
    rcases h3 : (rhiceNeighbours s.arg0 s.arg1 s.betaW s.lambdaW s.betaI s.lambdaI).1 with _ | pair
    · exact herr .domain (.inr (.inr rfl)) (by simp only [exec, execRhice, if_neg h1, if_neg h2, h3])
    · exact hres _ hi (by simp only [exec, execRhice, if_neg h1, if_neg h2, h3]; rfl)
  | dewpt =>
    left
    have hi : WritesResult .dewpt := .inr (.inr (.inr (.inr (.inr (.inr rfl)))))
    by_cases h1 : 0 < operandRh s
    · by_cases h2 : (((magnusSel s).2).toNat : Int) + operandT s = 0
      · exact herr .domain (.inr (.inr rfl)) (by simp only [exec, execDewpt, dif_pos h1, if_pos h2])
      by_cases h3 : dewptDenZero s.arg0 s.arg1 (magnusSel s).1 (magnusSel s).2 = true
      · exact herr .domain (.inr (.inr rfl)) (by simp only [exec, execDewpt, dif_pos h1, if_neg h2, if_pos h3])
      rcases h4 : (dewptNeighbours s.arg0 s.arg1 (magnusSel s).1 (magnusSel s).2 h1).1 with _ | pair
      · exact herr .domain (.inr (.inr rfl)) (by simp only [exec, execDewpt, dif_pos h1, if_neg h2, if_neg h3, h4])
      · exact hres _ hi (by simp only [exec, execDewpt, dif_pos h1, if_neg h2, if_neg h3, h4]; rfl)
    · exact herr .domain (.inr (.inr rfl)) (by simp only [exec, execDewpt, dif_neg h1])
  | xfer opl txlen rxlen =>
    by_cases h1 : Config.txBufSize < txlen
    · exact .inl (herr .badlen (.inl rfl) (by simp only [exec, execXfer, if_pos h1]))
    by_cases h2 : Config.rxBufSize < rxlen
    · exact .inl (herr .badlen (.inl rfl) (by simp only [exec, execXfer, if_neg h1, if_pos h2]))
    by_cases h3 : s.chkcrc = true ∧ rxlen % 3 ≠ 0
    · exact .inl (herr .badlen (.inl rfl) (by simp only [exec, execXfer, if_neg h1, if_neg h2, if_pos h3]))
    by_cases h4 : s.lock = false
    · exact .inl (herr .noaddr (.inr (.inl rfl)) (by simp only [exec, execXfer, if_neg h1, if_neg h2, if_neg h3, if_pos h4]))
    · refine .inr ⟨opl, txlen, rxlen, rfl, by omega, by omega, fun hc => ?_, by simpa using h4,
        by simp only [exec, execXfer, if_neg h1, if_neg h2, if_neg h3, if_neg h4]⟩
      by_contra h5
      exact h3 ⟨hc, h5⟩

end Sys2Proof.Machine
end

