-- ==== Sys2Proof/Laws/Step.lean ====
section
/-!
SUPPORT. What a step can do, said once: serving an event, a write of each register, and the one case distinction over all events, from which
the invariants and the rules about the whole machine are derived.
-/
namespace Sys2Proof.Machine

/-! ### Serving the oldest event -/

theorem step_cons {s : State} {e : Event} {rest : List Event} (h : s.inputs = e :: rest) : step s = serve e { s with inputs := rest } := by
  simp only [step, h]

theorem step_nil {s : State} (h : s.inputs = []) : step s = .next s := by simp only [step, h]

theorem busy_iff (s : State) : s.busy = true ↔ s.phase ≠ .idle := by simp [State.busy]

theorem busy_eq_false_iff (s : State) : s.busy = false ↔ s.phase = .idle := by simp [State.busy]

theorem guardBus_next {s : State} (h : s.phase ≠ .idle → s.peerBusy = false) : guardBus (.next s) = .next s := by
  simp only [guardBus]
  rw [if_neg]
  simpa only [Bool.and_eq_true, busy_iff, not_and, Bool.not_eq_true] using h

/-- A step answers `t` exactly where the event's own effect is `t` and leaves at most one transaction on the bus. -/
theorem serve_eq_next_iff {e : Event} {s t : State} :
    serve e s = .next t ↔ act e s = .next t ∧ (t.phase ≠ .idle → t.peerBusy = false) := by
  unfold serve
  constructor
  · intro h
    rcases ha : act e s with u | f | f <;> rw [ha] at h
    · by_cases hu : u.phase ≠ .idle → u.peerBusy = false
      · rw [guardBus_next hu] at h
        cases h
        exact ⟨rfl, hu⟩
      · exfalso
        simp only [guardBus] at h
        rw [if_pos] at h
        · cases h
        · simp only [Bool.and_eq_true, busy_iff]
          push Not at hu
          exact ⟨hu.1, by simpa using hu.2⟩
    · cases h
    · cases h
  · rintro ⟨ha, ht⟩
    rw [ha, guardBus_next ht]

theorem legalAccess_iff (width : Width) (off : BitVec 12) : legalAccess width off = true ↔ width = .w32 ∧ off.toNat % 4 = 0 := by
  have h : (off.extractLsb' 0 2 == 0) = decide (off.toNat % 4 = 0) := by
    rw [Bool.eq_iff_iff]
    simp only [beq_iff_eq, decide_eq_true_eq]
    rw [← BitVec.toNat_inj]
    simp [BitVec.extractLsb'_toNat]
  rw [legalAccess, h, Bool.and_eq_true, decide_eq_true_eq, decide_eq_true_eq]

theorem act_hostRead {off : BitVec 12} (hoff : off.toNat % 4 = 0) (s : State) :
    act (.hostRead .w32 off) s = .next { s with hostData := some (memRead off s) } :=
  if_pos ((legalAccess_iff _ _).mpr ⟨rfl, hoff⟩)

theorem act_hostWrite {off : BitVec 12} (hoff : off.toNat % 4 = 0) (v : Word) (s : State) :
    act (.hostWrite .w32 off v) s = memWrite off v s :=
  if_pos ((legalAccess_iff _ _).mpr ⟨rfl, hoff⟩)

/-! ### The steps of a transaction, each where it applies -/

theorem afterSettle_of_reads {x : Snapshot} (s : State) (h : x.rxlen.toNat ≠ 0) :
    afterSettle x s = { s with
      scnt := 0, requests := s.requests ++ [.readBlock x.addr x.rdreg x.rxlen.toNat], pend := .rd, phase := .read } :=
  if_neg (fun h0 => h (congrArg BitVec.toNat h0))

theorem afterSettle_of_no_read {x : Snapshot} (s : State) (h : x.rxlen.toNat = 0) : afterSettle x s = finish .none s :=
  if_pos (BitVec.eq_of_toNat_eq h)

theorem onWriteOk_of_outstanding {s : State} {x : Snapshot} (hp : s.phase = .write) (hw : s.pend = .wr) (hx : s.xs = some x) :
    onWriteOk s = .next (if x.settle.toNat = 0 then afterSettle x { s with pend := .none }
      else { s with pend := .none, scnt := BitVec.ofNat 17 (x.settle.toNat + 1), phase := .settle }) := by
  have ho : s.writeOutstanding = true := by simp [State.writeOutstanding, hp, hw]
  have hc : x.settle.zeroExtend 17 + 1 = BitVec.ofNat 17 (x.settle.toNat + 1) := by
    rw [← BitVec.toNat_inj]
    simp
  unfold onWriteOk withSnapshot
  rw [if_pos ho, hx]
  simp only
  by_cases h : x.settle.toNat = 0
  · rw [if_pos (BitVec.eq_of_toNat_eq h), if_pos h]
  · rw [if_neg (fun h0 => h (congrArg BitVec.toNat h0)), if_neg h, hc]

theorem onWriteErr_of_outstanding {s : State} (hp : s.phase = .write) (hw : s.pend = .wr) : onWriteErr s = .next (finish .buswr s) := by
  have ho : s.writeOutstanding = true := by simp [State.writeOutstanding, hp, hw]
  unfold onWriteErr
  rw [if_pos ho]
  rfl

theorem onReadErr_of_outstanding {s : State} (hp : s.phase = .read) (hw : s.pend = .rd) : onReadErr s = .next (finish .busrd s) := by
  have ho : s.readOutstanding = true := by simp [State.readOutstanding, hp, hw]
  unfold onReadErr
  rw [if_pos ho]
  rfl

theorem onTick_counting {s : State} (hp : s.phase = .settle) (h : 1 < s.scnt.toNat) :
    onTick s = .next { s with scnt := BitVec.ofNat 17 (s.scnt.toNat - 1) } := by
  have h0 : s.scnt ≠ 0 := by rintro h0; simp [h0] at h
  have h1 : s.scnt ≠ 1 := by rintro h1; simp [h1] at h
  have hc : s.scnt - 1 = BitVec.ofNat 17 (s.scnt.toNat - 1) := by
    have := s.scnt.isLt
    rw [← BitVec.toNat_inj, BitVec.toNat_sub, BitVec.toNat_ofNat]
    simp
    omega
  unfold onTick
  rw [if_pos ⟨hp, h0⟩, if_neg h1, hc]

theorem onTick_last {s : State} {x : Snapshot} (hp : s.phase = .settle) (h : s.scnt.toNat = 1) (hx : s.xs = some x) :
    onTick s = .next (afterSettle x s) := by
  have h1 : s.scnt = 1 := BitVec.eq_of_toNat_eq h
  unfold onTick withSnapshot
  rw [if_pos ⟨hp, by rw [h1]; decide⟩, if_pos h1, hx]

theorem onTick_outside {s : State} (hp : s.phase ≠ .settle) : onTick s = .next s := if_neg (fun h => hp h.1)

theorem onReadOk_of_outstanding {s : State} {x : Snapshot} {bytes : List Byte} (hp : s.phase = .read) (hw : s.pend = .rd) (hx : s.xs = some x)
    (hn : bytes.length = x.rxlen.toNat) :
    onReadOk bytes s = dispatchChecksum x { s with pend := .none, rx := s.rx.writeBytes 0 bytes } := by
  have ho : s.readOutstanding = true := by simp [State.readOutstanding, hp, hw]
  unfold onReadOk withSnapshot
  rw [if_pos ho, hx]
  exact if_pos hn

/-! ### Writing a register -/

/-- What a host write that submits no command has changed: the registers the host sets up, the acknowledged bits, and the buffers at most. -/
structure HostWrote (s t : State) : Prop where
  eq : t = { s with
    chkcrc := t.chkcrc, crcfatal := t.crcfatal, ie := t.ie, done := t.done, ovr := t.ovr, cfgerr := t.cfgerr, addr := t.addr, lock := t.lock
    opcode := t.opcode, settle := t.settle, rdreg := t.rdreg, arg0 := t.arg0, arg1 := t.arg1, tMin := t.tMin, tSpan := t.tSpan
    rhMin := t.rhMin, rhSpan := t.rhSpan, rhFloor := t.rhFloor, betaW := t.betaW, lambdaW := t.lambdaW, betaI := t.betaI
    lambdaI := t.lambdaI, tx := t.tx, rx := t.rx }
  done : t.done = true → s.done = true
  locked : s.lock = true → t.lock = true ∧ t.addr = s.addr
  floor : s.rhFloor ≠ 0 → t.rhFloor ≠ 0
  rx : s.phase ≠ .idle → t.rx = s.rx
  canonical : (s.tx.wf → t.tx.wf) ∧ (s.rx.wf → t.rx.wf)
  boundedTx : (∀ c ∈ s.tx, c.1 < Config.txBufSize) → ∀ c ∈ t.tx, c.1 < Config.txBufSize
  boundedRx : (∀ c ∈ s.rx, c.1 < Config.rxBufSize) → ∀ c ∈ t.rx, c.1 < Config.rxBufSize

theorem legalFloor_ne_zero (v : Word) : legalFloor v ≠ 0 := by
  unfold legalFloor
  split
  · decide
  · assumption

theorem HostWrote.refl (s : State) : HostWrote s s := ⟨rfl, id, fun h => ⟨h, rfl⟩, id, fun _ => rfl, ⟨id, id⟩, id, id⟩

/-- The register at an offset is one of the map. -/
theorem regAt_exists {off : Nat} {r : Reg} (hoff : off % 4 = 0) (h : regAt off = some r) : r.exists = true ∧ r.offset = off := by
  unfold regAt at h
  split at h
  · cases h
    constructor
    · simp only [Reg.exists, decide_eq_true_eq]; omega
    · simp only [Reg.offset]; omega
  · split at h
    · cases h
      constructor
      · simp only [Reg.exists, decide_eq_true_eq]; omega
      · simp only [Reg.offset]; omega
    · have hm := List.mem_of_find?_eq_some h
      have hp := List.find?_some h
      refine ⟨?_, by simpa using hp⟩
      clear h hp
      revert hm
      unfold plainRegs
      revert r
      decide +revert

/-- A write of a register other than CMD answers a next state that `HostWrote` describes. -/
theorem writeReg_wrote (v : Word) (s : State) (r : Reg) (hr : r.exists = true) (hcmd : r ≠ .cmd) :
    ∃ t, writeReg v s r = .next t ∧ HostWrote s t := by
  cases r with
  | cmd => exact absurd rfl hcmd
  | ident => exact ⟨_, rfl, .refl s⟩
  | result => exact ⟨_, rfl, .refl s⟩
  | wfail => exact ⟨_, rfl, .refl s⟩
  | scnt => exact ⟨_, rfl, .refl s⟩
  | status =>
    refine ⟨_, rfl, rfl, ?_, fun h => ⟨h, rfl⟩, id, fun _ => rfl, ⟨id, id⟩, id, id⟩
    show (if v.getLsbD 1 then false else s.done) = true → _
    split <;> simp
  | devaddr =>
    refine ⟨_, rfl, ?_⟩
    unfold writeDevaddr
    split
    · rename_i h
      refine ⟨rfl, id, fun hl => ?_, id, fun _ => rfl, ⟨id, id⟩, id, id⟩
      rw [hl] at h
      exact absurd h.1 (by decide)
    · exact ⟨rfl, id, fun h => ⟨h, rfl⟩, id, fun _ => rfl, ⟨id, id⟩, id, id⟩
  | rhFloor => exact ⟨_, rfl, rfl, id, fun h => ⟨h, rfl⟩, fun _ => legalFloor_ne_zero v, fun _ => rfl, ⟨id, id⟩, id, id⟩
  | tx k =>
    refine ⟨_, rfl, rfl, id, fun h => ⟨h, rfl⟩, id, fun _ => rfl, ⟨Memory.write_wf _ _ _, id⟩, fun hb c hc => ?_, id⟩
    rcases Memory.mem_write hc with hc | hc
    · rw [hc]; simpa [Reg.exists] using hr
    · exact hb c hc
  | rx k =>
    refine ⟨_, rfl, ?_⟩
    unfold writeRx
    split
    · exact .refl s
    · rename_i h
      refine ⟨rfl, id, fun h => ⟨h, rfl⟩, id, fun hp => absurd ((busy_iff s).mpr hp) h, ⟨id, Memory.write_wf _ _ _⟩, id, fun hb c hc => ?_⟩
      rcases Memory.mem_write hc with hc | hc
      · rw [hc]; simpa [Reg.exists] using hr
      · exact hb c hc
  | _ => exact ⟨_, rfl, rfl, id, fun h => ⟨h, rfl⟩, id, fun _ => rfl, ⟨id, id⟩, id, id⟩

/-- Only STATUS clears OVR, and only a write of 1 to its bit 9. -/
theorem writeReg_ovr (v : Word) (s t : State) (r : Reg) (hcmd : r ≠ .cmd) (h : writeReg v s r = .next t) (hs : s.ovr = true)
    (ht : t.ovr = false) : r = .status ∧ v.getLsbD 9 = true := by
  cases r with
  | cmd => exact absurd rfl hcmd
  | status =>
    cases h
    refine ⟨rfl, ?_⟩
    by_contra h9
    rw [writeStatus_ovr, if_neg h9, hs] at ht
    exact absurd ht (by decide)
  | devaddr =>
    cases h
    unfold writeDevaddr at ht
    split at ht <;> simp [hs] at ht
  | rx k =>
    cases h
    unfold writeRx at ht
    split at ht <;> simp [hs] at ht
  | _ => cases h; simp [hs] at ht

/-- A write of a register other than CMD: what it changes, and that it clears OVR only where the rule of STATUS does. -/
theorem writeReg_cases (v : Word) (s : State) (r : Reg) (hr : r.exists = true) (hcmd : r ≠ .cmd) :
    ∃ t, writeReg v s r = .next t ∧ HostWrote s t ∧ (s.ovr = true → t.ovr = false → r = .status ∧ v.getLsbD 9 = true) := by
  obtain ⟨t, h, hw⟩ := writeReg_wrote v s r hr hcmd
  exact ⟨t, h, hw, writeReg_ovr v s t r hcmd h⟩

theorem memWrite_cmd (v : Word) (s : State) : memWrite 0x00C v s = submit v s := rfl

/-- A legal write submits a command or answers a next state that `HostWrote` describes. -/
theorem memWrite_cases (off : BitVec 12) (v : Word) (s : State) (hoff : off.toNat % 4 = 0) :
    (off = 0x00C ∧ memWrite off v s = submit v s) ∨ (off ≠ 0x00C ∧ ∃ t, memWrite off v s = .next t ∧ HostWrote s t
      ∧ (s.ovr = true → t.ovr = false → off = 0x008 ∧ v.getLsbD 9 = true)) := by
  by_cases h : off = 0x00C
  · exact .inl ⟨h, h ▸ memWrite_cmd v s⟩
  · refine .inr ⟨h, ?_⟩
    unfold memWrite
    rcases hr : regAt off.toNat with _ | r
    · exact ⟨s, rfl, .refl s, fun h1 h0 => absurd (h1.symm.trans h0) (by decide)⟩
    · have hx := regAt_exists hoff hr
      obtain ⟨t, ht, hw, ho⟩ := writeReg_cases v s r hx.1 (fun hc => h (by rw [hc] at hx; exact BitVec.eq_of_toNat_eq hx.2.symm))
      refine ⟨t, ht, hw, fun h1 h0 => ⟨?_, (ho h1 h0).2⟩⟩
      rw [(ho h1 h0).1] at hx
      exact BitVec.eq_of_toNat_eq hx.2.symm

theorem submit_busy {s : State} (h : s.phase ≠ .idle) (v : Word) : submit v s = .next (dropCommand s) := if_pos ((busy_iff s).mpr h)

theorem submit_idle {s : State} (h : s.phase = .idle) (v : Word) : submit v s = runCommand v (accept s) :=
  if_neg (by rw [busy_iff]; exact not_not.mpr h)

/-! ### The one case distinction -/

/-- What an accepted word does: a command that ends, or the start of a transaction (`exec_cases`); a word that decodes to nothing ends with
BADCMD. -/
theorem runCommand_cases (v : Word) (s : State) :
    (∃ e m, runCommand v s = .next (finish e m) ∧ Wrote s m
      ∧ (m.result = s.result ∨ e = .none ∧ ∃ i, decode v = .ok i ∧ WritesResult i))
    ∨ (∃ x : Snapshot, x.Accepted ∧ s.lock = true ∧ runCommand v s = .next (startTransaction x s)) := by
  unfold runCommand
  rcases hd : decode v with _ | i
  · exact .inl ⟨.badcmd, s, rfl, .refl s, .inl rfl⟩
  · rcases exec_cases i s with ⟨e, m, h, hw, hr, -⟩ | ⟨opl, txlen, rxlen, rfl, htx, hrx, hc, hl, h⟩
    · refine .inl ⟨e, m, h, hw, ?_⟩
      rcases hr with hr | ⟨hi, he⟩
      · exact .inl hr
      · exact .inr ⟨he, i, rfl, hi⟩
    · refine .inr ⟨_, ?_, hl, h⟩
      have hlen : (BitVec.ofNat 8 rxlen).toNat = rxlen := by
        rw [BitVec.toNat_ofNat]
        exact Nat.mod_eq_of_lt (by have : Config.rxBufSize = 48 := rfl; omega)
      exact ⟨by simpa [takeSnapshot, hlen] using hrx, by simpa [takeSnapshot] using htx, by simpa [takeSnapshot, hlen] using hc⟩

/-- The validated part of an ending: with or without a validation of at most RXBUF_SIZE bytes. -/
theorem validateAndFinish_cases (n : Nat) (fatal : Bool) (s : State) :
    validateAndFinish n fatal s = .next (finish (if failCount s.rx (n / 3) ≠ 0 ∧ fatal = true then .crc else .none) (validate n s)) := by
  unfold validateAndFinish raise complete
  split <;> rfl

/-- Every way an event can change the state. -/
inductive Acted (e : Event) (s : State) : State → Prop where
  /-- A legal host read. -/
  | read (off : BitVec 12) (he : e = .hostRead .w32 off) : Acted e s { s with hostData := some (memRead off s) }
  /-- A legal host write of a register other than CMD. -/
  | write (t : State) (off : BitVec 12) (v : Word) (he : e = .hostWrite .w32 off v) (hoff : off ≠ 0x00C) (h : HostWrote s t)
      (ho : s.ovr = true → t.ovr = false → off = 0x008 ∧ v.getLsbD 9 = true) : Acted e s t
  /-- A CMD write while BUSY. -/
  | drop (v : Word) (he : e = .hostWrite .w32 0x00C v) (hp : s.phase ≠ .idle) : Acted e s (dropCommand s)
  /-- A command that ends. -/
  | command (v : Word) (c : ErrCode) (m : State) (he : e = .hostWrite .w32 0x00C v) (hp : s.phase = .idle) (h : Wrote (accept s) m)
      (hr : m.result = s.result ∨ c = .none ∧ ∃ i, decode v = .ok i ∧ WritesResult i) : Acted e s (finish c m)
  /-- An XFER that is accepted. -/
  | start (v : Word) (x : Snapshot) (he : e = .hostWrite .w32 0x00C v) (hp : s.phase = .idle) (hx : x.Accepted) (hl : s.lock = true) :
      Acted e s (startTransaction x (accept s))
  /-- A TICK or an answer that has no effect. -/
  | idle (he : e = .tick ∨ e.isAnswer = true) : Acted e s s
  /-- A TICK that counts. -/
  | count (he : e = .tick) (hp : s.phase = .settle) (h0 : s.scnt ≠ 0) (h1 : s.scnt ≠ 1) : Acted e s { s with scnt := s.scnt - 1 }
  /-- The last TICK of SETTLE. -/
  | settled (x : Snapshot) (he : e = .tick) (hp : s.phase = .settle) (h1 : s.scnt = 1) (hx : s.xs = some x) : Acted e s (afterSettle x s)
  /-- The write is answered OK, with a settle time. -/
  | wait (x : Snapshot) (he : e = .writeOk) (hp : s.phase = .write) (hw : s.pend = .wr) (hx : s.xs = some x) (hs : x.settle ≠ 0) :
      Acted e s { s with pend := .none, scnt := x.settle.zeroExtend 17 + 1, phase := .settle }
  /-- The write is answered OK, without a settle time. -/
  | noWait (x : Snapshot) (he : e = .writeOk) (hp : s.phase = .write) (hw : s.pend = .wr) (hx : s.xs = some x) (hs : x.settle = 0) :
      Acted e s (afterSettle x { s with pend := .none })
  /-- The write is answered ERR. -/
  | writeErr (he : e = .writeErr) (hp : s.phase = .write) (hw : s.pend = .wr) : Acted e s (finish .buswr { s with pend := .none })
  /-- The read is answered ERR. -/
  | readErr (he : e = .readErr) (hp : s.phase = .read) (hw : s.pend = .rd) : Acted e s (finish .busrd { s with pend := .none })
  /-- The read is answered OK; nothing is checked. -/
  | landed (x : Snapshot) (bytes : List Byte) (he : e = .readOk bytes) (hp : s.phase = .read) (hw : s.pend = .rd) (hx : s.xs = some x)
      (hn : bytes.length = x.rxlen.toNat) (hc : x.chk = false) :
      Acted e s (finish .none { s with pend := .none, rx := s.rx.writeBytes 0 bytes })
  /-- The read is answered OK; the words are checked. -/
  | checked (x : Snapshot) (bytes : List Byte) (he : e = .readOk bytes) (hp : s.phase = .read) (hw : s.pend = .rd) (hx : s.xs = some x)
      (hn : bytes.length = x.rxlen.toNat) (hc : x.chk = true) :
      Acted e s (finish (if failCount (s.rx.writeBytes 0 bytes) (x.rxlen.toNat / 3) ≠ 0 ∧ x.fatal = true then .crc else .none)
        (validate x.rxlen.toNat { s with pend := .none, rx := s.rx.writeBytes 0 bytes }))
  /-- Reset. -/
  | reset (he : e = .reset) : Acted e s (applyReset s)
  /-- Another instance starts or ends a transaction on the bus. -/
  | peer (b : Bool) (he : e = .peerStarts ∨ e = .peerEnds) : Acted e s { s with peerBusy := b }

theorem act_cases {e : Event} {s t : State} (h : act e s = .next t) : Acted e s t := by
  cases e with
  | hostRead width off =>
    simp only [act] at h
    split at h
    · rename_i hl
      cases h
      obtain ⟨rfl, -⟩ := (legalAccess_iff _ _).mp hl
      exact .read off rfl
    · cases h
  | hostWrite width off v =>
    simp only [act] at h
    split at h
    · rename_i hl
      obtain ⟨rfl, hoff⟩ := (legalAccess_iff _ _).mp hl
      rcases memWrite_cases off v s hoff with ⟨rfl, hm⟩ | ⟨hne, u, hm, hu, ho⟩
      · rw [hm] at h
        unfold submit at h
        split at h
        · rename_i hb
          cases h
          exact .drop v rfl ((busy_iff s).mp hb)
        · rename_i hb
          have hp : s.phase = .idle := by simpa [busy_iff] using hb
          rcases runCommand_cases v (accept s) with ⟨c, m, hr, hw, hres⟩ | ⟨x, hx, hlk, hr⟩
          · rw [hr] at h
            cases h
            exact .command v c m rfl hp hw hres
          · rw [hr] at h
            cases h
            exact .start v x rfl hp hx hlk
      · rw [hm] at h
        cases h
        exact .write t off v rfl hne hu ho
    · cases h
  | tick =>
    simp only [act, onTick] at h
    split at h
    · rename_i hs
      split at h
      · rename_i h1
        unfold withSnapshot at h
        split at h
        · rename_i x hx
          cases h
          exact .settled x rfl hs.1 h1 hx
        · cases h
      · rename_i h1
        cases h
        exact .count rfl hs.1 hs.2 h1
    · cases h
      exact .idle (.inl rfl)
  | writeOk =>
    simp only [act, onWriteOk] at h
    split at h
    · rename_i ho
      obtain ⟨hp, hw⟩ : s.phase = .write ∧ s.pend = .wr := by simpa [State.writeOutstanding] using ho
      unfold withSnapshot at h
      split at h
      · rename_i x hx
        simp only at h
        split at h
        · rename_i h0
          cases h
          exact .noWait x rfl hp hw hx h0
        · rename_i h0
          cases h
          exact .wait x rfl hp hw hx h0
      · cases h
    · cases h
      exact .idle (.inr rfl)
  | writeErr =>
    simp only [act, onWriteErr] at h
    split at h
    · rename_i ho
      obtain ⟨hp, hw⟩ : s.phase = .write ∧ s.pend = .wr := by simpa [State.writeOutstanding] using ho
      cases h
      exact .writeErr rfl hp hw
    · cases h
      exact .idle (.inr rfl)
  | readOk bytes =>
    simp only [act, onReadOk] at h
    split at h
    · rename_i ho
      obtain ⟨hp, hw⟩ : s.phase = .read ∧ s.pend = .rd := by simpa [State.readOutstanding] using ho
      unfold withSnapshot at h
      split at h
      · rename_i x hx
        simp only at h
        split at h
        · rename_i hn
          unfold dispatchChecksum at h
          split at h
          · rename_i hc
            rw [validateAndFinish_cases] at h
            cases h
            exact .checked x bytes rfl hp hw hx hn hc
          · rename_i hc
            cases h
            exact .landed x bytes rfl hp hw hx hn (by simpa using hc)
        · cases h
      · cases h
    · cases h
      exact .idle (.inr rfl)
  | readErr =>
    simp only [act, onReadErr] at h
    split at h
    · rename_i ho
      obtain ⟨hp, hw⟩ : s.phase = .read ∧ s.pend = .rd := by simpa [State.readOutstanding] using ho
      cases h
      exact .readErr rfl hp hw
    · cases h
      exact .idle (.inr rfl)
  | reset => cases h; exact .reset rfl
  | secondMaster => cases h
  | peerStarts =>
    simp only [act] at h
    split at h
    · cases h
    · cases h
      exact .peer true (.inl rfl)
  | peerEnds => cases h; exact .peer false (.inr rfl)

/-- A step that takes an event acts on the state without that event, and leaves at most one transaction on the bus. -/
theorem step_acted {s t : State} {e : Event} {rest : List Event} (hi : s.inputs = e :: rest) (h : step s = .next t) :
    Acted e { s with inputs := rest } t ∧ (t.phase ≠ .idle → t.peerBusy = false) := by
  rw [step_cons hi] at h
  obtain ⟨ha, hb⟩ := serve_eq_next_iff.mp h
  exact ⟨act_cases ha, hb⟩

end Sys2Proof.Machine
end

