-- ==== Sys2Proof/Laws/HostProgram.lean ====
section
/-!
SUPPORT. What a turn of HOST does, said once per access, and from it: a `wait` stays while DONE is 0 and ends where it is 1, and `run` of a
compute command is done after its CMD write and one read of STATUS (spec/30_encoding.md R68; spec/95_test_vectors.md, part 3).
-/
namespace Sys2Proof.Machine

/-! ### A turn -/

theorem hostTurn_of_step {r : HostRun} {a : HostAccess} {rest : List HostAccess} {s : State} (hp : r.program = a :: rest)
    (h : step { r.machine with inputs := a.event :: r.machine.inputs } = .next s) : r.hostTurn = .next (HostRun.after a rest r.timedOut s) := by
  simp only [HostRun.hostTurn, hp, h, continueWith]

theorem turns_host {r r' : HostRun} (h : r.hostTurn = .next r') (ts : List Turn) : r.turns (.host :: ts) = r'.turns ts := by
  simp only [HostRun.turns, HostRun.turn, h]

theorem turns_other {r : HostRun} {s : State} (h : step r.machine = .next s) (ts : List Turn) :
    r.turns (.other :: ts) = HostRun.turns { r with machine := s } ts := by
  simp only [HostRun.turns, HostRun.turn, HostRun.otherTurn, continueWith, h]

/-- The loop is left where the host saw DONE = 1. -/
theorem after_poll_done {s : State} (bound : Option Nat) (rest : List HostAccess) (timedOut : Bool) (h : sawDone s = true) :
    HostRun.after (.poll bound) rest timedOut s = ⟨s, rest, timedOut⟩ := if_pos h

/-- The loop without a bound goes on where the host saw DONE = 0. -/
theorem after_poll_waits {s : State} (rest : List HostAccess) (timedOut : Bool) (h : sawDone s = false) :
    HostRun.after (.poll none) rest timedOut s = ⟨s, .poll none :: rest, timedOut⟩ := if_neg (by simp [h])

/-- The bounded loop goes on where the host saw DONE = 0, with one read less. -/
theorem after_poll_counts {s : State} (n : Nat) (rest : List HostAccess) (timedOut : Bool) (h : sawDone s = false) :
    HostRun.after (.poll (some (n + 1))) rest timedOut s = ⟨s, .poll (some n) :: rest, timedOut⟩ := if_neg (by simp [h])

/-- The bounded loop expires where the host saw DONE = 0 on its last read. -/
theorem after_poll_expires {s : State} (rest : List HostAccess) (timedOut : Bool) (h : sawDone s = false) :
    HostRun.after (.poll (some 0)) rest timedOut s = ⟨s, [], true⟩ := if_neg (by simp [h])

/-- Bit 1 of the STATUS word is DONE (R20). -/
theorem statusWord_done (s : State) : (statusWord s).getLsbD 1 = s.done := by
  simp only [statusWord, BitVec.getLsbD_append]
  simp

/-- One read of the loop: STATUS lands at the host, nothing else of the machine changes, and the loop is left exactly where DONE is 1. -/
theorem hostTurn_poll {r : HostRun} {bound : Option Nat} {rest : List HostAccess} (hp : r.program = .poll bound :: rest)
    (hpeer : r.machine.phase ≠ .idle → r.machine.peerBusy = false) :
    r.hostTurn = .next (HostRun.after (.poll bound) rest r.timedOut { r.machine with hostData := some (statusWord r.machine) }) := by
  apply hostTurn_of_step hp
  rw [step_cons rfl]
  exact serve_eq_next_iff.mpr ⟨act_hostRead (by decide) _, hpeer⟩

theorem sawDone_read (s : State) : sawDone { s with hostData := some (statusWord s) } = s.done := statusWord_done s

/-- The loop ends on the read that sees DONE = 1. -/
theorem hostTurn_poll_done {r : HostRun} {bound : Option Nat} {rest : List HostAccess} (hp : r.program = .poll bound :: rest)
    (hpeer : r.machine.phase ≠ .idle → r.machine.peerBusy = false) (hd : r.machine.done = true) :
    r.hostTurn = .next { r with machine := { r.machine with hostData := some (statusWord r.machine) }, program := rest } := by
  rw [hostTurn_poll hp hpeer, after_poll_done _ _ _ ((sawDone_read _).trans hd)]

/-- The loop of R68 goes on after a read that sees DONE = 0. -/
theorem hostTurn_poll_waits {r : HostRun} {rest : List HostAccess} (hp : r.program = .poll none :: rest)
    (hpeer : r.machine.phase ≠ .idle → r.machine.peerBusy = false) (hd : r.machine.done = false) :
    r.hostTurn = .next { r with machine := { r.machine with hostData := some (statusWord r.machine) } } := by
  rw [hostTurn_poll hp hpeer, after_poll_waits _ _ ((sawDone_read _).trans hd), hp]

/-- However many turns HOST takes alone, an unbounded `wait` stays while DONE is 0 (R68, R101, R129). -/
theorem wait_stays {r : HostRun} {rest : List HostAccess} (n : Nat) (hp : r.program = .poll none :: rest)
    (hpeer : r.machine.phase ≠ .idle → r.machine.peerBusy = false) (hd : r.machine.done = false) :
    ∃ r', r.turns (List.replicate n .host) = .next r' ∧ r'.program = r.program ∧ r'.machine.done = false ∧ r'.timedOut = r.timedOut := by
  induction n generalizing r with
  | zero => exact ⟨r, rfl, rfl, hd, rfl⟩
  | succ n ih =>
    rw [List.replicate_succ, turns_host (hostTurn_poll_waits hp hpeer hd)]
    exact ih hp hpeer hd

/-- A `wait` bounded to n reads after the first gives up after n + 1 reads that saw DONE = 0, and reports a timeout (R129). -/
theorem bounded_wait_expires {r : HostRun} {rest : List HostAccess} (n : Nat) (hp : r.program = .poll (some n) :: rest)
    (hpeer : r.machine.phase ≠ .idle → r.machine.peerBusy = false) (hd : r.machine.done = false) :
    ∃ r', r.turns (List.replicate (n + 1) .host) = .next r' ∧ r'.program = [] ∧ r'.timedOut = true := by
  induction n generalizing r with
  | zero =>
    refine ⟨⟨{ r.machine with hostData := some (statusWord r.machine) }, [], true⟩, ?_, rfl, rfl⟩
    rw [List.replicate_succ, turns_host (hostTurn_poll hp hpeer), after_poll_expires _ _ ((sawDone_read _).trans hd)]
    rfl
  | succ n ih =>
    rw [List.replicate_succ, turns_host (hostTurn_poll hp hpeer), after_poll_counts _ _ _ ((sawDone_read _).trans hd)]
    exact ih rfl hpeer hd

/-! ### `run` of a compute command -/

theorem hostTurn_cmd {r : HostRun} {v : Word} {i : Instr} {rest : List HostAccess} {t : State} (hp : r.program = .wr .cmd v :: rest)
    (hi : r.machine.phase = .idle) (hv : decode v = .ok i) (he : exec i { r.machine with done := false } = .next t)
    (ht : t.phase ≠ .idle → t.peerBusy = false) : r.hostTurn = .next { r with machine := t, program := rest } := by
  have h : step { r.machine with inputs := HostAccess.event (.wr .cmd v) :: r.machine.inputs } = .next t := by
    rw [step_cons rfl]
    refine serve_eq_next_iff.mpr ⟨?_, ht⟩
    refine (act_hostWrite (by decide) v _).trans ?_
    have hs : submit v r.machine = .next t := by
      have hb : r.machine.busy = false := (busy_eq_false_iff _).mpr hi
      simp only [submit, hb, Bool.false_eq_true, if_false, runCommand, hv]
      exact he
    exact hs
  rw [hostTurn_of_step hp h]
  rfl

/-- A compute command has ended when its step is over, and its `run` exits on the first read of STATUS (R51, R68). -/
theorem run_of_compute {r : HostRun} {v : Word} {i : Instr} {bound : Option Nat} {rest : List HostAccess}
    (hp : r.program = .wr .cmd v :: .poll bound :: rest) (hi : r.machine.phase = .idle) (hv : decode v = .ok i)
    (hc : ∀ opl txlen rxlen, i ≠ .xfer opl txlen rxlen) :
    ∃ t, exec i { r.machine with done := false } = .next t
      ∧ r.turns [.host, .host] = .next { r with machine := { t with hostData := some (statusWord t) }, program := rest } := by
  rcases exec_cases i { r.machine with done := false } with ⟨e, m, he, -⟩ | ⟨opl, txlen, rxlen, h, -⟩
  · refine ⟨finish e m, he, ?_⟩
    rw [turns_host (hostTurn_cmd hp hi hv he (fun h => absurd rfl h)),
      turns_host (hostTurn_poll_done rfl (fun h => absurd rfl h) rfl)]
    rfl
  · exact absurd h (hc _ _ _)

end Sys2Proof.Machine
end

