-- ==== Sys2Proof/Laws/PerInstr.lean ====
section
/-!
SUPPORT. What is said of every command as syntax, one lemma per constructor: its word carries the OP value of its row and selects that row of
the opcode map (spec/30_encoding.md R62, R63).
-/
namespace Sys2Proof.Laws.Encoding

/-- The OP value of a command's row (R63). -/
def opcodeOf : Instr → Byte
  | .crcw => 0x10
  | .crcv => 0x11
  | .crcb _ _ _ => 0x12
  | .crcval _ => 0x13
  | .txpack _ => 0x14
  | .cvtt => 0x20
  | .cvtrh => 0x21
  | .rhice => 0x22
  | .dewpt => 0x23
  | .xfer _ _ _ => 0x30

/-- The command's word has its row's OP value and selects a row of that OP value. -/
def Statement (i : Instr) : Prop :=
  fieldOP (encode i) = opcodeOf i ∧ ∃ row ∈ opcodeRows, fieldOP row.1 = opcodeOf i ∧ selects (encode i) row = true

/-- A row's mask leaves alone what the row does not fix. -/
theorem selects_pack {op f a b mf ma mb : Byte} (hf : f &&& mf = 0) (ha : a &&& ma = 0) (hb : b &&& mb = 0) :
    selects (packFields op f a b) (packFields op 0 0 0, packFields 0xFF mf ma mb) = true := by
  have h : op &&& 0xFF = op := BitVec.and_allOnes
  simp only [selects, packFields_and, hf, ha, hb, h, beq_self_eq_true]

theorem of_row {i : Instr} {op f a b mf ma mb : Byte} (he : encode i = packFields op f a b) (ho : opcodeOf i = op)
    (hr : (packFields op 0 0 0, packFields 0xFF mf ma mb) ∈ opcodeRows) (hf : f &&& mf = 0) (ha : a &&& ma = 0) (hb : b &&& mb = 0) :
    Statement i := by
  refine ⟨by rw [he, ho, fieldOP_packFields], _, hr, by rw [ho, fieldOP_packFields], ?_⟩
  rw [he]
  exact selects_pack hf ha hb

theorem crcw : Statement .crcw := of_row (mf := 0xFF) (ma := 0xFF) (mb := 0xFF) rfl rfl (by decide) rfl rfl rfl

theorem crcv : Statement .crcv := of_row (mf := 0xFF) (ma := 0xFF) (mb := 0xFF) rfl rfl (by decide) rfl rfl rfl

theorem crcb (buf : Buf) (start count : Nat) : Statement (.crcb buf start count) :=
  of_row (mf := 0xFE) (ma := 0) (mb := 0) rfl rfl (by decide) (by cases buf <;> rfl) BitVec.and_zero BitVec.and_zero

theorem crcval (len : Nat) : Statement (.crcval len) :=
  of_row (mf := 0xFF) (ma := 0xFF) (mb := 0) rfl rfl (by decide) rfl rfl BitVec.and_zero

theorem txpack (idx : Nat) : Statement (.txpack idx) :=
  of_row (mf := 0xFF) (ma := 0) (mb := 0xFF) rfl rfl (by decide) rfl BitVec.and_zero rfl

theorem cvtt : Statement .cvtt := of_row (mf := 0xFF) (ma := 0xFF) (mb := 0xFF) rfl rfl (by decide) rfl rfl rfl

theorem cvtrh : Statement .cvtrh := of_row (mf := 0xFF) (ma := 0xFF) (mb := 0xFF) rfl rfl (by decide) rfl rfl rfl

theorem rhice : Statement .rhice := of_row (mf := 0xFF) (ma := 0xFF) (mb := 0xFF) rfl rfl (by decide) rfl rfl rfl

theorem dewpt : Statement .dewpt := of_row (mf := 0xFF) (ma := 0xFF) (mb := 0xFF) rfl rfl (by decide) rfl rfl rfl

theorem xfer (opl : OpLen) (txlen rxlen : Nat) : Statement (.xfer opl txlen rxlen) :=
  of_row (mf := 0xFE) (ma := 0) (mb := 0) rfl rfl (by decide) (by cases opl <;> rfl) BitVec.and_zero BitVec.and_zero

end Sys2Proof.Laws.Encoding
end

