-- ==== Sys2Proof/Laws/Run.lean ====
section
/-!
SUPPORT. Runs of several steps, taken apart step by step.
-/
namespace Sys2Proof.Machine

theorem coreRun_succ (M : Host.Core) {s t : M.State} (h : M.step s = .next t) (n : Nat) : M.run (n + 1) s = M.run n t := by
  simp only [Host.Core.run, h]

theorem coreRun_add (M : Host.Core) {s t : M.State} {m : Nat} (h : M.run m s = .next t) (n : Nat) : M.run (m + n) s = M.run n t := by
  induction m generalizing s with
  | zero =>
    cases h
    rw [Nat.zero_add]
  | succ m ih =>
    rcases hs : M.step s with u | f | f
    · rw [coreRun_succ M hs] at h
      rw [Nat.add_right_comm, coreRun_succ M hs, ih h]
    · simp only [Host.Core.run, hs] at h
      cases h
    · simp only [Host.Core.run, hs] at h
      cases h

theorem run_succ {s t : State} (h : step s = .next t) (n : Nat) : core.run (n + 1) s = core.run n t := coreRun_succ core h n

theorem run_one {s t : State} (h : step s = .next t) : core.run 1 s = .next t := run_succ h 0

theorem run_add {s t : State} {m : Nat} (h : core.run m s = .next t) (n : Nat) : core.run (m + n) s = core.run n t := coreRun_add core h n

end Sys2Proof.Machine
end

