-- ==== Sys2Proof/Tests/Slice0.lean ====
section
/-!
SUPPORT. Tests of the model's own: ill-formed terms, words written out from spec/30_encoding.md, single steps whose expected values stand in
spec/95_test_vectors.md, and one witness for every statement that has hypotheses.
-/
namespace Sys2Proof.Tests
open Sys2Proof Sys2Proof.Machine

set_option Elab.async false

/-! ### WellFormed: the ill-formed term of each check -/

theorem test_wf_crcb_start : (Instr.crcb .tx 256 0).wellFormed = false := by decide
theorem test_wf_crcb_count : (Instr.crcb .rx 0 256).wellFormed = false := by decide
theorem test_wf_crcval : (Instr.crcval 256).wellFormed = false := by decide
theorem test_wf_txpack : (Instr.txpack 256).wellFormed = false := by decide
theorem test_wf_xfer_txlen : (Instr.xfer .one 256 0).wellFormed = false := by decide
theorem test_wf_xfer_rxlen : (Instr.xfer .two 0 256).wellFormed = false := by decide
theorem test_wf_limits : (Instr.xfer .two 255 255).wellFormed = true ∧ (Instr.crcb .rx 255 255).wellFormed = true := by decide

/-! ### Words written out from R62 to R64: B, A, F, OP (V1, P1, P5, P7) -/

theorem test_decode_crcw : decode (0b00000000_00000000_00000000_00010000#32) = .ok .crcw := by decide
theorem test_decode_crcv : decode (0b00000000_00000000_00000000_00010001#32) = .ok .crcv := by decide
theorem test_decode_crcb : decode (0b00000010_00000000_00000001_00010010#32) = .ok (.crcb .rx 0 2) := by decide
theorem test_decode_crcb_tx : decode (0b00000010_00000000_00000000_00010010#32) = .ok (.crcb .tx 0 2) := by decide
theorem test_decode_crcval : decode (0b11111111_00000000_00000000_00010011#32) = .ok (.crcval 255) := by decide
theorem test_decode_txpack : decode (0b00000000_00000011_00000000_00010100#32) = .ok (.txpack 3) := by decide
theorem test_decode_cvtt : decode (0b00000000_00000000_00000000_00100000#32) = .ok .cvtt := by decide
theorem test_decode_cvtrh : decode (0b00000000_00000000_00000000_00100001#32) = .ok .cvtrh := by decide
theorem test_decode_rhice : decode (0b00000000_00000000_00000000_00100010#32) = .ok .rhice := by decide
theorem test_decode_dewpt : decode (0b00000000_00000000_00000000_00100011#32) = .ok .dewpt := by decide
theorem test_decode_xfer : decode (0b00000110_00000000_00000000_00110000#32) = .ok (.xfer .one 0 6) := by decide
theorem test_decode_xfer_two : decode (0b00000000_00000011_00000001_00110000#32) = .ok (.xfer .two 3 0) := by decide
theorem test_decode_unlisted : decode 0x00000000 = .error .unlistedOp ∧ decode 0x00000031 = .error .unlistedOp := by decide
theorem test_decode_fields : decode 0x01000010 = .error .nonzeroField ∧ decode 0x02000212 = .error .nonzeroField
    ∧ decode 0x00010013 = .error .nonzeroField ∧ decode 0x01030014 = .error .nonzeroField ∧ decode 0x00000330 = .error .nonzeroField := by
  decide

/-! ### One step each: values of V2 to V7 -/

/-- A field of the next state, where there is one. -/
def got {α : Type} (r : Result) (f : State → α) : Option α :=
  match r with
  | .next s => some (f s)
  | .fault _ => none
  | .refused _ => none

/-- The start state of X1 to X10 with these operands. -/
def start (arg0 arg1 : Word) : State := { State.reset with arg0 := arg0, arg1 := arg1, addr := 0x44, lock := true, opcode := 0xFD }

/-- RX[0..5] of the `crcval 6` vectors, the second word corrupted. -/
def corrupted : State := { State.reset with rx := [(0, 0x66), (1, 0x83), (2, 0xA7), (3, 0x5A)] }

theorem test_crcw : got (exec .crcw (start 0xBEEF 0)) (·.result) = some 0x92 := by decide +kernel
theorem test_crcw_upper : got (exec .crcw (start 0xFFFF0000 0)) (·.result) = some 0x81 := by decide +kernel
theorem test_crcv : got (exec .crcv (start 0xFFBEEF92 0)) (·.result) = some 1 := by decide +kernel
theorem test_crcv_flip : got (exec .crcv (start 0x003EEF92 0)) (·.result) = some 0 := by decide +kernel
theorem test_crcb : got (exec (.crcb .rx 0 2) corrupted) (·.result) = some 0xA7 := by decide +kernel
theorem test_crcb_edge : got (exec (.crcb .rx 48 0) corrupted) (fun s => (s.result, s.err)) = some (0xFF, .none)
    ∧ got (exec (.crcb .rx 47 2) corrupted) (fun s => (s.result, s.err)) = some (0, .badlen) := by decide +kernel
theorem test_crcval : got (exec (.crcval 6) corrupted) statusWord = some 0x00010102 := by decide +kernel
theorem test_crcval_fatal : got (exec (.crcval 6) { corrupted with crcfatal := true }) (fun s => (statusWord s, s.wfail)) = some (0x00010162, 2) := by
  decide +kernel
theorem test_txpack : got (exec (.txpack 29) (start 0xBEEF 0)) (fun s => s.tx.bytes 28 4) = some [0, 0xBE, 0xEF, 0x92] := by decide +kernel
theorem test_txpack_edge : got (exec (.txpack 30) (start 0xBEEF 0)) (fun s => (s.tx, s.err)) = some ([], .badlen) := by decide +kernel
theorem test_cvtt : got (exec .cvtt (start 0x6683 0)) (·.result) = some 2508 := by decide +kernel
theorem test_cvtt_negative : got (exec .cvtt (start 0x4000 0)) (·.result) = some 0xFFFFFF83 := by decide +kernel
theorem test_cvtrh : got (exec .cvtrh { start 0xFFFF 0 with rhMin := BitVec.ofInt 16 (-600), rhSpan := 12500 }) (·.result) = some 11900 := by
  decide +kernel
theorem test_cvtrh_floor : got (exec .cvtrh { start 0 0 with rhMin := BitVec.ofInt 16 (-600), rhSpan := 12500 }) (·.result) = some 1 := by
  decide +kernel
theorem test_rhice : (rhiceNeighbours (BitVec.ofInt 32 (-1000)) 5000 1762 24312 2246 27262).1 = some (5520, 5521) := by decide +kernel
theorem test_rhice_water : got (exec .rhice (start 0 0)) (·.result) = some 1 := by decide +kernel
theorem test_dewpt : (dewptNeighbours (BitVec.ofInt 32 (-125)) 2500 2246 27262 (by decide)).1 = some (-1696, -1695) := by decide +kernel
theorem test_dewpt_dry : got (exec .dewpt (start 2500 0xFFFFFFFF)) (fun s => (s.result, s.err)) = some (0, .domain) := by decide +kernel
theorem test_xfer : got (exec (.xfer .two 3 0) { start 0 0 with addr := 0x62, opcode := 0x3615, tx := [(0, 0x0B), (1, 0xB8), (2, 0x9D)] })
    (·.requests) = some [.writeBlock 0x62 0x36 [0x15, 0x0B, 0xB8, 0x9D]] := by decide +kernel
theorem test_xfer_order : got (exec (.xfer .one 0 5) State.reset) (·.err) = some .badlen
    ∧ got (exec (.xfer .one 0 6) State.reset) statusWord = some 0x00000032 := by decide +kernel

/-- The word sets of V2: a signed constant, RH_FLOOR, CTRL, a byte of TX, and DEVADDR written once. -/
theorem test_registers : got (memWrite 0x040 0x0001EE6C State.reset) (memRead 0x040) = some 0xFFFFEE6C
    ∧ got (memWrite 0x050 0x00010000 State.reset) (memRead 0x050) = some 1
    ∧ got (memWrite 0x004 0xFFFFFFFF State.reset) (memRead 0x004) = some 7
    ∧ got (memWrite 0x100 0x123456AB State.reset) (memRead 0x100) = some 0xAB
    ∧ got (memWrite 0x010 0x80000044 State.reset) (memRead 0x010) = some 0x80000044
    ∧ got (memWrite 0x010 0x00000080 State.reset) (fun s => (memRead 0x010 s, s.cfgerr)) = some (0, true) := by decide +kernel

/-- What the host's probe asks: the word of a command, placed, is the command the next step runs. -/
theorem test_fetch : got (step (State.reset.withFetchWord 32 0x10)) (fun s => (s.result, s.done)) = some (0x81, true)
    ∧ decodeTableWord 32 0x09000130 = some (.xfer .two 0 9) := by decide +kernel

/-- What the lines of a host program expand to (R68, P3); a name beyond the buffer is none of R15's (log entry 27). -/
theorem test_host_lines : (HostOp.run (.xfer .one 0 6) none).accesses = some [.wr .cmd 0x06000030, .poll none]
    ∧ HostOp.ack.accesses = some [.wr .status 2] ∧ HostOp.clrsticky.accesses = some [.wr .status 0x600]
    ∧ (HostOp.wr (.rx 47) 5).accesses = some [.wr (.rx 47) 5] ∧ writeOf (.rx 47) 5 = .hostWrite .w32 0x2BC 5
    ∧ (HostOp.rd (.tx 32)).accesses = none ∧ (HostOp.wr (.rx 48) 5).accesses = none ∧ (HostOp.cmd (.crcval 256)).accesses = none := by
  decide +kernel

/-- A field of the run after these turns, where there is one. -/
def gotRun {α : Type} (r : Host.Outcome HostRun Fault Refusal) (f : HostRun → α) : Option α :=
  match r with
  | .next s => some (f s)
  | .fault _ => none
  | .refused _ => none

/-- `wait` reads on while DONE is 0 and stops on the read that sees it 1 (R68); under a bound it gives up (R129). P6's ending: the write is
answered ERR between two reads. -/
theorem test_host_wait :
    gotRun (HostRun.turns ⟨{ start 0 0 with phase := .write, pend := .wr, inputs := [.writeErr] }, [.poll none, .rd .status], false⟩
      [.host, .host, .other, .host, .host]) (fun r => (r.program, r.machine.hostData)) = some ([], some 0x00000042)
    ∧ gotRun (HostRun.turns ⟨{ start 0 0 with phase := .write, pend := .wr, inputs := [.writeErr] }, [.poll none, .rd .status], false⟩
      [.host, .host]) (fun r => (r.program, r.machine.hostData)) = some ([.poll none, .rd .status], some 0x00000005)
    ∧ gotRun (HostRun.turns ⟨{ start 0 0 with phase := .write, pend := .wr }, [.poll (some 1), .rd .status], false⟩
      [.host, .host]) (fun r => (r.program, r.timedOut)) = some ([], true) := by decide +kernel

/-- P1's last lines: the unlisted word, written by `wr CMD` (log entry 28), and the STATUS it expects. -/
theorem test_host_raw_word : gotRun (HostRun.turns ⟨State.reset, [.wr .cmd 0x00000015, .rd .status], false⟩ [.host, .host])
    (fun r => (r.program, r.machine.hostData)) = some ([], some 0x00000012) := by decide +kernel

/-! ### Witnesses -/

/-- A snapshot of X9's kind: SETTLE 10, six bytes to read. -/
def shot : Snapshot where
  addr := 0x44
  opbytes := .one 0xFD
  payload := []
  settle := 10
  rdreg := 0
  rxlen := 6
  chk := true
  fatal := false

/-- X9 in phase WRITE. -/
def writing (es : List Event) : State := { start 0 0 with settle := 10, xs := some shot, phase := .write, pend := .wr, inputs := es }

/-- X10 in phase SETTLE, `n` ticks to go. -/
def settling (n : BitVec 17) (es : List Event) : State := { start 0 0 with settle := 10, xs := some shot, phase := .settle, scnt := n, inputs := es }

/-- P3 in phase READ. -/
def reading (x : Snapshot) (es : List Event) : State := { start 0 0 with xs := some x, phase := .read, pend := .rd, inputs := es }

/-- Nothing runs, and these events come. -/
def resting (es : List Event) : State := { State.reset with inputs := es }

theorem writing_inv (es : List Event) : ControllerInv (writing es) :=
  ⟨rfl, fun _ => rfl, fun h => Phase.noConfusion h, fun _ => rfl, fun _ => rfl, fun _ => rfl⟩

theorem resting_inv (es : List Event) : ControllerInv (resting es) :=
  ⟨rfl, fun _ => rfl, fun h => Phase.noConfusion h, fun h => absurd rfl h, fun h => absurd rfl h, fun h => absurd rfl h⟩

theorem witness_DecodeOfEncodeIsIdentity : (Instr.xfer .two 255 0).wellFormed = true ∧ (Instr.crcb .rx 0 255).wellFormed = true
    ∧ Instr.dewpt.wellFormed = true := by decide

theorem witness_EncodeOfDecodeIsIdentity : decode 0xFFFF0130 = .ok (.xfer .two 255 255) ∧ decode 0x00000020 = .ok .cvtt := by decide

theorem witness_DecodeAcceptsExactlyTheRows : ((0x00000012, 0x0000FEFF) : Word × Word) ∈ opcodeRows
    ∧ (0xFFFF0112 : Word) &&& 0x0000FEFF = 0x00000012 := by decide

theorem witness_StepRunsTheDecodedCommand : (resting [.hostWrite .w32 0x00C 0x10]).inputs = [.hostWrite .w32 0x00C 0x10]
    ∧ (resting [.hostWrite .w32 0x00C 0x10]).phase = .idle ∧ decode 0x10 = .ok .crcw := by decide

theorem witness_IllegalWordIsBadcmd : (∀ row ∈ opcodeRows, (0x00000110 : Word) &&& row.2 ≠ row.1)
    ∧ ControllerInv (resting [.hostWrite .w32 0x00C 0x00000110]) ∧ (resting [.hostWrite .w32 0x00C 0x00000110]).phase = .idle
    ∧ ControllerInv (writing [.hostWrite .w32 0x00C 0x00000110]) ∧ (writing [.hostWrite .w32 0x00C 0x00000110]).peerBusy = false :=
  ⟨by simp [opcodeRows], resting_inv _, rfl, writing_inv _, rfl⟩

theorem witness_CommandWhileBusyIsDropped : (writing [.hostWrite .w32 0x00C 0x10]).phase ≠ .idle
    ∧ (writing [.hostWrite .w32 0x00C 0x10]).peerBusy = false
    ∧ got (step { resting [.hostWrite .w32 0x008 0x200] with ovr := true }) (·.ovr) = some false
    ∧ got (step { resting [.reset] with ovr := true }) (·.ovr) = some false := by decide +kernel

theorem witness_IllegalAccessFaults : (Width.w8 ≠ .w32 ∨ (0x004 : BitVec 12).toNat % 4 ≠ 0) ∧ (Width.w16 ≠ .w32 ∨ (0x004 : BitVec 12).toNat % 4 ≠ 0)
    ∧ (Width.w32 ≠ .w32 ∨ (0x006 : BitVec 12).toNat % 4 ≠ 0) ∧ (resting [.hostRead .w32 0x006]).inputs = [.hostRead .w32 0x006]
    ∧ (resting [.hostWrite .w16 0x004 7]).inputs = [.hostWrite .w16 0x004 7] := by decide

theorem witness_ReadsHaveNoSideEffect : (0xFFC : BitVec 12).toNat % 4 = 0 ∧ (resting [.hostRead .w32 0xFFC]).phase = .idle
    ∧ (writing [.hostRead .w32 0xFFC]).phase ≠ .idle ∧ (writing [.hostRead .w32 0xFFC]).peerBusy = false := by decide

theorem witness_RegisterMapIsFaithful : (Reg.tx 31).exists = true ∧ (Reg.rx 47).exists = true ∧ (Reg.tx 32).exists = false
    ∧ (Reg.rx 48).exists = false ∧ Reg.lambdaI.exists = true := by decide

theorem witness_OperandRegistersStoreAndReadBack : ∀ off ∈ [(0x014 : BitVec 12), 0x018, 0x01C, 0x020, 0x024],
    (resting [.hostWrite .w32 off 0xFFFFFFFF]).phase = .idle
    ∧ (resting [.hostWrite .w32 off 0xFFFFFFFF]).inputs = .hostWrite .w32 off 0xFFFFFFFF :: []
    ∧ (writing [.hostWrite .w32 off 0x12345678]).phase ≠ .idle ∧ (writing [.hostWrite .w32 off 0x12345678]).peerBusy = false := by decide

/-- R26 to R29 at their offsets: the stored bits of an all-ones write. -/
theorem test_operand_registers : got (memWrite 0x014 0xFFFFFFFF State.reset) (fun t => (t.opcode, memRead 0x014 t)) = some (0xFFFF, 0xFFFF)
    ∧ got (memWrite 0x01C 0xFFFFFFFF State.reset) (fun t => (t.rdreg, memRead 0x01C t)) = some (0xFF, 0xFF)
    ∧ got (memWrite 0x020 0x12345678 State.reset) (fun t => (t.arg0, t.arg1, memRead 0x024 t)) = some (0x12345678, 0, 0) := by decide +kernel

theorem witness_StatusWriteClearsNamedBits : (resting [.hostWrite .w32 0x008 0xFFFFFFFF]).phase = .idle
    ∧ (writing [.hostWrite .w32 0x008 0x602]).phase ≠ .idle ∧ (writing [.hostWrite .w32 0x008 0x602]).peerBusy = false := by decide

theorem witness_DevaddrIsWrittenOnce : (resting [.hostWrite .w32 0x010 0x8000007F]).lock = false ∧ (0x8000007F : Word).toNat / 2 ^ 7 % 2 ^ 24 = 0
    ∧ (0x00000080 : Word).toNat / 2 ^ 7 % 2 ^ 24 ≠ 0 ∧ (writing [.hostWrite .w32 0x010 0x45]).lock = true
    ∧ got (step (writing [.hostWrite .w32 0x010 0x45])) (fun t => (t.lock, t.addr)) = some (true, 0x44) := by decide +kernel

theorem witness_CtrlWriteStoresThreeBits : (resting [.hostWrite .w32 0x004 0xFFFFFFFF]).phase = .idle
    ∧ (writing [.hostWrite .w32 0x004 0]).phase ≠ .idle ∧ (writing [.hostWrite .w32 0x004 0]).peerBusy = false := by decide

theorem witness_ConstantsReadBack : (0x04C : BitVec 12) ∈ [(0x040 : BitVec 12), 0x044, 0x048, 0x04C]
    ∧ (0x060 : BitVec 12) ∈ [(0x050 : BitVec 12), 0x054, 0x058, 0x05C, 0x060] ∧ (0x00010000 : Word).toNat % 2 ^ 16 = 0 := by decide

theorem witness_BufferWritesStoreOneByte : 31 < Config.txBufSize ∧ 47 < Config.rxBufSize ∧ (resting []).phase = .idle ∧ (writing []).phase ≠ .idle := by
  decide

theorem witness_ReadOnlyAndUnmappedOffsets : ∀ off ∈ [0x034, 0x03C, 0x064, 0x0FC, 0x180, 0x1FC, 0x2C0, 0xFFC],
    off % 4 = 0 ∧ ((0x034 ≤ off ∧ off ≤ 0x03C) ∨ (0x064 ≤ off ∧ off ≤ 0x0FC)
      ∨ (0x100 + 4 * Config.txBufSize ≤ off ∧ off ≤ 0x1FC) ∨ (0x200 + 4 * Config.rxBufSize ≤ off ∧ off ≤ 0xFFC)) := by decide

theorem witness_CrcbWritesTheRangeChecksum : 48 + 0 ≤ Config.rxBufSize ∧ 31 + 1 ≤ Config.txBufSize ∧ Config.rxBufSize < 47 + 2
    ∧ Config.txBufSize < 32 + 1 := by decide

theorem witness_CrcvalValidatesRx : (48 ≤ Config.rxBufSize ∧ 48 % 3 = 0) ∧ Config.rxBufSize < 51 ∧ 7 % 3 ≠ 0
    ∧ (0 ≤ Config.rxBufSize ∧ 0 % 3 = 0) := by decide

theorem witness_TxpackStoresACheckedWord : 29 + 3 ≤ Config.txBufSize ∧ Config.txBufSize < 30 + 3 := by decide

theorem witness_ConversionIsMonotonic : (start 0x7FFE 0).arg0.toNat % 2 ^ 16 ≤ (start 0x7FFF 0).arg0.toNat % 2 ^ 16
    ∧ (start 0x7FFF 0).tMin = (start 0x7FFE 0).tMin ∧ (start 0x7FFF 0).tSpan = (start 0x7FFE 0).tSpan
    ∧ (start 0x7FFF 0).rhMin = (start 0x7FFE 0).rhMin ∧ (start 0x7FFF 0).rhSpan = (start 0x7FFE 0).rhSpan
    ∧ (start 0x7FFF 0).rhFloor = (start 0x7FFE 0).rhFloor ∧ 0 ≤ (start 0x7FFE 0).tSpan.toInt ∧ (BitVec.ofInt 16 (-10000)).toInt ≤ 0 := by decide

theorem witness_RhicePassesThroughAboveFreezing : 0 ≤ (start 0 0).arg0.toInt := by decide

/-- The start state of V5's RHICE vector t = −1000, rh = 5000. -/
def icy : State := start (BitVec.ofInt 32 (-1000)) 5000

theorem icy_pair : (rhiceNeighbours icy.arg0 icy.arg1 icy.betaW icy.lambdaW icy.betaI icy.lambdaI).1 = some (5520, 5521) := by decide +kernel

theorem icy_fits : Fits32 (rhiceV icy.arg0 icy.arg1 icy.betaW icy.lambdaW icy.betaI icy.lambdaI) := by
  have h := (rhiceNeighbours icy.arg0 icy.arg1 icy.betaW icy.lambdaW icy.betaI icy.lambdaI).2
  rw [icy_pair] at h
  exact h.1

theorem witness_RhiceIsFaithfulBelowFreezing : icy.arg0.toInt < 0 ∧ icy.lambdaW ≠ 0 ∧ icy.lambdaI ≠ 0
    ∧ ∃ V : ℝ, V = (icy.arg1.toInt : ℝ) * Real.exp ((icy.betaW.toNat : ℝ) * icy.arg0.toInt / (100 * icy.lambdaW.toNat))
        / Real.exp ((icy.betaI.toNat : ℝ) * icy.arg0.toInt / (100 * icy.lambdaI.toNat))
      ∧ -2 ^ 31 ≤ ⌊V⌋ ∧ ⌈V⌉ ≤ 2 ^ 31 - 1 :=
  ⟨by decide, by decide, by decide, _, rfl, icy_fits.1, icy_fits.2⟩

/-- V5's RHICE vector that does not fit s32: t = −4000, rh = 2147483647. -/
def wide : State := start (BitVec.ofInt 32 (-4000)) 2147483647

theorem wide_pair : (rhiceNeighbours wide.arg0 wide.arg1 wide.betaW wide.lambdaW wide.betaI wide.lambdaI).1 = none := by decide +kernel

theorem witness_RhiceDomainErrors : wide.arg0.toInt < 0 ∧ ({ wide with lambdaW := 0 } : State).lambdaW = 0 ∧ ({ wide with lambdaI := 0 } : State).lambdaI = 0
    ∧ ∃ V : ℝ, V = (wide.arg1.toInt : ℝ) * Real.exp ((wide.betaW.toNat : ℝ) * wide.arg0.toInt / (100 * wide.lambdaW.toNat))
        / Real.exp ((wide.betaI.toNat : ℝ) * wide.arg0.toInt / (100 * wide.lambdaI.toNat))
      ∧ (⌊V⌋ < -2 ^ 31 ∨ 2 ^ 31 - 1 < ⌈V⌉) := by
  refine ⟨by decide, rfl, rfl, _, rfl, ?_⟩
  have h := (rhiceNeighbours wide.arg0 wide.arg1 wide.betaW wide.lambdaW wide.betaI wide.lambdaI).2
  rw [wide_pair] at h
  by_contra hn
  push Not at hn
  exact h hn

/-- V5's DEWPT vector t = 2508, rh = 4004. -/
def mild : State := start 2508 4004

theorem mild_pair : (dewptNeighbours mild.arg0 mild.arg1 mild.betaW mild.lambdaW (by decide)).1 = some (1054, 1055) := by decide +kernel

theorem witness_DewptIsFaithful : ∃ (b l : Nat) (c1 c2 den V : ℝ),
    (b, l) = (if 0 ≤ mild.arg0.toInt then (mild.betaW.toNat, mild.lambdaW.toNat) else (mild.betaI.toNat, mild.lambdaI.toNat))
    ∧ c1 = (b : ℝ) * mild.arg0.toInt / (100 * (l + mild.arg0.toInt)) ∧ c2 = Real.log ((mild.arg1.toInt : ℝ) / 10000)
    ∧ den = (b : ℝ) / 100 - c2 - c1 ∧ V = l * (c2 + c1) / den
    ∧ 0 < mild.arg1.toInt ∧ (l : Int) + mild.arg0.toInt ≠ 0 ∧ den ≠ 0 ∧ -2 ^ 31 ≤ ⌊V⌋ ∧ ⌈V⌉ ≤ 2 ^ 31 - 1 := by
  have h := (dewptNeighbours mild.arg0 mild.arg1 mild.betaW mild.lambdaW (by decide)).2
  rw [mild_pair] at h
  have hz : dewptDen mild.arg0 mild.arg1 mild.betaW mild.lambdaW ≠ 0 := by
    intro h0
    have := (dewptDenZero_iff (t := mild.arg0) (rh := mild.arg1) (b := mild.betaW) (l := mild.lambdaW) (by decide)).mpr h0
    exact absurd this (by decide +kernel)
  exact ⟨mild.betaW.toNat, mild.lambdaW.toNat, _, _, _, _, by decide, rfl, rfl, rfl, rfl, by decide, by decide, hz, h.1.1, h.1.2⟩

/-- An input so close to the pole that V leaves s32: b = 1000, l = 65535 at t = 0, rh = 220264658. -/
def steep : State := { start 0 220264658 with betaW := 1000, lambdaW := 65535 }

theorem steep_pair : (dewptNeighbours steep.arg0 steep.arg1 steep.betaW steep.lambdaW (by decide)).1 = none := by decide +kernel

theorem witness_DewptDomainErrors :
    ((start 2500 0).arg1.toInt ≤ 0 ∧ ((start (BitVec.ofInt 32 (-27262)) 5000).lambdaI.toNat : Int) + (start (BitVec.ofInt 32 (-27262)) 5000).arg0.toInt = 0)
    ∧ (∃ c1 c2 den : ℝ, c1 = ((0 : Nat) : ℝ) * (2000 : Int) / (100 * ((24312 : Nat) + (2000 : Int))) ∧ c2 = Real.log (((10000 : Int) : ℝ) / 10000)
        ∧ den = ((0 : Nat) : ℝ) / 100 - c2 - c1 ∧ den = 0)
    ∧ ∃ (b l : Nat) (c1 c2 den V : ℝ),
      (b, l) = (if 0 ≤ steep.arg0.toInt then (steep.betaW.toNat, steep.lambdaW.toNat) else (steep.betaI.toNat, steep.lambdaI.toNat))
      ∧ c1 = (b : ℝ) * steep.arg0.toInt / (100 * (l + steep.arg0.toInt)) ∧ c2 = Real.log ((steep.arg1.toInt : ℝ) / 10000)
      ∧ den = (b : ℝ) / 100 - c2 - c1 ∧ V = l * (c2 + c1) / den ∧ (⌊V⌋ < -2 ^ 31 ∨ 2 ^ 31 - 1 < ⌈V⌉) := by
  refine ⟨⟨by decide, by decide⟩, ⟨_, _, _, rfl, rfl, rfl, by simp⟩, steep.betaW.toNat, steep.lambdaW.toNat, _, _, _, _, by decide, rfl, rfl, rfl, rfl, ?_⟩
  have h := (dewptNeighbours steep.arg0 steep.arg1 steep.betaW steep.lambdaW (by decide)).2
  rw [steep_pair] at h
  by_contra hn
  push Not at hn
  exact h hn

theorem witness_DewPointIsAtMostTemperature : 0 < mild.arg1.toInt ∧ mild.arg1.toInt ≤ 10000 ∧ 0 ≤ mild.arg0.toInt ∧ 0 < mild.betaW.toNat
    ∧ 0 < mild.lambdaW.toNat ∧ 0 < (mild.lambdaW.toNat : Int) + mild.arg0.toInt
    ∧ 0 < (start 0xFFFFFFFF 10000).arg1.toInt ∧ (start 0xFFFFFFFF 10000).arg1.toInt = 10000 ∧ (start 0xFFFFFFFF 10000).arg0.toInt < 0
    ∧ 0 < (start 0xFFFFFFFF 10000).betaI.toNat ∧ 0 < ((start 0xFFFFFFFF 10000).lambdaI.toNat : Int) + (start 0xFFFFFFFF 10000).arg0.toInt := by
  decide

theorem witness_ConversionsAreDeterministic : (resting []).arg0 = State.reset.arg0 ∧ (writing []).arg1 = State.reset.arg1
    ∧ (writing []).rhFloor = State.reset.rhFloor ∧ (writing []).betaW = State.reset.betaW ∧ (writing []).lambdaW = State.reset.lambdaW
    ∧ (writing []).betaI = State.reset.betaI ∧ (writing []).lambdaI = State.reset.lambdaI
    ∧ Instr.dewpt ∈ [Instr.rhice, Instr.dewpt] := by decide

theorem witness_HumidityIsAtLeastTheFloor : (start 0 0).rhFloor ≠ 0 ∧ got (exec .cvtrh (start 0 0)) (·.err) = some .none
    ∧ got (exec .rhice (start 0 0)) (·.err) = some .none := by decide +kernel

theorem witness_XferRefusalsAreInOrder : Config.txBufSize < 33 ∧ Config.rxBufSize < 51 ∧ (State.reset.chkcrc = true ∧ 5 % 3 ≠ 0)
    ∧ (32 ≤ Config.txBufSize ∧ 48 ≤ Config.rxBufSize ∧ (State.reset.chkcrc = true → 48 % 3 = 0) ∧ State.reset.lock = false) := by decide

theorem witness_XferStartsATransaction : 32 ≤ Config.txBufSize ∧ 48 ≤ Config.rxBufSize ∧ ((start 0 0).chkcrc = true → 48 % 3 = 0)
    ∧ (start 0 0).lock = true ∧ (0 ≤ Config.txBufSize ∧ ({ start 0 0 with chkcrc := false } : State).chkcrc = false) := by decide

theorem witness_WriteAnswerMovesTheTransaction : ∀ e ∈ [Event.writeErr, Event.writeOk], (writing [e]).phase = .write ∧ (writing [e]).pend = .wr
    ∧ (writing [e]).scnt = 0 ∧ (writing [e]).xs = some shot ∧ (writing [e]).peerBusy = false ∧ (writing [e]).inputs = e :: [] := by decide

theorem witness_TickCountsInSettle : ∀ n ∈ [(1 : BitVec 17), 2, 11], (settling n [.tick]).inputs = .tick :: [] ∧ (settling n [.tick]).phase = .settle
    ∧ (settling n [.tick]).pend = .none ∧ (settling n [.tick]).xs = some shot ∧ (settling n [.tick]).scnt ≠ 0
    ∧ (settling n [.tick]).peerBusy = false := by
  intro n hn
  refine ⟨rfl, rfl, rfl, rfl, ?_, rfl⟩
  rintro rfl
  exact absurd hn (by decide)

theorem witness_TickOutsideSettleHasNoEffect : (writing [.tick]).inputs = .tick :: [] ∧ (writing [.tick]).phase ≠ .settle
    ∧ (writing [.tick]).peerBusy = false ∧ (resting [.tick]).phase = .idle := by decide

/-- P3's answer, and P4's. -/
def answer (last : Byte) : List Byte := [0x66, 0x83, 0xA7, 0x5A, 0x00, last]

theorem witness_ReadAnswerLandsAndEnds : (reading shot [.readOk (answer 0x88)]).inputs = .readOk (answer 0x88) :: []
    ∧ (reading shot [.readOk (answer 0x88)]).phase = .read ∧ (reading shot [.readOk (answer 0x88)]).pend = .rd
    ∧ (reading shot [.readOk (answer 0x88)]).xs = some shot ∧ (reading shot [.readOk (answer 0x88)]).peerBusy = false
    ∧ (answer 0x88).length = shot.rxlen.toNat ∧ shot.rxlen.toNat ≤ Config.rxBufSize ∧ shot.chk = true
    ∧ ({ shot with chk := false } : Snapshot).chk = false := by decide

/-- P4: the second word fails, and RX takes all six bytes all the same. -/
theorem test_answer : got (step (reading shot [.readOk (answer 0x88)])) statusWord = some 0x00000002
    ∧ got (step (reading { shot with fatal := true } [.readOk (answer 0)])) (fun s => (statusWord s, s.rx.bytes 0 6)) = some (0x00010162, answer 0) := by
  decide +kernel

theorem witness_ReadErrorEndsWithBusrd : (reading shot [.readErr]).inputs = .readErr :: [] ∧ (reading shot [.readErr]).phase = .read
    ∧ (reading shot [.readErr]).pend = .rd ∧ (reading shot [.readErr]).scnt = 0 := by decide

/-- What X8's snapshot asks: SETTLE 1 and nothing to read. -/
def brief : Snapshot := { shot with settle := 1, rxlen := 0 }

theorem witness_SettleTakesSettlePlusOneTicks : ∀ x ∈ [shot, brief],
    ({ writing (.writeOk :: (List.replicate (x.settle.toNat + 1) .tick ++ [])) with xs := some x } : State).phase = .write
    ∧ ({ writing (.writeOk :: (List.replicate (x.settle.toNat + 1) .tick ++ [])) with xs := some x } : State).pend = .wr
    ∧ ({ writing (.writeOk :: (List.replicate (x.settle.toNat + 1) .tick ++ [])) with xs := some x } : State).peerBusy = false
    ∧ x.settle ≠ 0 := by decide

/-- P3 up to its CMD write. -/
def measuring : State :=
  { start 0 0 with
    settle := 10
    inputs := .hostWrite .w32 0x00C (encode (.xfer .one 0 6)) :: .writeOk :: (List.replicate 11 .tick ++ .readOk (answer 0x88) :: []) }

theorem witness_TransactionRunsToCompletion : measuring.phase = .idle ∧ measuring.peerBusy = false ∧ measuring.lock = true
    ∧ measuring.settle ≠ 0 ∧ 0 ≤ Config.txBufSize ∧ 6 ≤ Config.rxBufSize ∧ (measuring.chkcrc = true → 6 % 3 = 0) ∧ (answer 0x88).length = 6
    ∧ measuring.settle.toNat + 1 = 11
    ∧ measuring.inputs = .hostWrite .w32 0x00C (encode (.xfer .one 0 6)) :: .writeOk
      :: (List.replicate (measuring.settle.toNat + 1) .tick ++ .readOk (answer 0x88) :: []) := by decide

theorem witness_OnlyTheOwnerMovesATransaction : (writing [.tick]).phase = .write ∧ Event.isAnswer .tick = false
    ∧ got (step (writing [.tick])) (·.phase) = some .write ∧ got (step (reading shot [.tick])) (·.phase) = some .read
    ∧ got (step (settling 11 [.writeOk])) (·.phase) = some .settle := by decide +kernel

theorem witness_UnansweredTransactionStaysBusy : (writing [.tick, .hostWrite .w32 0x00C 0x10]).phase = .write
    ∧ (writing [.tick, .hostWrite .w32 0x00C 0x10]).peerBusy = false
    ∧ (∀ e ∈ (writing [.tick, .hostWrite .w32 0x00C 0x10]).inputs, e = .tick ∨ e.isLegalHost = true) ∧ (reading shot [.tick]).phase = .read := by
  decide

theorem witness_HostCannotDisturbATransaction : (settling 11 [.hostWrite .w32 0x004 2]).phase ≠ .idle
    ∧ (settling 11 [.hostWrite .w32 0x004 2]).peerBusy = false ∧ Event.isLegalHost (.hostWrite .w32 0x004 2) = true
    ∧ Event.isLegalHost (.hostRead .w32 0x2BC) = true := by decide

theorem witness_CompletionIsAtomic : got (step (settling 1 [.tick])) (·.phase) = some .read
    ∧ got (step { settling 1 [.tick] with xs := some brief }) (·.phase) = some .idle
    ∧ got (step (reading shot [.readErr])) (·.phase) = some .idle ∧ (settling 1 [.tick]).phase ≠ .idle := by decide +kernel

theorem witness_ErrorsArePrecise : ∃ t, exec (.crcb .rx 47 2) State.reset = .next t ∧ State.reset.done = false ∧ State.reset.phase = .idle
    ∧ State.reset.pend = .none ∧ State.reset.scnt = 0 ∧ t.done = true ∧ t.err ≠ .none ∧ t.err ≠ .crc :=
  ⟨finish .badlen State.reset, rfl, rfl, rfl, rfl, rfl, rfl, by decide, by decide⟩

theorem witness_ResultHasSevenWriters : got (step (resting [.hostWrite .w32 0x00C 0x10])) (fun t => decide (t.result ≠ State.reset.result)) = some true
    ∧ got (step { resting [.reset] with result := 1 }) (·.result) = some 0 := by decide +kernel

theorem witness_ResetGivesTheTable : (writing [.reset]).inputs = .reset :: [] ∧ (resting [.reset]).inputs = .reset :: [] := by decide

theorem witness_ForeignTransactionsAreRefused : (writing [.peerStarts]).phase ≠ .idle ∧ ({ resting [.peerStarts] with peerBusy := true } : State).peerBusy = true
    ∧ (resting [.secondMaster]).inputs = .secondMaster :: [] ∧ got (step (resting [.peerStarts])) (·.peerBusy) = some true := by decide +kernel

theorem witness_StaleSnapshotHasNoEffect : ({ resting [.hostWrite .w32 0x00C 0x30] with xs := some shot } : State).phase = .idle := by decide

theorem resting_bounded (es : List Event) : BuffersBounded (resting es) :=
  ⟨fun _ h => absurd h List.not_mem_nil, fun _ h => absurd h List.not_mem_nil, fun _ h => by cases h⟩

theorem witness_StepKeepsBuffersCanonical : BuffersCanonical (resting [.hostWrite .w32 0x200 1])
    ∧ got (step (resting [.hostWrite .w32 0x200 1])) (·.rx) = some [(0, 1)] := ⟨⟨by decide, by decide⟩, by decide +kernel⟩

theorem witness_StepKeepsController : ControllerInv (writing [.writeOk])
    ∧ got (step (writing [.writeOk])) (fun t => (t.phase, t.scnt)) = some (.settle, 11) := ⟨writing_inv _, by decide +kernel⟩

theorem witness_StepKeepsBuffersBounded : BuffersBounded (resting [.hostWrite .w32 0x2BC 1])
    ∧ got (step (resting [.hostWrite .w32 0x2BC 1])) (·.rx) = some [(47, 1)] := ⟨resting_bounded _, by decide +kernel⟩

theorem witness_StepKeepsRegistersLegal : RegistersLegal (resting [.hostWrite .w32 0x050 0])
    ∧ got (step (resting [.hostWrite .w32 0x050 0])) (·.rhFloor) = some 1 :=
  ⟨⟨by decide, fun _ _ => BitVec.getLsbD_zero, by decide, by decide, fun _ h => by cases h⟩, by decide +kernel⟩

end Sys2Proof.Tests
end

namespace Sys2Proof.Machine

/-! ### The conversion commands: how they end and what they compute (R78 to R86) -/

theorem exec_cvtt (s : State) : exec .cvtt s = completeWith (s32 (lin s.tMin s.tSpan (rawCode s))) s := rfl

theorem exec_cvtrh (s : State) : exec .cvtrh s = completeWith (s32 (max (lin s.rhMin s.rhSpan (rawCode s)) (floorValue s))) s := rfl

theorem exec_rhice (s : State) : exec .rhice s = execRhice s := rfl

theorem exec_dewpt (s : State) : exec .dewpt s = execDewpt s := rfl

/-- Writing RESULT and ending by `finish` (R109) leaves all else as it was. -/
theorem finish_endedFrame (e : ErrCode) (v : Word) (s : State) : EndedFrame e s (finish e { s with result := v }) where
  common := {
    ended := by constructor <;> rfl
    setup := by constructor <;> rfl
    sticky := by constructor <;> rfl
    environment := by constructor <;> rfl
    inputs := rfl
    xs := rfl
    rx := fun _ => rfl }
  record := by constructor <;> rfl
  tx := fun _ => rfl

theorem completeWith_ends {r : Result} {v : Word} {s : State} (h : r = completeWith v s) :
    ∃ t, r = .next t ∧ EndedFrame .none s t ∧ t.result = v :=
  ⟨_, h, finish_endedFrame .none v s, rfl⟩

/-- The raw code of CVTT and CVTRH is the low half of ARG0 (R64). -/
theorem toNat_rawCode (s : State) : (rawCode s).toNat = s.arg0.toNat % 2 ^ 16 := by
  simp [rawCode]

/-- `lin` lies above its minimum by the integer nearest to `sp · raw / 65535`; the bound is strict because 65535 is odd (R12, R78). -/
theorem lin_nearest (mn sp raw : Half) :
    2 * |65535 * (lin mn sp raw - mn.toInt) - sp.toInt * (raw.toNat : Int)| < 65535 := by
  have hrnd := rnd_bounds (sp.toInt * (raw.toNat : Int)) 65535 (by decide)
  have hlin : lin mn sp raw - mn.toInt = rnd (sp.toInt * (raw.toNat : Int)) 65535 := add_sub_cancel_left ..
  have habs : |65535 * (lin mn sp raw - mn.toInt) - sp.toInt * (raw.toNat : Int)| ≤ 32767 := by
    rw [hlin, abs_le]
    omega
  omega

/-- A humidity that fits s32 still fits once it is floored (R84, R85). -/
theorem toInt_s32_floored {v : Int} (s : State) (h : -2 ^ 31 ≤ v ∧ v ≤ 2 ^ 31 - 1) :
    (s32 (max v (floorValue s))).toInt = max v (s.rhFloor.toNat : Int) := by
  have hfloor := s.rhFloor.isLt
  exact toInt_s32 (by omega) (by unfold floorValue; omega)

/-- A member of a faithful pair fits s32 (R80). -/
theorem drawn_bounds {V : ℝ} {pair : Int × Int} (up : Bool) (h : FaithfulPair V (some pair)) :
    -2 ^ 31 ≤ drawn up pair ∧ drawn up pair ≤ 2 ^ 31 - 1 := by
  obtain ⟨hd, -⟩ := drawn_faithful up h
  obtain ⟨⟨hlo, hhi⟩, -, -⟩ := h
  have hle := Int.floor_le_ceil V
  omega

/-- The coefficients DEWPT selects, as numbers (R81). -/
theorem magnusSel_toNat (s : State) : ((magnusSel s).1.toNat, (magnusSel s).2.toNat)
    = if 0 ≤ s.arg0.toInt then (s.betaW.toNat, s.lambdaW.toNat) else (s.betaI.toNat, s.lambdaI.toNat) := by
  unfold magnusSel operandT
  split <;> rfl

/-! ### RHICE and DEWPT read their operands and the constant registers only (R14, R87) -/

/-- The two states agree on what RHICE and DEWPT read. -/
structure SameOperands (s s' : State) : Prop where
  arg0 : s'.arg0 = s.arg0
  arg1 : s'.arg1 = s.arg1
  rhFloor : s'.rhFloor = s.rhFloor
  betaW : s'.betaW = s.betaW
  lambdaW : s'.lambdaW = s.lambdaW
  betaI : s'.betaI = s.betaI
  lambdaI : s'.lambdaI = s.lambdaI

/-- From both states the command completes with one and the same RESULT, or from both it ends with DOMAIN. -/
def EndsAlike (i : Instr) (s s' : State) : Prop :=
  (∃ v, exec i s = completeWith v s ∧ exec i s' = completeWith v s') ∨ (exec i s = raise .domain s ∧ exec i s' = raise .domain s')

theorem EndsAlike.outcome {i : Instr} {s s' : State} (h : EndsAlike i s s') :
    ∃ t t', exec i s = .next t ∧ exec i s' = .next t' ∧ t'.err = t.err
      ∧ (t.err = .none ∧ t'.result = t.result ∨ t.err = .domain ∧ t.result = s.result ∧ t'.result = s'.result) := by
  obtain ⟨v, h, h'⟩ | ⟨h, h'⟩ := h
  · exact ⟨_, _, h, h', rfl, .inl ⟨rfl, rfl⟩⟩
  · exact ⟨_, _, h, h', rfl, .inr ⟨rfl, rfl, rfl⟩⟩

theorem SameOperands.magnusSel_eq {s s' : State} (h : SameOperands s s') : magnusSel s' = magnusSel s := by
  unfold magnusSel operandT
  rw [h.arg0, h.betaW, h.lambdaW, h.betaI, h.lambdaI]

theorem SameOperands.rhice_endsAlike {s s' : State} (h : SameOperands s s') : EndsAlike .rhice s s' := by
  unfold EndsAlike
  rw [exec_rhice, exec_rhice]
  unfold execRhice operandT operandRh floorValue
  rw [h.arg0, h.arg1, h.rhFloor, h.betaW, h.lambdaW, h.betaI, h.lambdaI]
  split
  · exact .inl ⟨_, rfl, rfl⟩
  split
  · exact .inr ⟨rfl, rfl⟩
  split
  · exact .inr ⟨rfl, rfl⟩
  · exact .inl ⟨_, rfl, rfl⟩

theorem SameOperands.dewpt_endsAlike {s s' : State} (h : SameOperands s s') : EndsAlike .dewpt s s' := by
  unfold EndsAlike
  rw [exec_dewpt, exec_dewpt]
  unfold execDewpt operandT operandRh
  rw [h.magnusSel_eq, h.arg0, h.arg1]
  dsimp only
  split
  · split
    · exact .inr ⟨rfl, rfl⟩
    split
    · exact .inr ⟨rfl, rfl⟩
    split
    · exact .inr ⟨rfl, rfl⟩
    · exact .inl ⟨_, rfl, rfl⟩
  · exact .inr ⟨rfl, rfl⟩

/-! ### The conversion obligations -/

/-- Settles O26: RESULT is `lin`, which fits s32 and rounds to nearest. -/
theorem cvttRoundsToNearest : Obligations.CvttRoundsToNearest := by
  intro s
  obtain ⟨t, ht, hframe, hres⟩ := completeWith_ends (exec_cvtt s)
  have hb := lin_bounds s.tMin s.tSpan (rawCode s)
  refine ⟨t, ht, hframe, ?_⟩
  rw [hres, toInt_s32 (by omega) (by omega), ← toNat_rawCode]
  exact lin_nearest s.tMin s.tSpan (rawCode s)

/-- Settles O27: h is `lin`, and the floor is applied to it afterwards. -/
theorem cvtrhRoundsThenFloors : Obligations.CvtrhRoundsThenFloors := by
  intro s
  obtain ⟨t, ht, hframe, hres⟩ := completeWith_ends (exec_cvtrh s)
  have hb := lin_bounds s.rhMin s.rhSpan (rawCode s)
  refine ⟨t, ht, hframe, lin s.rhMin s.rhSpan (rawCode s), ?_, ?_⟩
  · rw [← toNat_rawCode]
    exact lin_nearest s.rhMin s.rhSpan (rawCode s)
  · rw [hres, toInt_s32_floored s (by omega)]

/-- Settles O30: V is `rhiceV`, and as it fits s32, RHICE draws from its faithful pair. -/
theorem rhiceIsFaithfulBelowFreezing : Obligations.RhiceIsFaithfulBelowFreezing := by
  rintro s V ht hw hi rfl hlo hhi
  obtain ⟨pair, hpair, hexec⟩ | ⟨hout, -⟩ := execRhice_pair ht hw hi
  · obtain ⟨t, ht, hframe, hres⟩ := completeWith_ends ((exec_rhice s).trans hexec)
    have hfloored := (congrArg BitVec.toInt hres).trans (toInt_s32_floored s (drawn_bounds _ hpair))
    exact ⟨t, ht, hframe, _, (drawn_faithful _ hpair).1, hfloored⟩
  · exact absurd ⟨hlo, hhi⟩ hout

/-- Settles O32: V is `dewptV` of the selected coefficients, and as its `den` is not 0 and it fits s32, DEWPT draws from its faithful pair. -/
theorem dewptIsFaithful : Obligations.DewptIsFaithful := by
  rintro s b l c1 c2 den V hsel rfl rfl rfl rfl hrh hpole hden hlo hhi
  obtain ⟨rfl, rfl⟩ := Prod.mk.inj (hsel.trans (magnusSel_toNat s).symm)
  have hz : dewptDenZero s.arg0 s.arg1 (magnusSel s).1 (magnusSel s).2 = false :=
    Bool.eq_false_iff.mpr fun h => hden ((dewptDenZero_iff hrh).mp h)
  obtain ⟨pair, hpair, hexec⟩ | ⟨hout, -⟩ := execDewpt_pair rfl hrh hpole hz
  · obtain ⟨t, ht, hframe, hres⟩ := completeWith_ends ((exec_dewpt s).trans hexec)
    obtain ⟨hmember, hfits⟩ := drawn_faithful _ hpair
    refine ⟨t, ht, hframe, ?_⟩
    rw [hres, hfits]
    exact hmember
  · exact absurd ⟨hlo, hhi⟩ hout

/-- Settles O35: states that agree on what the two commands read end alike. -/
theorem conversionsAreDeterministic : Obligations.ConversionsAreDeterministic := by
  intro s s' h0 h1 hf hbw hlw hbi hli i hi
  have h : SameOperands s s' := ⟨h0, h1, hf, hbw, hlw, hbi, hli⟩
  obtain rfl | rfl : i = .rhice ∨ i = .dewpt := by simpa using hi
  · exact h.rhice_endsAlike.outcome
  · exact h.dewpt_endsAlike.outcome

end Sys2Proof.Machine

namespace Sys2Proof.Machine

/-! ### Every step keeps what every act keeps -/

/-- A predicate that says nothing of the events to come is kept by every step where every act keeps it. -/
theorem step_keeps {P : State → Prop} (hinputs : ∀ (s : State) (rest : List Event), P s → P { s with inputs := rest })
    (hact : ∀ {e : Event} {s t : State}, Acted e s t → P s → P t) {s t : State} (hs : P s) (h : step s = .next t) : P t := by
  cases hi : s.inputs with
  | nil =>
    rw [step_nil hi] at h
    cases h
    exact hs
  | cons e rest => exact hact (step_acted hi h).1 (hinputs s rest hs)

/-- After the settle time a transaction either ends with NONE or reads (R96); in both cases nothing but the controller and STATUS changes. -/
theorem afterSettle_eq (x : Snapshot) (s : State) : afterSettle x s = { s with
    err := (afterSettle x s).err, done := (afterSettle x s).done, phase := (afterSettle x s).phase, pend := (afterSettle x s).pend
    scnt := 0, requests := (afterSettle x s).requests } := by
  unfold afterSettle
  split <;> rfl

@[simp] theorem afterSettle_tx (x : Snapshot) (s : State) : (afterSettle x s).tx = s.tx := by rw [afterSettle_eq]
@[simp] theorem afterSettle_rx (x : Snapshot) (s : State) : (afterSettle x s).rx = s.rx := by rw [afterSettle_eq]
@[simp] theorem afterSettle_xs (x : Snapshot) (s : State) : (afterSettle x s).xs = s.xs := by rw [afterSettle_eq]
@[simp] theorem afterSettle_lock (x : Snapshot) (s : State) : (afterSettle x s).lock = s.lock := by rw [afterSettle_eq]
@[simp] theorem afterSettle_addr (x : Snapshot) (s : State) : (afterSettle x s).addr = s.addr := by rw [afterSettle_eq]
@[simp] theorem afterSettle_result (x : Snapshot) (s : State) : (afterSettle x s).result = s.result := by rw [afterSettle_eq]
@[simp] theorem afterSettle_rhFloor (x : Snapshot) (s : State) : (afterSettle x s).rhFloor = s.rhFloor := by rw [afterSettle_eq]

theorem afterSettle_sameRecord (x : Snapshot) (s : State) : SameRecord s (afterSettle x s) where
  wfail := by rw [afterSettle_eq]
  failcnt := by rw [afterSettle_eq]
  crcwarn := by rw [afterSettle_eq]

/-! ### What a host write and a command that ends leave alone -/

theorem HostWrote.phase {s t : State} (h : HostWrote s t) : t.phase = s.phase := by rw [h.eq]
theorem HostWrote.pend {s t : State} (h : HostWrote s t) : t.pend = s.pend := by rw [h.eq]
theorem HostWrote.scnt {s t : State} (h : HostWrote s t) : t.scnt = s.scnt := by rw [h.eq]
theorem HostWrote.xs {s t : State} (h : HostWrote s t) : t.xs = s.xs := by rw [h.eq]
theorem HostWrote.result {s t : State} (h : HostWrote s t) : t.result = s.result := by rw [h.eq]

theorem HostWrote.sameRecord {s t : State} (h : HostWrote s t) : SameRecord s t where
  wfail := by rw [h.eq]
  failcnt := by rw [h.eq]
  crcwarn := by rw [h.eq]

theorem Wrote.lock {s m : State} (h : Wrote s m) : m.lock = s.lock := by rw [h.eq]
theorem Wrote.addr {s m : State} (h : Wrote s m) : m.addr = s.addr := by rw [h.eq]
theorem Wrote.rhFloor {s m : State} (h : Wrote s m) : m.rhFloor = s.rhFloor := by rw [h.eq]
theorem Wrote.rx {s m : State} (h : Wrote s m) : m.rx = s.rx := by rw [h.eq]
theorem Wrote.xs {s m : State} (h : Wrote s m) : m.xs = s.xs := by rw [h.eq]

/-! ### The buffers (R36, R37) -/

theorem Acted.buffersCanonical {e : Event} {s t : State} (h : Acted e s t) (hs : BuffersCanonical s) : BuffersCanonical t := by
  obtain ⟨htx, hrx⟩ := hs
  cases h with
  | write t off v _ _ h => exact ⟨h.canonical.1 htx, h.canonical.2 hrx⟩
  | command v c m _ _ h => exact ⟨h.canonical htx, h.rx.symm ▸ hrx⟩
  | settled x | noWait x => exact ⟨(afterSettle_tx x _).symm ▸ htx, (afterSettle_rx x _).symm ▸ hrx⟩
  | landed x bytes | checked x bytes => exact ⟨htx, Memory.writeBytes_wf _ _ _ hrx⟩
  | reset => exact ⟨⟨.nil, fun _ hc => (nomatch hc)⟩, ⟨.nil, fun _ hc => (nomatch hc)⟩⟩
  | _ => exact ⟨htx, hrx⟩

/-- An answer of the length the snapshot asks for lands within RX (R97). -/
theorem BuffersBounded.landing {s : State} {x : Snapshot} {bytes : List Byte} (hs : BuffersBounded s) (hx : s.xs = some x)
    (hn : bytes.length = x.rxlen.toNat) : ∀ c ∈ s.rx.writeBytes 0 bytes, c.1 < Config.rxBufSize := by
  intro c hc
  have hlen := (hs.xs x hx).rxlen
  rcases Memory.mem_writeBytes hc with hc | hc
  · omega
  · exact hs.rx c hc

theorem Acted.buffersBounded {e : Event} {s t : State} (h : Acted e s t) (hs : BuffersBounded s) : BuffersBounded t := by
  cases h with
  | write t off v _ _ h => exact ⟨h.boundedTx hs.tx, h.boundedRx hs.rx, h.xs.symm ▸ hs.xs⟩
  | command v c m _ _ h => exact ⟨h.bounded hs.tx, h.rx.symm ▸ hs.rx, h.xs.symm ▸ hs.xs⟩
  | start v x _ _ hx =>
    refine ⟨hs.tx, hs.rx, fun y hy => ?_⟩
    cases hy
    exact hx
  | settled x | noWait x => exact ⟨by simpa using hs.tx, by simpa using hs.rx, by simpa using hs.xs⟩
  | landed x bytes _ _ _ hx hn | checked x bytes _ _ _ hx hn => exact ⟨hs.tx, hs.landing hx hn, hs.xs⟩
  | reset => exact ⟨fun _ hc => (nomatch hc), fun _ hc => (nomatch hc), fun _ hx => (nomatch hx)⟩
  | _ => exact ⟨hs.tx, hs.rx, hs.xs⟩

/-! ### RH_FLOOR and the record of the last validation (R35, R71) -/

/-- RH_FLOOR apart, the registers stay legal where the record and the snapshot stay the same. -/
theorem RegistersLegal.congr {s t : State} (hs : RegistersLegal s) (h : SameRecord s t) (hfloor : t.rhFloor ≠ 0) (hxs : t.xs = s.xs) :
    RegistersLegal t where
  floor := hfloor
  high := h.wfail.symm ▸ hs.high
  count := by rw [h.wfail, h.failcnt]; exact hs.count
  warn := by rw [h.crcwarn, h.failcnt]; exact hs.warn
  xs := hxs.symm ▸ hs.xs

/-- A validation of at most RXBUF_SIZE bytes writes a record that agrees with itself (R71). -/
theorem RegistersLegal.validate {n : Nat} {s : State} (hs : RegistersLegal s) (hn : n ≤ Config.rxBufSize) : RegistersLegal (validate n s) := by
  obtain ⟨hmask, hbits, hcount, hwarn, hfailed⟩ := validate_record n s hn
  refine ⟨hs.floor, fun i hi => ?_, hbits, ?_, hs.xs⟩
  · have hword : ¬ i < n / 3 := by
      have : n / 3 ≤ Config.nWords := Nat.div_le_div_right hn
      omega
    rw [hmask, decide_eq_false hword, Bool.false_and]
  · rw [hwarn, decide_eq_decide, hfailed, ← hcount]
    exact (BitVec.toNat_inj (y := 0)).not

/-- A cleared record agrees with itself. -/
theorem RegistersLegal.of_clear {t : State} (hw : t.wfail = 0) (hf : t.failcnt = 0) (hc : t.crcwarn = false) (hfloor : t.rhFloor ≠ 0)
    (hxs : ∀ x, t.xs = some x → x.rxlen.toNat ≤ Config.rxBufSize) : RegistersLegal t where
  floor := hfloor
  high := fun _ _ => by rw [hw]; exact BitVec.getLsbD_zero
  count := by rw [hw, hf]; decide
  warn := by rw [hf, hc]; decide
  xs := hxs

/-- The start of a transaction clears the record (R90). -/
theorem startTransaction_registersLegal {x : Snapshot} {s : State} (hfloor : s.rhFloor ≠ 0) (hx : x.Accepted) :
    RegistersLegal (startTransaction x s) :=
  .of_clear rfl rfl rfl hfloor fun y hy => by
    cases hy
    exact hx.rxlen

/-- Reset clears the record and gives RH_FLOOR its value 1 (R124). -/
theorem applyReset_registersLegal (s : State) : RegistersLegal (applyReset s) :=
  .of_clear rfl rfl rfl (show State.reset.rhFloor ≠ 0 by decide) fun _ hx => (nomatch hx)

theorem Wrote.registersLegal {s m : State} (h : Wrote s m) (hs : RegistersLegal s) : RegistersLegal m := by
  have hfloor : m.rhFloor ≠ 0 := h.rhFloor.symm ▸ hs.floor
  rcases h.record with ⟨hw, hf, hc⟩ | ⟨n, hn, hw, hf, hc⟩
  · exact hs.congr ⟨hw, hf, hc⟩ hfloor h.xs
  · exact (hs.validate hn).congr ⟨hw, hf, hc⟩ hfloor h.xs

theorem RegistersLegal.finish {s : State} (hs : RegistersLegal s) (c : ErrCode) : RegistersLegal (finish c s) :=
  hs.congr ⟨rfl, rfl, rfl⟩ hs.floor rfl

theorem RegistersLegal.accept {s : State} (hs : RegistersLegal s) : RegistersLegal (accept s) := hs.congr ⟨rfl, rfl, rfl⟩ hs.floor rfl

theorem RegistersLegal.afterSettle {s : State} (hs : RegistersLegal s) (x : Snapshot) : RegistersLegal (afterSettle x s) :=
  hs.congr (afterSettle_sameRecord x s) ((afterSettle_rhFloor x s).symm ▸ hs.floor) (afterSettle_xs x s)

theorem Acted.registersLegal {e : Event} {s t : State} (h : Acted e s t) (hs : RegistersLegal s) : RegistersLegal t := by
  cases h with
  | write t off v _ _ h => exact hs.congr h.sameRecord (h.floor hs.floor) h.xs
  | command v c m _ _ h => exact (h.registersLegal hs.accept).finish c
  | start v x _ _ hx => exact startTransaction_registersLegal hs.floor hx
  | settled x => exact hs.afterSettle x
  | noWait x => exact (hs.congr (t := { s with pend := .none }) ⟨rfl, rfl, rfl⟩ hs.floor rfl).afterSettle x
  | checked x bytes _ _ _ hx =>
    have hlanded := hs.congr (t := { s with pend := .none, rx := s.rx.writeBytes 0 bytes }) ⟨rfl, rfl, rfl⟩ hs.floor rfl
    exact (hlanded.validate (hs.xs x hx)).finish _
  | reset => exact applyReset_registersLegal s
  | _ => exact hs.congr ⟨rfl, rfl, rfl⟩ hs.floor rfl

/-! ### The controller (R39, R40, R41) -/

theorem finish_controllerInv (c : ErrCode) (m : State) : ControllerInv (finish c m) where
  pend := rfl
  scnt_outside := fun _ => rfl
  scnt_inside := fun h => (nomatch h)
  held := fun h => absurd rfl h
  locked := fun h => absurd rfl h
  notDone := fun h => absurd rfl h

/-- What lies after the settle time is in step with itself: the end of the command, or READ with its request pending (R96). -/
theorem afterSettle_controllerInv {s : State} (x : Snapshot) (hheld : s.xs.isSome = true) (hlocked : s.lock = true) (hdone : s.done = false) :
    ControllerInv (afterSettle x s) := by
  by_cases h : x.rxlen.toNat = 0
  · rw [afterSettle_of_no_read s h]
    exact finish_controllerInv _ s
  · rw [afterSettle_of_reads s h]
    exact ⟨rfl, fun _ => rfl, fun h => (nomatch h), fun _ => hheld, fun _ => hlocked, fun _ => hdone⟩

/-- A write of the host that submits no command leaves the controller in step: what it can do to LOCK and DONE is harmless in a
transaction. -/
theorem HostWrote.controllerInv {s t : State} (h : HostWrote s t) (hs : ControllerInv s) : ControllerInv t := by
  refine ⟨?_, ?_, ?_, ?_, ?_, ?_⟩ <;> rw [h.phase]
  · exact h.pend.trans hs.pend
  · exact fun hp => h.scnt.trans (hs.scnt_outside hp)
  · rw [h.scnt, h.xs]
    exact hs.scnt_inside
  · rw [h.xs]
    exact hs.held
  · exact fun hp => (h.locked (hs.locked hp)).1
  · exact fun hp => Bool.eq_false_iff.mpr fun hd => Bool.eq_false_iff.mp (hs.notDone hp) (h.done hd)

theorem Acted.controllerInv {e : Event} {s t : State} (h : Acted e s t) (hs : ControllerInv s) : ControllerInv t := by
  cases h with
  | write t off v _ _ h => exact h.controllerInv hs
  | command | writeErr | readErr | landed | checked => exact finish_controllerInv _ _
  | start v x _ hp _ hl =>
    have hscnt : s.scnt = 0 := hs.scnt_outside (by rw [hp]; decide)
    exact ⟨rfl, fun _ => hscnt, fun h => (nomatch h), fun _ => rfl, fun _ => hl, fun _ => rfl⟩
  | count _ hp h0 h1 =>
    have hpos : s.scnt - 1 ≠ 0 := fun h => h1 (by simpa using sub_eq_zero.mp h)
    have hle : (s.scnt - 1).toNat ≤ s.scnt.toNat := by bv_omega
    have hbound := (hs.scnt_inside hp).2
    exact ⟨hs.pend, fun h => absurd hp h, fun _ => ⟨hpos, fun y hy => hle.trans (hbound y hy)⟩, hs.held, hs.locked, hs.notDone⟩
  | settled x _ hp | noWait x _ hp =>
    have hbusy : s.phase ≠ .idle := by rw [hp]; decide
    exact afterSettle_controllerInv x (hs.held hbusy) (hs.locked hbusy) (hs.notDone hbusy)
  | wait x _ hp _ hx =>
    have hbusy : s.phase ≠ .idle := by rw [hp]; decide
    have hscnt : (x.settle.zeroExtend 17 + 1).toNat = x.settle.toNat + 1 := by bv_omega
    refine ⟨rfl, fun h => absurd rfl h, fun _ => ⟨fun h0 => ?_, fun y hy => ?_⟩, fun _ => hs.held hbusy, fun _ => hs.locked hbusy,
      fun _ => hs.notDone hbusy⟩
    · have h0' : (x.settle.zeroExtend 17 + 1).toNat = 0 := congrArg BitVec.toNat h0
      omega
    · cases hx.symm.trans hy
      exact hscnt.le
  | reset => exact ⟨rfl, fun _ => rfl, fun h => (nomatch h), fun h => absurd rfl h, fun h => absurd rfl h, fun h => absurd rfl h⟩
  | _ => exact ⟨hs.pend, hs.scnt_outside, hs.scnt_inside, hs.held, hs.locked, hs.notDone⟩

/-! ### The invariants of every step -/

/-- Settles O56: every way an event can act keeps the canonical form. -/
theorem stepKeepsBuffersCanonical : Obligations.StepKeepsBuffersCanonical := by
  intro s t hs h
  exact step_keeps (fun _ _ hs => hs) Acted.buffersCanonical hs h

/-- Settles O57: `ControllerInv` is kept by every way an event can act. -/
theorem stepKeepsController : Obligations.StepKeepsController := by
  intro s t hs h
  exact step_keeps (fun _ _ ⟨hpend, hout, hin, hheld, hlock, hdone⟩ => ⟨hpend, hout, hin, hheld, hlock, hdone⟩) Acted.controllerInv hs h

/-- Settles O58: the acceptance checks of the snapshot bound what a read answer lands. -/
theorem stepKeepsBuffersBounded : Obligations.StepKeepsBuffersBounded := by
  intro s t hs h
  exact step_keeps (fun _ _ ⟨htx, hrx, hxs⟩ => ⟨htx, hrx, hxs⟩) Acted.buffersBounded hs h

/-- Settles O59: a record is written by a validation of at most RXBUF_SIZE bytes or cleared, and RH_FLOOR is written through `legalFloor`. -/
theorem stepKeepsRegistersLegal : Obligations.StepKeepsRegistersLegal := by
  intro s t hs h
  exact step_keeps (fun _ _ ⟨hfloor, hhigh, hcount, hwarn, hxs⟩ => ⟨hfloor, hhigh, hcount, hwarn, hxs⟩) Acted.registersLegal hs h

/-! ### The register map (R15, R46) -/

theorem lt_of_tx_exists {k : Nat} (h : (Reg.tx k).exists = true) : k < Config.txBufSize := of_decide_eq_true h

theorem lt_of_rx_exists {k : Nat} (h : (Reg.rx k).exists = true) : k < Config.rxBufSize := of_decide_eq_true h

/-- The register at a register's own offset is that register. -/
theorem regAt_offset {r : Reg} (hr : r.exists = true) : regAt r.offset = some r := by
  cases r with
  | tx k =>
    have hk := lt_of_tx_exists hr
    have hindex : (0x100 + 4 * k - 0x100) / 4 = k := by omega
    simp only [Reg.offset, regAt, hindex]
    rw [if_pos (by omega)]
  | rx k =>
    have hk := lt_of_rx_exists hr
    have htx : Config.txBufSize = 32 := rfl
    have hindex : (0x200 + 4 * k - 0x200) / 4 = k := by omega
    simp only [Reg.offset, regAt, hindex]
    rw [if_neg (by omega), if_pos (by omega)]
  | _ => rfl

/-- Every register lies in one of the four parts of the map (R15). -/
theorem offset_cases {r : Reg} (hr : r.exists = true) :
    r.offset ≤ 0x030 ∨ (0x040 ≤ r.offset ∧ r.offset ≤ 0x060)
      ∨ (0x100 ≤ r.offset ∧ r.offset < 0x100 + 4 * Config.txBufSize) ∨ (0x200 ≤ r.offset ∧ r.offset < 0x200 + 4 * Config.rxBufSize) := by
  cases r with
  | tx k =>
    have hk := lt_of_tx_exists hr
    simp only [Reg.offset]
    omega
  | rx k =>
    have hk := lt_of_rx_exists hr
    simp only [Reg.offset]
    omega
  | _ =>
    simp only [Reg.offset]
    omega

theorem offset_injective {r r' : Reg} (hr : r.exists = true) (hr' : r'.exists = true) (h : r'.offset = r.offset) : r' = r := by
  have h' := regAt_offset hr'
  rw [h, regAt_offset hr] at h'
  exact (Option.some.inj h').symm

theorem memRead_of_regAt {off : BitVec 12} {r : Reg} (h : regAt off.toNat = some r) (s : State) : memRead off s = readReg s r := by
  simp only [memRead, h]

theorem memWrite_of_regAt {off : BitVec 12} {r : Reg} (h : regAt off.toNat = some r) (v : Word) (s : State) :
    memWrite off v s = writeReg v s r := by
  simp only [memWrite, h]

theorem regAt_ofNat_offset {r : Reg} (hr : r.exists = true) : regAt (BitVec.ofNat 12 r.offset).toNat = some r := by
  have hlt : r.offset < 2 ^ 12 := by
    have h := offset_cases hr
    simp only [Config.txBufSize, Config.rxBufSize] at h
    omega
  rw [BitVec.toNat_ofNat, Nat.mod_eq_of_lt hlt, regAt_offset hr]

/-- A read changes only where the register at its offset reads differently. -/
theorem memRead_congr {off : BitVec 12} {s t : State} (h : ∀ r, regAt off.toNat = some r → readReg t r = readReg s r) :
    memRead off t = memRead off s := by
  rcases hr : regAt off.toNat with _ | r
  · simp only [memRead, hr]
  · rw [memRead_of_regAt hr, memRead_of_regAt hr, h r hr]

/-- An aligned offset that is no register's own holds none (R54). -/
theorem regAt_eq_none {off : Nat} (hoff : off % 4 = 0) (h : ∀ r : Reg, r.exists = true → r.offset ≠ off) : regAt off = none := by
  rcases hr : regAt off with _ | r
  · rfl
  · obtain ⟨hx, ho⟩ := regAt_exists hoff hr
    exact absurd ho (h r hx)

/-! ### Words put together from fields -/

/-- Appended words as numbers: the high one shifted up by the low one's width. -/
theorem toNat_append_eq_add {m n : Nat} (x : BitVec m) (y : BitVec n) : (x ++ y).toNat = x.toNat * 2 ^ n + y.toNat := by
  rw [BitVec.toNat_append, ← Nat.shiftLeft_add_eq_or_of_lt y.isLt, Nat.shiftLeft_eq]

theorem devaddrWord_toNat (s : State) : (devaddrWord s).toNat = (if s.lock then 2 ^ 31 else 0) + s.addr.toNat := by
  simp only [devaddrWord, toNat_append_eq_add, BitVec.toNat_ofBool]
  cases s.lock <;> simp

theorem scntWord_toNat (s : State) : (scntWord s).toNat = s.scnt.toNat := by
  have h := s.scnt.isLt
  simp only [scntWord, BitVec.truncate_eq_setWidth, BitVec.toNat_setWidth]
  omega

theorem statusWord_toNat (s : State) : (statusWord s).toNat
    = s.busy.toNat + 2 * s.done.toNat + 4 * s.phase.bits.toNat + 16 * s.err.bits.toNat + 256 * s.crcwarn.toNat + 512 * s.ovr.toNat
      + 1024 * s.cfgerr.toNat + 65536 * s.failcnt.toNat := by
  simp only [statusWord, toNat_append_eq_add, BitVec.toNat_ofBool, BitVec.toNat_ofNat]
  omega

/-- CTRL as a number is its three bits (R18). -/
theorem ctrlWord_writeCtrl_toNat (v : Word) (s : State) : (ctrlWord (writeCtrl v s)).toNat = v.toNat % 8 := by
  simp only [ctrlWord, toNat_append_eq_add, BitVec.toNat_ofBool, writeCtrl_chkcrc, writeCtrl_crcfatal, writeCtrl_ie, BitVec.getLsbD,
    Nat.toNat_testBit, BitVec.toNat_ofNat]
  omega

/-- The low bits of a word as the number's own bits. -/
theorem low_eq_ofNat (v : Word) (n : Nat) : v.extractLsb' 0 n = BitVec.ofNat n v.toNat := BitVec.eq_of_toNat_eq (by simp)

/-- A narrow register reads as its bits, those above 0 (R16). -/
theorem toNat_zeroExtend_low (v : Word) (n : Nat) : ((v.extractLsb' 0 n).zeroExtend 32).toNat = v.toNat % 2 ^ n := by
  have hlt : v.toNat % 2 ^ n < 2 ^ 32 := lt_of_le_of_lt (Nat.mod_le _ _) v.isLt
  simpa [low_eq_ofNat] using hlt

/-- A register of the s16 access type reads back the signed number of the low half (R16). -/
theorem toInt_signExtend_low (v : Word) : ((v.extractLsb' 0 16).signExtend 32).toInt = (BitVec.ofNat 16 (v.toNat % 2 ^ 16)).toInt := by
  rw [BitVec.toInt_signExtend_of_le (by decide), low_eq_ofNat]
  congr 1
  exact BitVec.eq_of_toNat_eq (by simp)

/-- RH_FLOOR reads back what was written, or 1 for 0 (R35). -/
theorem legalFloor_toNat (v : Word) : ((legalFloor v).zeroExtend 32).toNat = if v.toNat % 2 ^ 16 = 0 then 1 else v.toNat % 2 ^ 16 := by
  have hzero : v.extractLsb' 0 16 = 0 ↔ v.toNat % 2 ^ 16 = 0 := by
    rw [← BitVec.toNat_inj]
    simp
  unfold legalFloor
  simp only [hzero]
  split
  · rfl
  · exact toNat_zeroExtend_low v 16

/-- A byte that has just been written reads as the low byte of the word. -/
theorem toNat_read_write_same (m : Memory) (k : Nat) (v : Word) :
    (((m.write k (v.extractLsb' 0 8)).read k).zeroExtend 32).toNat = v.toNat % 256 := by
  rw [Memory.read_write, if_pos rfl]
  exact toNat_zeroExtend_low v 8

/-! ### The host's writes, one register at a time -/

/-- A legal write whose effect leaves at most one transaction on the bus is a step. -/
theorem step_hostWrite {s t : State} {off : BitVec 12} {v : Word} {rest : List Event} (hi : s.inputs = .hostWrite .w32 off v :: rest)
    (hoff : off.toNat % 4 = 0) (hw : memWrite off v { s with inputs := rest } = .next t) (ht : t.phase ≠ .idle → t.peerBusy = false) :
    step s = .next t := by
  rw [step_cons hi]
  exact serve_eq_next_iff.mpr ⟨(act_hostWrite hoff v _).trans hw, ht⟩

/-- A write to a register shows at that register only, but for CMD, which runs a command, and DEVADDR, which may set CFGERR (R25). -/
theorem readReg_writeReg_of_ne {c r : Reg} {v : Word} {s t : State} (h : writeReg v s c = .next t) (hcmd : c ≠ .cmd) (hdev : c ≠ .devaddr)
    (hr : r ≠ c) : readReg t r = readReg s r := by
  cases c with
  | cmd => exact absurd rfl hcmd
  | devaddr => exact absurd rfl hdev
  | ctrl =>
    cases h
    cases r with
    | ctrl => exact absurd rfl hr
    | _ => rfl
  | tx k =>
    cases h
    cases r with
    | tx j =>
      have hkj : k ≠ j := fun hkj => hr (congrArg Reg.tx hkj.symm)
      simp only [readReg, Memory.read_write, if_neg hkj]
    | _ => rfl
  | rx k =>
    cases h
    unfold writeRx
    split
    · rfl
    · cases r with
      | rx j =>
        have hkj : k ≠ j := fun hkj => hr (congrArg Reg.rx hkj.symm)
        simp only [readReg, Memory.read_write, if_neg hkj]
      | _ => rfl
  | _ =>
    cases h
    cases r <;> simp [readReg, ctrlWord, statusWord, devaddrWord, scntWord, State.busy] at hr ⊢

theorem writeRx_idle {s : State} (h : s.phase = .idle) (k : Nat) (v : Word) :
    writeRx k v s = { s with rx := s.rx.write k (v.extractLsb' 0 8) } := if_neg (by simp [(busy_eq_false_iff s).mpr h])

theorem writeRx_busy {s : State} (h : s.phase ≠ .idle) (k : Nat) (v : Word) : writeRx k v s = s := if_pos ((busy_iff s).mpr h)

/-- A plain register is found at its own offset only, aligned or not. -/
theorem offset_of_regAt_plain {off : Nat} {c : Reg} (h : regAt off = some c) (hc : c ∈ plainRegs) : c.offset = off := by
  unfold regAt at h
  split at h
  · cases h
    simp [plainRegs] at hc
  · split at h
    · cases h
      simp [plainRegs] at hc
    · simpa using List.find?_some h

/-- A write to a register shows at no offset that is another's, but for CMD and DEVADDR. -/
theorem memRead_writeReg_of_ne {off : BitVec 12} {c : Reg} {v : Word} {s t : State} (h : writeReg v s c = .next t) (hcmd : c ≠ .cmd)
    (hdev : c ≠ .devaddr) (hne : regAt off.toNat ≠ some c) : memRead off t = memRead off s :=
  memRead_congr fun _ hr => readReg_writeReg_of_ne h hcmd hdev fun hrc => hne (hrc ▸ hr)

/-- A write to a plain register, CMD and DEVADDR apart, gives the register a word that reads with the property `P`, and shows nowhere else. -/
theorem memWrite_plain {off : BitVec 12} {c : Reg} {v : Word} {s t : State} {P : Word → Prop} (hc : c ∈ plainRegs ∧ c ≠ .cmd ∧ c ≠ .devaddr)
    (hoff : regAt off.toNat = some c) (h : writeReg v s c = .next t) (hP : P (readReg t c)) :
    ∃ t, memWrite off v s = .next t ∧ P (memRead off t) ∧ ∀ off' : BitVec 12, off' ≠ off → memRead off' t = memRead off' s := by
  obtain ⟨hplain, hcmd, hdev⟩ := hc
  refine ⟨t, (memWrite_of_regAt hoff v s).trans h, (memRead_of_regAt hoff t).symm ▸ hP, fun off' hne => ?_⟩
  refine memRead_writeReg_of_ne h hcmd hdev fun hoff' => hne (BitVec.eq_of_toNat_eq ?_)
  exact (offset_of_regAt_plain hoff' hplain).symm.trans (offset_of_regAt_plain hoff hplain)

/-! ### What reset gives, and what nothing else takes from a locked DEVADDR -/

/-- After reset every offset reads as in `State.reset`, whatever the environment holds. -/
theorem memRead_applyReset (off : BitVec 12) (s : State) : memRead off (applyReset s) = memRead off State.reset := by
  refine memRead_congr fun r _ => ?_
  cases r <;> rfl

/-- Only reset clears LOCK or changes a locked address (R25). -/
theorem Acted.locked {e : Event} {s t : State} (h : Acted e s t) (hl : s.lock = true) (he : e ≠ .reset) : t.lock = true ∧ t.addr = s.addr := by
  cases h with
  | write t off v _ _ h => exact h.locked hl
  | command v c m _ _ h => exact ⟨h.lock.trans hl, h.addr⟩
  | settled x | noWait x => exact ⟨(afterSettle_lock x _).trans hl, afterSettle_addr x _⟩
  | reset h => exact absurd h he
  | _ => exact ⟨hl, rfl⟩

/-! ### What the registers read and store -/

/-- Settles O11: `regAt` finds each register of the map at its own offset, and so no other there. -/
theorem registerMapIsFaithful : Obligations.RegisterMapIsFaithful := by
  refine ⟨by decide, fun k => ⟨rfl, rfl⟩, fun r hr => ⟨fun s => ?_, fun s v => ?_, fun r' hr' h => offset_injective hr hr' h⟩,
    fun s => ⟨devaddrWord_toNat s, rfl, rfl, scntWord_toNat s⟩⟩
  · exact memRead_of_regAt (regAt_ofNat_offset hr) s
  · exact memWrite_of_regAt (regAt_ofNat_offset hr) v s

/-- Settles O13: the word is a sum of its fields, and the codes of PHASE and ERR are those of R39 and R104. -/
theorem statusWordHasTheLayout : Obligations.StatusWordHasTheLayout := by
  intro s
  have hword : memRead 0x008 s = statusWord s := rfl
  have hflag : ∀ (b : Bool) (n : Nat), (if b then n else 0) = n * b.toNat := fun b n => by cases b <;> simp
  rw [hword, statusWord_toNat]
  simp only [hflag, State.busy]
  cases s.phase <;> cases s.err <;> simp [Phase.bits, ErrCode.bits]

/-- Settles O15: the write is `writeDevaddr`, and every way an event other than reset can act keeps a locked DEVADDR. -/
theorem devaddrIsWrittenOnce : Obligations.DevaddrIsWrittenOnce := by
  refine ⟨fun s rest v hi hpeer => ?_, fun s t e rest hi h hl he => (step_acted hi h).1.locked hl he⟩
  have hzero : v.extractLsb' 7 24 = 0 ↔ v.toNat / 2 ^ 7 % 2 ^ 24 = 0 := by
    rw [← BitVec.toNat_inj, BitVec.extractLsb'_toNat, Nat.shiftRight_eq_div_pow]
    rfl
  have haddr : v.extractLsb' 0 7 = BitVec.ofNat 7 (v.toNat % 2 ^ 7) := BitVec.eq_of_toNat_eq (by simp)
  have hwrite : memWrite 0x010 v { s with inputs := rest } = .next (writeDevaddr v { s with inputs := rest }) := rfl
  apply step_hostWrite hi (by decide)
  · rw [hwrite, writeDevaddr, haddr]
    simp only [hzero]
  · split <;> exact hpeer

/-- Settles O16: the write is `writeCtrl`, and IRQ is a view of IE and DONE. -/
theorem ctrlWriteStoresThreeBits : Obligations.CtrlWriteStoresThreeBits := by
  intro s rest v hi hpeer
  exact ⟨writeCtrl v { s with inputs := rest }, step_hostWrite hi (by decide) rfl hpeer, rfl, ctrlWord_writeCtrl_toNat v _, rfl⟩

/-- Settles O14: the write is `writeStatus`. -/
theorem statusWriteClearsNamedBits : Obligations.StatusWriteClearsNamedBits := by
  intro s rest v hi hpeer
  have hclear : ∀ a b : Bool, (a && !b) = if b then false else a := by decide
  simp only [hclear]
  exact step_hostWrite hi (by decide) rfl hpeer

/-- Settles O12: each write is its register's own, and reads back what the field holds. -/
theorem operandRegistersStoreAndReadBack : Obligations.OperandRegistersStoreAndReadBack := by
  intro s rest v hpeer
  exact ⟨
    fun hi => ⟨_, step_hostWrite hi (by decide) rfl hpeer, congrArg (fun w => { s with inputs := rest, opcode := w }) (low_eq_ofNat v 16),
      toNat_zeroExtend_low v 16⟩,
    fun hi => ⟨_, step_hostWrite hi (by decide) rfl hpeer, congrArg (fun w => { s with inputs := rest, settle := w }) (low_eq_ofNat v 16),
      toNat_zeroExtend_low v 16⟩,
    fun hi => ⟨_, step_hostWrite hi (by decide) rfl hpeer, congrArg (fun w => { s with inputs := rest, rdreg := w }) (low_eq_ofNat v 8),
      toNat_zeroExtend_low v 8⟩,
    fun hi => ⟨_, step_hostWrite hi (by decide) rfl hpeer, rfl, rfl⟩,
    fun hi => ⟨_, step_hostWrite hi (by decide) rfl hpeer, rfl, rfl⟩⟩

/-- Settles O6: the write is accepted, and its word decodes to the command. -/
theorem stepRunsTheDecodedCommand : Obligations.StepRunsTheDecodedCommand := by
  intro s rest v i hi hp hd
  have hrun : ∀ u : State, runCommand v u = exec i u := fun u => by simp only [runCommand, hd]
  rw [step_cons hi, serve, act_hostWrite (by decide), memWrite_cmd, submit_idle (s := { s with inputs := rest }) hp, hrun]
  rfl

/-- Settles O53: the step is `applyReset`, and the block's fields are those of `State.reset`. -/
theorem resetGivesTheTable : Obligations.ResetGivesTheTable := by
  intro s rest hi
  refine ⟨applyReset { s with inputs := rest }, ?_, rfl, rfl, rfl, rfl, fun k => ⟨rfl, rfl⟩, ?_, ?_⟩
  · rw [step_cons hi]
    exact serve_eq_next_iff.mpr ⟨rfl, fun h => absurd rfl h⟩
  · simp only [memRead_applyReset]
    decide
  · simp only [memRead_applyReset]
    decide

/-- Settles O52: of all the ways an event can act, only a command that ends and reset write RESULT. -/
theorem resultHasSevenWriters : Obligations.ResultHasSevenWriters := by
  intro s t e rest hi h hne
  cases (step_acted hi h).1 with
  | write t off v _ _ h => exact absurd h.result hne
  | command v c m he hp _ hr =>
    rcases hr with hr | ⟨rfl, i, hd, hw⟩
    · exact absurd hr hne
    · exact .inr ⟨v, i, he, hp, hd, rfl, rfl, hw⟩
  | settled x | noWait x => exact absurd (afterSettle_result x _) hne
  | reset he => exact .inl he
  | _ => exact absurd rfl hne

/-- Settles O19: read-only registers are written by no rule, and `regAt` finds no register in the gaps of the map. -/
theorem readOnlyAndUnmappedOffsets : Obligations.ReadOnlyAndUnmappedOffsets := by
  intro s
  refine ⟨rfl, rfl, ?_, fun off v hoff hgap => ?_⟩
  · simp only [List.forall_mem_cons]
    exact ⟨fun _ => rfl, fun _ => rfl, fun _ => rfl, fun _ => rfl, fun _ h => (nomatch h)⟩
  · have hnone : regAt off.toNat = none := regAt_eq_none hoff fun r hr => by
      have h := offset_cases hr
      simp only [Config.txBufSize, Config.rxBufSize] at h hgap
      omega
    constructor
    · simp only [memRead, hnone]
    · simp only [memWrite, hnone]

/-- Settles O17: each constant's write stores its low half, or what `legalFloor` makes of it, and shows nowhere else. -/
theorem constantsReadBack : Obligations.ConstantsReadBack := by
  constructor
  · intro off hoff s v
    simp only [List.mem_cons, List.not_mem_nil, or_false] at hoff
    have hs16 := toInt_signExtend_low v
    obtain rfl | rfl | rfl | rfl := hoff
    · exact memWrite_plain (c := .tMin) (P := fun w => w.toInt = _) (by decide) rfl rfl hs16
    · exact memWrite_plain (c := .tSpan) (P := fun w => w.toInt = _) (by decide) rfl rfl hs16
    · exact memWrite_plain (c := .rhMin) (P := fun w => w.toInt = _) (by decide) rfl rfl hs16
    · exact memWrite_plain (c := .rhSpan) (P := fun w => w.toInt = _) (by decide) rfl rfl hs16
  · intro off hoff s v
    simp only [List.mem_cons, List.not_mem_nil, or_false] at hoff
    have hu16 := toNat_zeroExtend_low v 16
    have hfloor : ((legalFloor v).zeroExtend 32).toNat
        = if (0x050 : BitVec 12) = 0x050 ∧ v.toNat % 2 ^ 16 = 0 then 1 else v.toNat % 2 ^ 16 := by
      simp only [legalFloor_toNat, true_and]
    obtain rfl | rfl | rfl | rfl | rfl := hoff
    · exact memWrite_plain (c := .rhFloor) (P := fun w => w.toNat = _) (by decide) rfl rfl hfloor
    · exact memWrite_plain (c := .betaW) (P := fun w => w.toNat = _) (by decide) rfl rfl hu16
    · exact memWrite_plain (c := .lambdaW) (P := fun w => w.toNat = _) (by decide) rfl rfl hu16
    · exact memWrite_plain (c := .betaI) (P := fun w => w.toNat = _) (by decide) rfl rfl hu16
    · exact memWrite_plain (c := .lambdaI) (P := fun w => w.toNat = _) (by decide) rfl rfl hu16

/-- Settles O18: a byte write stores at its own index, RX only while BUSY = 0, and shows at no other register. -/
theorem bufferWritesStoreOneByte : Obligations.BufferWritesStoreOneByte := by
  refine ⟨fun k s v hk => ?_, fun k s v hk => ?_⟩
  · have hreg := regAt_ofNat_offset (r := .tx k) (decide_eq_true hk)
    refine ⟨_, memWrite_of_regAt hreg v s, ?_, fun off hne hoff => ?_⟩
    · exact (congrArg BitVec.toNat (memRead_of_regAt hreg _)).trans (toNat_read_write_same s.tx k v)
    · exact memRead_writeReg_of_ne (c := .tx k) rfl nofun nofun fun h => hne (regAt_exists hoff h).2.symm
  · have hreg := regAt_ofNat_offset (r := .rx k) (decide_eq_true hk)
    refine ⟨writeRx k v s, memWrite_of_regAt hreg v s, fun hp => ?_, fun hp => writeRx_busy hp k v, fun off hne hoff => ?_⟩
    · rw [writeRx_idle hp]
      exact (congrArg BitVec.toNat (memRead_of_regAt hreg _)).trans (toNat_read_write_same s.rx k v)
    · exact memRead_writeReg_of_ne (c := .rx k) rfl nofun nofun fun h => hne (regAt_exists hoff h).2.symm

/-! ### The snapshot outside a transaction (R38) -/

/-- The outcome of the second run beside that of the first: the same, or a next state in IDLE that differs in XS only. -/
def AlikeButSnapshot (x : Option Snapshot) (r r' : Result) : Prop :=
  r' = r ∨ ∃ t : State, t.phase = .idle ∧ r = .next t ∧ r' = .next { t with xs := x }

theorem AlikeButSnapshot.of_next {x : Option Snapshot} {r r' : Result} {t : State} (h : r = .next t) (h' : r' = .next { t with xs := x })
    (hp : t.phase = .idle) : AlikeButSnapshot x r r' := .inr ⟨t, hp, h, h'⟩

/-- The guard of the bus does not look at XS. -/
theorem AlikeButSnapshot.guardBus {x : Option Snapshot} {r r' : Result} (h : AlikeButSnapshot x r r') :
    AlikeButSnapshot x (guardBus r) (guardBus r') := by
  obtain rfl | ⟨t, hp, rfl, rfl⟩ := h
  · exact .inl rfl
  · exact .of_next (guardBus_next fun h => absurd hp h) (guardBus_next (s := { t with xs := x }) fun h => absurd hp h) hp

/-- No read shows XS. -/
theorem memRead_withSnapshot (off : BitVec 12) (s : State) (x : Option Snapshot) : memRead off { s with xs := x } = memRead off s := by
  refine memRead_congr fun r _ => ?_
  cases r <;> rfl

theorem raise_alike (e : ErrCode) (s : State) (x : Option Snapshot) : AlikeButSnapshot x (raise e s) (raise e { s with xs := x }) :=
  .of_next rfl rfl rfl

theorem completeWith_alike (v : Word) (s : State) (x : Option Snapshot) :
    AlikeButSnapshot x (completeWith v s) (completeWith v { s with xs := x }) := .of_next rfl rfl rfl

/-- A command that ends alike from two states that differ in XS leaves them alike but for XS. -/
theorem EndsAlike.butSnapshot {i : Instr} {s : State} {x : Option Snapshot} (h : EndsAlike i s { s with xs := x }) :
    AlikeButSnapshot x (exec i s) (exec i { s with xs := x }) := by
  obtain ⟨v, h, h'⟩ | ⟨h, h'⟩ := h <;> rw [h, h']
  · exact completeWith_alike v s x
  · exact raise_alike .domain s x

/-- No command reads XS, and an accepted XFER takes a snapshot of its own (R91). -/
theorem exec_alike (i : Instr) (s : State) (x : Option Snapshot) : AlikeButSnapshot x (exec i s) (exec i { s with xs := x }) := by
  have hsame : SameOperands s { s with xs := x } := by constructor <;> rfl
  cases i with
  | crcw | crcv | cvtt | cvtrh => exact completeWith_alike _ s x
  | crcb buf start count =>
    simp only [exec, execCrcb]
    split
    · exact raise_alike .badlen s x
    · cases buf <;> exact completeWith_alike _ s x
  | crcval len =>
    simp only [exec, execCrcval]
    split
    · exact raise_alike .badlen s x
    · exact .of_next (validateAndFinish_cases len s.crcfatal s) (validateAndFinish_cases len s.crcfatal { s with xs := x }) rfl
  | txpack idx =>
    simp only [exec, execTxpack]
    split
    · exact raise_alike .badlen s x
    · exact .of_next rfl rfl rfl
  | rhice => exact hsame.rhice_endsAlike.butSnapshot
  | dewpt => exact hsame.dewpt_endsAlike.butSnapshot
  | xfer opl txlen rxlen =>
    simp only [exec, execXfer]
    split
    · exact raise_alike .badlen s x
    split
    · exact raise_alike .badlen s x
    split
    · exact raise_alike .badlen s x
    split
    · exact raise_alike .noaddr s x
    · exact .inl rfl

/-- In IDLE neither TICK nor an answer has an effect (R95; log entry 6). -/
theorem act_of_idle {e : Event} {s : State} (he : e = .tick ∨ e.isAnswer = true) (hp : s.phase = .idle) : act e s = .next s := by
  have hw : s.writeOutstanding = false := by simp [State.writeOutstanding, hp]
  have hr : s.readOutstanding = false := by simp [State.readOutstanding, hp]
  cases e with
  | tick => exact onTick_outside (by rw [hp]; decide)
  | writeOk => simp [act, onWriteOk, hw]
  | writeErr => simp [act, onWriteErr, hw]
  | readOk bytes => simp [act, onReadOk, hr]
  | readErr => simp [act, onReadErr, hr]
  | _ => simp [Event.isAnswer] at he

/-- A register write, CMD's apart, does not look at XS. -/
theorem writeReg_alike {r : Reg} (hr : r ≠ .cmd) (v : Word) {s : State} (hp : s.phase = .idle) (x : Option Snapshot) :
    AlikeButSnapshot x (writeReg v s r) (writeReg v { s with xs := x } r) := by
  cases r with
  | cmd => exact absurd rfl hr
  | devaddr =>
    simp only [writeReg, writeDevaddr]
    split
    · exact .of_next rfl rfl hp
    · exact .of_next rfl rfl hp
  | rx k =>
    simp only [writeReg]
    rw [writeRx_idle hp, writeRx_idle (s := { s with xs := x }) hp]
    exact .of_next rfl rfl hp
  | _ => exact .of_next rfl rfl hp

theorem runCommand_alike (v : Word) (s : State) (x : Option Snapshot) :
    AlikeButSnapshot x (runCommand v s) (runCommand v { s with xs := x }) := by
  unfold runCommand
  split
  · exact exec_alike _ s x
  · exact .of_next rfl rfl rfl

theorem memWrite_alike (off : BitVec 12) (v : Word) {s : State} (hp : s.phase = .idle) (x : Option Snapshot) :
    AlikeButSnapshot x (memWrite off v s) (memWrite off v { s with xs := x }) := by
  rcases hr : regAt off.toNat with _ | r
  · simp only [memWrite, hr]
    exact .of_next rfl rfl hp
  · rw [memWrite_of_regAt hr, memWrite_of_regAt hr]
    by_cases hc : r = .cmd
    · subst hc
      simp only [writeReg]
      rw [submit_idle hp, submit_idle (s := { s with xs := x }) hp]
      exact runCommand_alike v (accept s) x
    · exact writeReg_alike hc v hp x

/-- In IDLE no event looks at XS. -/
theorem act_alike (e : Event) {s : State} (hp : s.phase = .idle) (x : Option Snapshot) :
    AlikeButSnapshot x (act e s) (act e { s with xs := x }) := by
  have hidle : e = .tick ∨ e.isAnswer = true → AlikeButSnapshot x (act e s) (act e { s with xs := x }) :=
    fun he => .of_next (act_of_idle he hp) (act_of_idle (s := { s with xs := x }) he hp) hp
  cases e with
  | hostRead width off =>
    simp only [act]
    split
    · exact .of_next rfl (by rw [memRead_withSnapshot]) hp
    · exact .inl rfl
  | hostWrite width off v =>
    simp only [act]
    split
    · exact memWrite_alike off v hp x
    · exact .inl rfl
  | tick => exact hidle (.inl rfl)
  | writeOk | writeErr | readOk _ | readErr => exact hidle (.inr rfl)
  | reset | secondMaster => exact .inl rfl
  | peerStarts =>
    simp only [act]
    split
    · exact .inl rfl
    · exact .of_next rfl rfl hp
  | peerEnds => exact .of_next rfl rfl hp

/-- Settles O55: in IDLE no event looks at XS, so the two steps are alike but for XS, and the same where a transaction starts. -/
theorem staleSnapshotHasNoEffect : Obligations.StaleSnapshotHasNoEffect := by
  intro s x hp
  have hstep : AlikeButSnapshot x (step s) (step { s with xs := x }) := by
    by_cases hi : s.inputs = []
    · exact .of_next (step_nil hi) (step_nil (s := { s with xs := x }) hi) hp
    · obtain ⟨e, rest, hi⟩ := List.exists_cons_of_ne_nil hi
      rw [step_cons hi, step_cons (s := { s with xs := x }) hi]
      exact (act_alike e (s := { s with inputs := rest }) hp x).guardBus
  obtain h | ⟨t, ht, h, h'⟩ := hstep
  · rcases hr : step s with t | f | f <;> rw [hr] at h
    · exact .inl ⟨t, t, rfl, h, rfl, fun _ => rfl⟩
    · exact .inr (.inl ⟨f, rfl, h⟩)
    · exact .inr (.inr ⟨f, rfl, h⟩)
  · exact .inl ⟨t, _, h, h', rfl, fun hbusy => absurd ht hbusy⟩

end Sys2Proof.Machine

namespace Sys2Proof.Machine

/-! ### A legal host access while BUSY (R57, R60, R102) -/

theorem HostWrote.err {s t : State} (h : HostWrote s t) : t.err = s.err := by rw [h.eq]
theorem HostWrote.requests {s t : State} (h : HostWrote s t) : t.requests = s.requests := by rw [h.eq]
theorem HostWrote.inputs {s t : State} (h : HostWrote s t) : t.inputs = s.inputs := by rw [h.eq]
theorem HostWrote.peerBusy {s t : State} (h : HostWrote s t) : t.peerBusy = s.peerBusy := by rw [h.eq]

/-- A dropped CMD write sets OVR (R111), and so has changed no more than a host write may. -/
theorem dropCommand_wrote (s : State) : HostWrote s (dropCommand s) :=
  ⟨rfl, id, fun h => ⟨h, rfl⟩, id, fun _ => rfl, ⟨id, id⟩, id, id⟩

/-- While BUSY no legal write runs a command: every one is a plain host write. -/
theorem memWrite_busy {off : BitVec 12} {s : State} (hp : s.phase ≠ .idle) (hoff : off.toNat % 4 = 0) (v : Word) :
    ∃ t, memWrite off v s = .next t ∧ HostWrote s t := by
  obtain ⟨-, h⟩ | ⟨-, t, h, hw, -⟩ := memWrite_cases off v s hoff
  · exact ⟨dropCommand s, h.trans (submit_busy hp v), dropCommand_wrote s⟩
  · exact ⟨t, h, hw⟩

/-! ### How a transaction goes on or ends (R57, R99) -/

theorem finish_endedWith (c : ErrCode) (s : State) : EndedWith c (finish c s) := ⟨rfl, rfl, rfl, rfl, rfl⟩

/-- The transaction goes on with RX as it was, or it has ended. -/
def GoesOnOrEnds (s t : State) : Prop := (t.phase ≠ .idle ∧ t.rx = s.rx) ∨ ∃ c, EndedWith c t

theorem afterSettle_goesOnOrEnds (x : Snapshot) (s : State) : GoesOnOrEnds s (afterSettle x s) := by
  by_cases h : x.rxlen.toNat = 0
  · exact .inr ⟨.none, afterSettle_of_no_read s h ▸ finish_endedWith .none s⟩
  · rw [afterSettle_of_reads s h]
    exact .inl ⟨nofun, rfl⟩

/-- An answer or a TICK that ends a transaction does so through `finish` (R109); what else can act in one leaves RX alone. -/
theorem Acted.goesOnOrEnds {e : Event} {s t : State} (h : Acted e s t) (hp : s.phase ≠ .idle) (he : e ≠ .reset) : GoesOnOrEnds s t := by
  cases h with
  | write t off v _ _ h => exact .inl ⟨h.phase.symm ▸ hp, h.rx hp⟩
  | command v c m _ hidle | start v x _ hidle => exact absurd hidle hp
  | wait => exact .inl ⟨nofun, rfl⟩
  | settled x | noWait x => exact afterSettle_goesOnOrEnds x _
  | writeErr | readErr | landed | checked => exact .inr ⟨_, finish_endedWith _ _⟩
  | reset h => exact absurd h he
  | _ => exact .inl ⟨hp, rfl⟩

/-! ### The obligations on host accesses and on completion -/

/-- Settles O9: such an access is not `legalAccess`, and the guard of the bus lets the fault through. -/
theorem illegalAccessFaults : Obligations.IllegalAccessFaults := by
  intro s rest width off v hbad
  have hillegal : legalAccess width off ≠ true := fun h => not_and_or.mpr hbad ((legalAccess_iff _ _).mp h)
  exact ⟨
    fun hi => (step_cons hi).trans (congrArg guardBus (if_neg hillegal)),
    fun hi => (step_cons hi).trans (congrArg guardBus (if_neg hillegal))⟩

/-- Settles O10: a legal read writes the model's own `hostData` only, so the bus stays as it was. -/
theorem readsHaveNoSideEffect : Obligations.ReadsHaveNoSideEffect := by
  intro s rest off hoff hi hpeer
  rw [step_cons hi]
  exact serve_eq_next_iff.mpr ⟨act_hostRead hoff _, hpeer⟩

/-- While BUSY the step of a legal host access is a plain host write at most, a read's `hostData` apart. -/
theorem step_legalHost_busy {s : State} {e : Event} {rest : List Event} (hi : s.inputs = e :: rest) (hp : s.phase ≠ .idle)
    (hpeer : s.peerBusy = false) (hlegal : e.isLegalHost = true) :
    ∃ t d, step s = .next t ∧ HostWrote { s with inputs := rest, hostData := d } t := by
  cases e with
  | hostRead width off =>
    obtain ⟨rfl, hoff⟩ := (legalAccess_iff _ _).mp hlegal
    exact ⟨_, _, readsHaveNoSideEffect s rest off hoff hi fun _ => hpeer, .refl _⟩
  | hostWrite width off v =>
    obtain ⟨rfl, hoff⟩ := (legalAccess_iff _ _).mp hlegal
    obtain ⟨t, hwrite, hw⟩ := memWrite_busy (s := { s with inputs := rest }) hp hoff v
    exact ⟨t, s.hostData, step_hostWrite hi hoff hwrite fun _ => hw.peerBusy.trans hpeer, hw⟩
  | _ => nomatch hlegal

/-- Settles O48: a host write leaves the controller and what the transaction has left so far alone, RX because BUSY = 1. -/
theorem hostCannotDisturbATransaction : Obligations.HostCannotDisturbATransaction := by
  intro s e rest hi hp hpeer hlegal
  obtain ⟨t, d, h, hw⟩ := step_legalHost_busy hi hp hpeer hlegal
  obtain ⟨hwfail, hfailcnt, hcrcwarn⟩ := hw.sameRecord
  exact ⟨t, h, hw.phase, hw.pend, hw.scnt, hw.xs, hw.rx hp, ⟨hwfail, hfailcnt, hcrcwarn⟩, hw.result, hw.err, hw.requests, hw.inputs⟩

/-- Settles O49: an ending is `finish`'s, and a transaction that goes on has RX as it was. -/
theorem completionIsAtomic : Obligations.CompletionIsAtomic := by
  intro s t e rest hi h hp he
  obtain ⟨hbusy, hrx⟩ | ⟨c, hended⟩ := (step_acted hi h).1.goesOnOrEnds hp he
  · exact ⟨fun hidle => absurd hidle hbusy, fun _ k => by rw [hrx]⟩
  · exact ⟨fun _ => ⟨hended.done, hended.pend, hended.scnt⟩, fun hbusy => absurd hended.phase hbusy⟩

end Sys2Proof.Machine

namespace Sys2Proof.Machine

/-! ### Bytes and flags (R62, R64) -/

theorem and_0xFF (b : Byte) : b &&& 0xFF = b := BitVec.and_allOnes

/-- A field that the row does not fix passes its test. -/
theorem and_zero_beq (b : Byte) : (b &&& 0 == 0) = true := beq_iff_eq.mpr BitVec.and_zero

theorem ofNat_toNat_byte (b : Byte) : BitVec.ofNat 8 b.toNat = b := by rw [BitVec.ofNat_toNat, BitVec.setWidth_eq]

theorem fitsField_toNat (b : Byte) : fitsField b.toNat = true := decide_eq_true b.isLt

theorem fitsField_iff {n : Nat} : fitsField n = true ↔ n ≤ 255 := decide_eq_true_iff.trans Nat.lt_succ_iff

theorem fitsField_and_iff {m n : Nat} : (fitsField m && fitsField n) = true ↔ m ≤ 255 ∧ n ≤ 255 :=
  Bool.and_eq_true_iff.trans (and_congr fitsField_iff fitsField_iff)

/-- Nothing above F[0], as the decoder tests it, is nothing under the row's mask (R63). -/
theorem highFlags_beq : ∀ f : Byte, (f.extractLsb' 1 7 == 0) = (f &&& 0xFE == 0) := by decide

/-- A flag field with nothing above F[0] is the bit of the buffer it names (R64). -/
theorem bufBit_of_flag : ∀ f : Byte, (f.extractLsb' 1 7 == 0) = true → (if f.getLsbD 0 then Buf.rx else .tx).bit = f := by decide

/-- A flag field with nothing above F[0] is the bit of the opcode length it names (R64). -/
theorem opLenBit_of_flag : ∀ f : Byte, (f.extractLsb' 1 7 == 0) = true → (if f.getLsbD 0 then OpLen.two else .one).bit = f := by decide

/-- A packed word is `v` exactly where each field is `v`'s. -/
theorem packFields_eq_iff {op f a b : Byte} {v : Word} :
    packFields op f a b = v ↔ op = fieldOP v ∧ f = fieldF v ∧ a = fieldA v ∧ b = fieldB v := by
  conv_lhs => rw [← packFields_fields v, packFields_inj]

theorem fieldOP_and (v w : Word) : fieldOP (v &&& w) = fieldOP v &&& fieldOP w := BitVec.extractLsb'_and ..

theorem requireZero_eq_ok_iff {ok : Bool} {i j : Instr} : requireZero ok i = .ok j ↔ ok = true ∧ i = j := by
  cases ok <;> simp [requireZero]

/-! ### What the decoder does at each OP value (R63, R66) -/

/-- The OP values of the rows that fix every field, each with its one command. -/
def fixedRows : List (Byte × Instr) :=
  [(0x10, .crcw), (0x11, .crcv), (0x20, .cvtt), (0x21, .cvtrh), (0x22, .rhice), (0x23, .dewpt)]

theorem decode_fixed {v : Word} {i : Instr} (h : (fieldOP v, i) ∈ fixedRows) :
    decode v = requireZero (fieldF v == 0 && fieldA v == 0 && fieldB v == 0) i := by
  simp only [fixedRows, List.mem_cons, List.not_mem_nil, or_false, Prod.mk.injEq] at h
  unfold decode
  rcases h with ⟨hop, rfl⟩ | ⟨hop, rfl⟩ | ⟨hop, rfl⟩ | ⟨hop, rfl⟩ | ⟨hop, rfl⟩ | ⟨hop, rfl⟩ <;> rw [hop] <;> rfl

theorem decode_crcb {v : Word} (hop : fieldOP v = 0x12) : decode v = requireZero ((fieldF v).extractLsb' 1 7 == 0)
    (.crcb (if (fieldF v).getLsbD 0 then .rx else .tx) (fieldA v).toNat (fieldB v).toNat) := by
  unfold decode; rw [hop]; rfl

theorem decode_crcval {v : Word} (hop : fieldOP v = 0x13) :
    decode v = requireZero (fieldF v == 0 && fieldA v == 0) (.crcval (fieldB v).toNat) := by
  unfold decode; rw [hop]; rfl

theorem decode_txpack {v : Word} (hop : fieldOP v = 0x14) :
    decode v = requireZero (fieldF v == 0 && fieldB v == 0) (.txpack (fieldA v).toNat) := by
  unfold decode; rw [hop]; rfl

theorem decode_xfer {v : Word} (hop : fieldOP v = 0x30) : decode v = requireZero ((fieldF v).extractLsb' 1 7 == 0)
    (.xfer (if (fieldF v).getLsbD 0 then .two else .one) (fieldA v).toNat (fieldB v).toNat) := by
  unfold decode; rw [hop]; rfl

/-! ### Decoding undoes encoding -/

theorem decode_encode {i : Instr} (h : i.wellFormed = true) : decode (encode i) = .ok i := by
  cases i with
  | crcb buf start count =>
    obtain ⟨hs, hc⟩ := Bool.and_eq_true_iff.mp h
    rw [encode, decode_crcb (fieldOP_packFields ..), fieldF_packFields, fieldA_packFields, fieldB_packFields, toNat_ofNat_fits hs,
      toNat_ofNat_fits hc]
    cases buf <;> rfl
  | xfer opl txlen rxlen =>
    obtain ⟨ht, hr⟩ := Bool.and_eq_true_iff.mp h
    rw [encode, decode_xfer (fieldOP_packFields ..), fieldF_packFields, fieldA_packFields, fieldB_packFields, toNat_ofNat_fits ht,
      toNat_ofNat_fits hr]
    cases opl <;> rfl
  | crcval len =>
    rw [encode, decode_crcval (fieldOP_packFields ..), fieldF_packFields, fieldA_packFields, fieldB_packFields, toNat_ofNat_fits h]
    rfl
  | txpack idx =>
    rw [encode, decode_txpack (fieldOP_packFields ..), fieldF_packFields, fieldA_packFields, fieldB_packFields, toNat_ofNat_fits h]
    rfl
  | _ => rfl

/-! ### A word of a row's OP value (R63) -/

theorem opcodeRows_eq_packed : opcodeRows = [(packFields 0x10 0 0 0, packFields 0xFF 0xFF 0xFF 0xFF),
    (packFields 0x11 0 0 0, packFields 0xFF 0xFF 0xFF 0xFF), (packFields 0x12 0 0 0, packFields 0xFF 0xFE 0 0),
    (packFields 0x13 0 0 0, packFields 0xFF 0xFF 0xFF 0), (packFields 0x14 0 0 0, packFields 0xFF 0xFF 0 0xFF),
    (packFields 0x20 0 0 0, packFields 0xFF 0xFF 0xFF 0xFF), (packFields 0x21 0 0 0, packFields 0xFF 0xFF 0xFF 0xFF),
    (packFields 0x22 0 0 0, packFields 0xFF 0xFF 0xFF 0xFF), (packFields 0x23 0 0 0, packFields 0xFF 0xFF 0xFF 0xFF),
    (packFields 0x30 0 0 0, packFields 0xFF 0xFE 0 0)] := by decide

/-- What the decoder makes of `v` is said by the row: it answers one command, well-formed and of the word `v`, exactly where `v` selects the
row. -/
def DecodesBy (row : Word × Word) (v : Word) : Prop :=
  ∃ i : Instr, decode v = requireZero (selects v row) i ∧ (selects v row = true → i.wellFormed = true ∧ encode i = v)

/-- Of a word with the row's OP value, selecting the row asks for the other fields only. -/
theorem selects_of_fieldOP {v : Word} {op mf ma mb : Byte} (hop : fieldOP v = op) :
    selects v (packFields op 0 0 0, packFields 0xFF mf ma mb) = (fieldF v &&& mf == 0 && fieldA v &&& ma == 0 && fieldB v &&& mb == 0) := by
  rw [Bool.eq_iff_iff]
  simp only [selects, beq_iff_eq, selects_iff, Bool.and_eq_true, and_0xFF, hop, true_and, and_assoc]

/-- A row as its OP value and its masks, and a command: what has to be shown of them field by field. -/
theorem DecodesBy.of_fields {v : Word} {op mf ma mb : Byte} {ok : Bool} {i : Instr} (hop : fieldOP v = op) (hd : decode v = requireZero ok i)
    (hok : (fieldF v &&& mf == 0 && fieldA v &&& ma == 0 && fieldB v &&& mb == 0) = ok)
    (he : ok = true → i.wellFormed = true ∧ encode i = v) : DecodesBy (packFields op 0 0 0, packFields 0xFF mf ma mb) v := by
  rw [DecodesBy, selects_of_fieldOP hop, hok]
  exact ⟨i, hd, he⟩

theorem decodesBy_fixed {v : Word} {op : Byte} {i : Instr} (hop : fieldOP v = op) (hrow : (op, i) ∈ fixedRows) (hi : i.wellFormed = true)
    (he : encode i = packFields op 0 0 0) : DecodesBy (packFields op 0 0 0, packFields 0xFF 0xFF 0xFF 0xFF) v := by
  refine .of_fields hop (decode_fixed (hop ▸ hrow)) (by simp only [and_0xFF]) fun h => ⟨hi, ?_⟩
  simp only [Bool.and_eq_true, beq_iff_eq] at h
  obtain ⟨⟨hf, ha⟩, hb⟩ := h
  exact he.trans (packFields_eq_iff.mpr ⟨hop.symm, hf.symm, ha.symm, hb.symm⟩)

theorem decodesBy_crcb {v : Word} (hop : fieldOP v = 0x12) : DecodesBy (packFields 0x12 0 0 0, packFields 0xFF 0xFE 0 0) v := by
  refine .of_fields hop (decode_crcb hop) (by simp only [highFlags_beq, and_zero_beq, Bool.and_true]) fun h => ⟨?_, ?_⟩
  · exact Bool.and_eq_true_iff.mpr ⟨fitsField_toNat _, fitsField_toNat _⟩
  · exact packFields_eq_iff.mpr ⟨hop.symm, bufBit_of_flag _ h, ofNat_toNat_byte _, ofNat_toNat_byte _⟩

theorem decodesBy_crcval {v : Word} (hop : fieldOP v = 0x13) : DecodesBy (packFields 0x13 0 0 0, packFields 0xFF 0xFF 0xFF 0) v := by
  refine .of_fields hop (decode_crcval hop) (by simp only [and_0xFF, and_zero_beq, Bool.and_true]) fun h => ⟨fitsField_toNat _, ?_⟩
  simp only [Bool.and_eq_true, beq_iff_eq] at h
  obtain ⟨hf, ha⟩ := h
  exact packFields_eq_iff.mpr ⟨hop.symm, hf.symm, ha.symm, ofNat_toNat_byte _⟩

theorem decodesBy_txpack {v : Word} (hop : fieldOP v = 0x14) : DecodesBy (packFields 0x14 0 0 0, packFields 0xFF 0xFF 0 0xFF) v := by
  refine .of_fields hop (decode_txpack hop) (by simp only [and_0xFF, and_zero_beq, Bool.and_true]) fun h => ⟨fitsField_toNat _, ?_⟩
  simp only [Bool.and_eq_true, beq_iff_eq] at h
  obtain ⟨hf, hb⟩ := h
  exact packFields_eq_iff.mpr ⟨hop.symm, hf.symm, ofNat_toNat_byte _, hb.symm⟩

theorem decodesBy_xfer {v : Word} (hop : fieldOP v = 0x30) : DecodesBy (packFields 0x30 0 0 0, packFields 0xFF 0xFE 0 0) v := by
  refine .of_fields hop (decode_xfer hop) (by simp only [highFlags_beq, and_zero_beq, Bool.and_true]) fun h => ⟨?_, ?_⟩
  · exact Bool.and_eq_true_iff.mpr ⟨fitsField_toNat _, fitsField_toNat _⟩
  · exact packFields_eq_iff.mpr ⟨hop.symm, opLenBit_of_flag _ h, ofNat_toNat_byte _, ofNat_toNat_byte _⟩

theorem decodesBy_of_fieldOP {v : Word} {row : Word × Word} (hrow : row ∈ opcodeRows) (hop : fieldOP v = fieldOP row.1) :
    DecodesBy row v := by
  rw [opcodeRows_eq_packed] at hrow
  simp only [List.mem_cons, List.not_mem_nil, or_false] at hrow
  rcases hrow with rfl | rfl | rfl | rfl | rfl | rfl | rfl | rfl | rfl | rfl <;> rw [fieldOP_packFields] at hop
  · exact decodesBy_fixed (i := .crcw) hop (by simp [fixedRows]) rfl rfl
  · exact decodesBy_fixed (i := .crcv) hop (by simp [fixedRows]) rfl rfl
  · exact decodesBy_crcb hop
  · exact decodesBy_crcval hop
  · exact decodesBy_txpack hop
  · exact decodesBy_fixed (i := .cvtt) hop (by simp [fixedRows]) rfl rfl
  · exact decodesBy_fixed (i := .cvtrh) hop (by simp [fixedRows]) rfl rfl
  · exact decodesBy_fixed (i := .rhice) hop (by simp [fixedRows]) rfl rfl
  · exact decodesBy_fixed (i := .dewpt) hop (by simp [fixedRows]) rfl rfl
  · exact decodesBy_xfer hop

theorem decode_unlisted {v : Word} (h : ∀ row ∈ opcodeRows, fieldOP v ≠ fieldOP row.1) : decode v = .error .unlistedOp := by
  simp only [opcodeRows_eq_packed, List.forall_mem_cons, fieldOP_packFields] at h
  simp only [decode, h, if_false]

/-- A word that decodes does so by a row it selects. -/
theorem encode_selects_of_decode {v : Word} {i : Instr} (h : decode v = .ok i) :
    i.wellFormed = true ∧ encode i = v ∧ ∃ row ∈ opcodeRows, v &&& row.2 = row.1 := by
  by_cases hop : ∃ row ∈ opcodeRows, fieldOP v = fieldOP row.1
  · obtain ⟨row, hrow, hop⟩ := hop
    obtain ⟨j, hd, he⟩ := decodesBy_of_fieldOP hrow hop
    obtain ⟨hsel, rfl⟩ := requireZero_eq_ok_iff.mp (hd.symm.trans h)
    obtain ⟨hi, hv⟩ := he hsel
    exact ⟨hi, hv, row, hrow, beq_iff_eq.mp hsel⟩
  · simp only [not_exists, not_and] at hop
    exact nomatch (decode_unlisted hop).symm.trans h

/-- Every row fixes OP. -/
theorem fieldOP_of_selects {v : Word} {row : Word × Word} (hrow : row ∈ opcodeRows) (h : v &&& row.2 = row.1) :
    fieldOP v = fieldOP row.1 := by
  have hmask : ∀ row ∈ opcodeRows, fieldOP row.2 = 0xFF := by simp [opcodeRows_eq_packed]
  rw [← h, fieldOP_and, hmask row hrow, and_0xFF]

/-- Every row has an OP value of its own. -/
theorem opcodeRows_nodup_fieldOP : (opcodeRows.map fun row => fieldOP row.1).Nodup := by simp [opcodeRows_eq_packed]

theorem decode_of_selects {v : Word} {row : Word × Word} (hrow : row ∈ opcodeRows) (h : v &&& row.2 = row.1) :
    ∃ i, decode v = .ok i := by
  obtain ⟨i, hd, -⟩ := decodesBy_of_fieldOP hrow (fieldOP_of_selects hrow h)
  exact ⟨i, hd.trans (requireZero_eq_ok_iff.mpr ⟨beq_iff_eq.mpr h, rfl⟩)⟩

/-! ### The assembler's words as numbers (R62, R67) -/

/-- A packed word is the sum of its fields, each at its place. -/
theorem packFields_eq_ofNat (op f a b : Byte) :
    packFields op f a b = BitVec.ofNat 32 (b.toNat * 2 ^ 24 + a.toNat * 2 ^ 16 + (f.toNat * 2 ^ 8 + op.toNat)) := by
  have h : (packFields op f a b).toNat = b.toNat * 2 ^ 24 + a.toNat * 2 ^ 16 + (f.toNat * 2 ^ 8 + op.toNat) := by
    simp only [packFields, toNat_append_eq_add]
    omega
  rw [← h, BitVec.ofNat_toNat, BitVec.setWidth_eq]

/-- Operands that fit stand in the word as the numbers they are. -/
theorem packFields_operands (op f : Byte) {m n : Nat} (hm : m ≤ 255) (hn : n ≤ 255) :
    packFields op f (BitVec.ofNat 8 m) (BitVec.ofNat 8 n) = BitVec.ofNat 32 (n * 2 ^ 24 + m * 2 ^ 16 + (f.toNat * 2 ^ 8 + op.toNat)) := by
  rw [packFields_eq_ofNat, toNat_ofNat_fits (fitsField_iff.mpr hm), toNat_ofNat_fits (fitsField_iff.mpr hn)]

/-- A command assembles to its word where its operands fit, and to nothing elsewhere (R67). -/
theorem assemble_eq_ite {i : Instr} {p : Prop} [Decidable p] {w : Word} (hp : i.wellFormed = true ↔ p) (hw : p → encode i = w) :
    assemble i = if p then some w else none := by
  unfold assemble
  by_cases h : p
  · rw [if_pos (hp.mpr h), if_pos h, hw h]
  · rw [if_neg (mt hp.mp h), if_neg h]

/-! ### The obligations on encoding -/

/-- Settles O1: at each command's OP value the decoder reads the fields `encode` has packed. -/
theorem decodeOfEncodeIsIdentity : Obligations.DecodeOfEncodeIsIdentity := fun _ => decode_encode

/-- Settles O2: the word selects the row it decodes by, and the row fixes every bit that is no operand. -/
theorem encodeOfDecodeIsIdentity : Obligations.EncodeOfDecodeIsIdentity := by
  intro v i hd
  obtain ⟨hi, hv, -⟩ := encode_selects_of_decode hd
  exact ⟨hi, hv⟩

/-- Settles O3: a word decodes by the row it selects, and OP tells the rows apart. -/
theorem decodeAcceptsExactlyTheRows : Obligations.DecodeAcceptsExactlyTheRows := by
  refine fun v => ⟨⟨fun ⟨i, hd⟩ => ?_, fun ⟨row, hrow, h⟩ => decode_of_selects hrow h⟩, fun row hrow row' hrow' h h' => ?_⟩
  · obtain ⟨-, -, hrow⟩ := encode_selects_of_decode hd
    exact hrow
  · have hop : fieldOP row.1 = fieldOP row'.1 := (fieldOP_of_selects hrow h).symm.trans (fieldOP_of_selects hrow' h')
    exact List.inj_on_of_nodup_map opcodeRows_nodup_fieldOP hrow hrow' hop

/-- Settles O5: row by row, the operands fit exactly where the table says, and the word is the sum of its fields. -/
theorem assemblerGivesTheWords : Obligations.AssemblerGivesTheWords := by
  refine ⟨rfl, rfl, rfl, rfl, rfl, rfl, fun start count => ⟨?_, ?_⟩, fun len => ?_, fun idx => ?_, fun txlen rxlen => ⟨?_, ?_⟩⟩
  · exact assemble_eq_ite fitsField_and_iff fun ⟨hs, hc⟩ => packFields_operands 0x12 0 hs hc
  · exact assemble_eq_ite fitsField_and_iff fun ⟨hs, hc⟩ => packFields_operands 0x12 1 hs hc
  · exact assemble_eq_ite fitsField_iff fun hl => by simpa [encode] using packFields_operands 0x13 0 (Nat.zero_le 255) hl
  · exact assemble_eq_ite fitsField_iff fun hx => by simpa [encode] using packFields_operands 0x14 0 hx (Nat.zero_le 255)
  · exact assemble_eq_ite fitsField_and_iff fun ⟨ht, hr⟩ => packFields_operands 0x30 0 ht hr
  · exact assemble_eq_ite fitsField_and_iff fun ⟨ht, hr⟩ => packFields_operands 0x30 1 ht hr

/-- A word that selects no row ends with BADCMD (R66). -/
theorem runCommand_of_selects_none {v : Word} (h : ∀ row ∈ opcodeRows, v &&& row.2 ≠ row.1) (s : State) :
    runCommand v s = raise .badcmd s := by
  unfold runCommand
  cases hd : decode v with
  | error => rfl
  | ok i =>
    obtain ⟨-, -, row, hrow, hsel⟩ := encode_selects_of_decode hd
    exact absurd hsel (h row hrow)

/-- Settles O7: in IDLE `finish` finds `pend` and `scnt` as it leaves them, so only STATUS changes; while BUSY the write is dropped. -/
theorem illegalWordIsBadcmd : Obligations.IllegalWordIsBadcmd := by
  intro s rest v hi hrows hs hpeer
  by_cases hp : s.phase = .idle
  · have hpend : s.pend = .none := hs.pend.trans (congrArg pendingOf hp)
    have hscnt : s.scnt = 0 := hs.scnt_outside (by rw [hp]; nofun)
    rw [if_pos hp]
    refine step_hostWrite hi (by decide) ?_ (absurd hp)
    rw [memWrite_cmd, submit_idle (s := { s with inputs := rest }) hp, runCommand_of_selects_none hrows, raise, finish]
    simp only [accept, hp, hpend, hscnt]
  · rw [if_neg hp]
    exact step_hostWrite hi (by decide) (submit_busy (s := { s with inputs := rest }) hp v) hpeer

/-- Settles O4: each word is decoded by evaluation. -/
theorem writtenWordsDecode : Obligations.WrittenWordsDecode := by
  unfold Obligations.WrittenWordsDecode
  decide

end Sys2Proof.Machine

namespace Sys2Proof.Machine

/-! ### The checksum register (R69, R77) -/

/-- One shift, undone: bit 0 of the result is the bit shifted out, as `<<< 1` leaves a 0 there and 0x31 is odd. -/
def crcUnshift (r : Byte) : Byte := if r.getLsbD 0 then ((r ^^^ 0x31) >>> 1) ||| 0x80 else r >>> 1

theorem crcUnshift_crcShift : Function.LeftInverse crcUnshift crcShift := by
  unfold Function.LeftInverse
  decide

theorem crcShift_injective : Function.Injective crcShift := crcUnshift_crcShift.injective

theorem crcShifts_eq_iterate (n : Nat) : crcShifts n = crcShift^[n] := by
  induction n with
  | zero => rfl
  | succ n ih =>
    funext r
    exact congrFun ih (crcShift r)

theorem crcByte_eq_iterate (r b : Byte) : crcByte r b = crcShift^[8] (r ^^^ b) := congrFun (crcShifts_eq_iterate 8) (r ^^^ b)

/-- The eight shifts lose nothing of what the XOR has put into the register. -/
theorem crcByte_eq_iff {r b r' b' : Byte} : crcByte r b = crcByte r' b' ↔ r ^^^ b = r' ^^^ b' := by
  rw [crcByte_eq_iterate, crcByte_eq_iterate]
  exact (crcShift_injective.iterate 8).eq_iff

theorem crc8_concat (bs : List Byte) (b : Byte) : crc8 (bs ++ [b]) = crcByte (crc8 bs) b := List.foldl_concat ..

/-- One shift as arithmetic of the register's number (R69). -/
theorem crcShift_eq_double : crcShift = fun r : Byte =>
    if 128 ≤ r.toNat then BitVec.ofNat 8 (2 * r.toNat) ^^^ 0x31 else BitVec.ofNat 8 (2 * r.toNat) := by
  funext r
  have hout : r.msb = decide (128 ≤ r.toNat) := BitVec.msb_eq_decide r
  have hdouble : r <<< 1 = BitVec.ofNat 8 (2 * r.toNat) := by
    rw [← BitVec.toNat_inj]
    simp [Nat.shiftLeft_eq, Nat.mul_comm]
  simp only [crcShift, hout, hdouble, decide_eq_true_eq]

/-- A change of the first data byte reaches the register before the second byte, and shows after it too. -/
theorem crc8_pair_ne_of_first {b0 b0' : Byte} (b1 : Byte) (h : b0' ≠ b0) : crc8 [b0', b1] ≠ crc8 [b0, b1] := by
  intro hcrc
  have hfirst : crcByte 0xFF b0' = crcByte 0xFF b0 := by simpa using crcByte_eq_iff.mp hcrc
  exact h (by simpa using crcByte_eq_iff.mp hfirst)

theorem crc8_pair_ne_of_second (b0 : Byte) {b1 b1' : Byte} (h : b1' ≠ b1) : crc8 [b0, b1'] ≠ crc8 [b0, b1] := by
  intro hcrc
  exact h (by simpa using crcByte_eq_iff.mp hcrc)

theorem verify_eq_false_iff {b0 b1 c : Byte} : verify b0 b1 c = false ↔ crc8 [b0, b1] ≠ c := beq_eq_false_iff_ne

theorem flip_ne (b : Byte) {i : Nat} (hi : i < 8) : b ^^^ BitVec.twoPow 8 i ≠ b := by
  intro h
  have hbit := congrArg (·.getLsbD i) h
  simp [hi] at hbit

/-- Settles O20: each byte enters the register without loss, so a change of one byte alone changes the checksum. -/
theorem crcDetectsSingleBitFlips : Obligations.CrcDetectsSingleBitFlips := by
  refine ⟨rfl, fun bs b => ?_, by decide +kernel, fun b0 b1 => ⟨beq_self_eq_true _, fun i hi => ?_⟩⟩
  · rw [← crcShift_eq_double, crc8_concat, crcByte_eq_iterate]
  · simp only [verify_eq_false_iff]
    exact ⟨crc8_pair_ne_of_first b1 (flip_ne b0 hi), crc8_pair_ne_of_second b0 (flip_ne b1 hi), (flip_ne _ hi).symm⟩

/-! ### CRCW and CRCV (R72, R73) -/

/-- A field of a word as the number's own bits. -/
theorem extractLsb'_eq_ofNat_div {w : Nat} (v : BitVec w) (start n : Nat) : v.extractLsb' start n = BitVec.ofNat n (v.toNat / 2 ^ start) :=
  BitVec.eq_of_toNat_eq (by simp [Nat.shiftRight_eq_div_pow])

theorem dataBytes_eq (s : State) : dataBytes s = [BitVec.ofNat 8 (s.arg0.toNat / 2 ^ 8), BitVec.ofNat 8 s.arg0.toNat] := by
  rw [dataBytes, byte1, byte0, extractLsb'_eq_ofNat_div, low_eq_ofNat]

theorem toNat_zeroExtend_byte (b : Byte) : (b.zeroExtend 32).toNat = b.toNat := BitVec.toNat_setWidth_of_le (by decide)

/-- Settles O21: the command completes with the checksum of `dataBytes`. -/
theorem crcwWritesTheChecksum : Obligations.CrcwWritesTheChecksum := by
  intro s
  obtain ⟨t, ht, hframe, hres⟩ := completeWith_ends (show exec .crcw s = completeWith _ s from rfl)
  exact ⟨t, ht, hframe, by rw [hres, toNat_zeroExtend_byte, dataBytes_eq]⟩

/-- Settles O22: the command completes with the verdict of `verify` as one bit. -/
theorem crcvWritesTheVerdict : Obligations.CrcvWritesTheVerdict := by
  intro s
  obtain ⟨t, ht, hframe, hres⟩ := completeWith_ends (show exec .crcv s = completeWith _ s from rfl)
  refine ⟨t, ht, hframe, ?_⟩
  rw [hres, ← extractLsb'_eq_ofNat_div, ← extractLsb'_eq_ofNat_div, ← low_eq_ofNat]
  by_cases h : crc8 [byte2 s.arg0, byte1 s.arg0] = byte0 s.arg0
  · rw [verify, beq_iff_eq.mpr h]
    exact (if_pos h).symm
  · rw [verify, beq_eq_false_iff_ne.mpr h]
    exact (if_neg h).symm

/-! ### How a command ends that writes more than RESULT, or nothing (R109, R110) -/

theorem raise_refused (e : ErrCode) (s : State) : RefusedFrame e s (finish e s) := ⟨finish_endedFrame e s.result s, rfl⟩

/-- A command that writes RESULT, TX and the record of the last validation at most, and ends, leaves all else as it was. -/
theorem finish_endedCommon {s m : State}
    (h : m = { s with result := m.result, tx := m.tx, wfail := m.wfail, failcnt := m.failcnt, crcwarn := m.crcwarn }) (e : ErrCode) :
    EndedCommon e s (finish e m) := by
  rw [h]
  exact {
    ended := finish_endedWith e _
    setup := by constructor <;> rfl
    sticky := by constructor <;> rfl
    environment := by constructor <;> rfl
    inputs := rfl
    xs := rfl
    rx := fun _ => rfl }

/-! ### Ranges of a buffer (R36, R37) -/

theorem Memory.bytes_eq_map (m : Memory) (start count : Nat) : m.bytes start count = (List.range count).map fun k => m.read (start + k) := by
  apply List.ext_getElem?
  intro j
  rw [Memory.bytes_getElem?, List.getElem?_map]
  by_cases hj : j < count
  · simp [hj]
  · simp [hj]

theorem Memory.read_writeBytes_outside (m : Memory) {start j : Nat} {bs : List Byte} (h : j < start ∨ start + bs.length ≤ j) :
    (m.writeBytes start bs).read j = m.read j := by
  rw [Memory.read_writeBytes]
  by_cases hj : start ≤ j
  · rw [if_pos hj, List.getElem?_eq_none (by omega)]
    rfl
  · exact if_neg hj

theorem Memory.read_writeBytes_inside (m : Memory) {start i : Nat} {bs : List Byte} (h : i < bs.length) :
    (m.writeBytes start bs).read (start + i) = bs[i] := by
  rw [Memory.read_writeBytes, if_pos (Nat.le_add_right ..), Nat.add_sub_cancel_left, List.getElem?_eq_getElem h]
  rfl

/-! ### CRCB, CRCVAL and TXPACK (R74 to R76) -/

/-- CRCB on either buffer: the checksum of a range within it, or BADLEN (R74). -/
theorem exec_crcb_ends (buf : Buf) (start count : Nat) (s : State) : ∃ t, exec (.crcb buf start count) s = .next t
    ∧ (start + count ≤ bufferSize buf →
        EndedFrame .none s t ∧ t.result.toNat = (crc8 ((List.range count).map fun k => (bufferOf s buf).read (start + k))).toNat)
    ∧ (bufferSize buf < start + count → RefusedFrame .badlen s t) := by
  by_cases h : bufferSize buf < start + count
  · exact ⟨_, if_pos h, fun hle => absurd h hle.not_gt, fun _ => raise_refused .badlen s⟩
  · obtain ⟨t, ht, hframe, hres⟩ := completeWith_ends (show exec (.crcb buf start count) s = completeWith _ s from if_neg h)
    refine ⟨t, ht, fun _ => ⟨hframe, ?_⟩, fun hlt => absurd hlt h⟩
    rw [hres, toNat_zeroExtend_byte, Memory.bytes_eq_map]

/-- Settles O23: the same holds of both buffers. -/
theorem crcbWritesTheRangeChecksum : Obligations.CrcbWritesTheRangeChecksum :=
  fun start count s => ⟨exec_crcb_ends .tx start count s, exec_crcb_ends .rx start count s⟩

/-- The code of a validation, told by the mask it has written (R75, R98). -/
theorem validateAndFinish_ends {n : Nat} (hn : n ≤ Config.rxBufSize) (fatal : Bool) (s : State) : validateAndFinish n fatal s
    = .next (finish (if (validate n s).wfail ≠ 0 ∧ fatal = true then .crc else .none) (validate n s)) := by
  obtain ⟨-, -, -, -, hfailed⟩ := validate_record n s hn
  simp only [validateAndFinish_cases, hfailed]

/-- Settles O24: the record is that of `validate`, and the command writes nothing else. -/
theorem crcvalValidatesRx : Obligations.CrcvalValidatesRx := by
  intro len s
  by_cases h : Config.rxBufSize < len ∨ len % 3 ≠ 0
  · exact ⟨_, if_pos h, fun _ => raise_refused .badlen s, fun hlen hmod => absurd h (by omega)⟩
  · have hlen : len ≤ Config.rxBufSize := by omega
    obtain ⟨hmask, hbits, -, hwarn, -⟩ := validate_record len s hlen
    exact ⟨_, (if_neg h).trans (validateAndFinish_ends hlen s.crcfatal s), fun hbad => absurd hbad h, fun _ _ =>
      ⟨hmask, hbits, hwarn, finish_endedCommon rfl _, rfl, fun _ => rfl⟩⟩

/-- Settles O25: the three bytes are `dataBytes` and their checksum, written from IDX on. -/
theorem txpackStoresACheckedWord : Obligations.TxpackStoresACheckedWord := by
  intro idx s
  rw [← dataBytes_eq]
  by_cases h : Config.txBufSize < idx + 3
  · exact ⟨_, if_pos h, fun _ => raise_refused .badlen s, fun hle => absurd h hle.not_gt⟩
  · have hlen : (dataBytes s ++ [crc8 (dataBytes s)]).length = 3 := rfl
    refine ⟨_, if_neg h, fun hlt => absurd hlt h, fun _ => ⟨finish_endedCommon rfl .none, ⟨rfl, rfl, rfl⟩, rfl, ?_, ?_, ?_, fun k hk => ?_⟩⟩
    · exact (Memory.read_writeBytes_inside s.tx (i := 0) (by omega)).trans (extractLsb'_eq_ofNat_div ..)
    · exact (Memory.read_writeBytes_inside s.tx (i := 1) (by omega)).trans (low_eq_ofNat ..)
    · exact Memory.read_writeBytes_inside s.tx (i := 2) (by omega)
    · exact Memory.read_writeBytes_outside s.tx hk

/-! ### A transaction, part by part (R90 to R98) -/

/-- What an event does is its step, where it leaves at most one transaction on the bus (R121). -/
theorem step_of_act {s t : State} {e : Event} {rest : List Event} (hi : s.inputs = e :: rest) (h : act e { s with inputs := rest } = .next t)
    (hbus : t.phase ≠ .idle → t.peerBusy = false) : step s = .next t := by
  rw [step_cons hi]
  exact serve_eq_next_iff.mpr ⟨h, hbus⟩

/-- XFER where each of its acceptance checks passes (R90). -/
theorem exec_xfer_accepted {opl : OpLen} {txlen rxlen : Nat} {s : State} (htx : txlen ≤ Config.txBufSize) (hrx : rxlen ≤ Config.rxBufSize)
    (hwhole : s.chkcrc = true → rxlen % 3 = 0) (hlock : s.lock = true) :
    exec (.xfer opl txlen rxlen) s = .next (startTransaction (takeSnapshot opl txlen rxlen s) s) := by
  have hchk : ¬ (s.chkcrc = true ∧ rxlen % 3 ≠ 0) := fun ⟨hc, hr⟩ => hr (hwhole hc)
  have hunlocked : ¬ s.lock = false := by simp [hlock]
  exact (if_neg htx.not_gt).trans ((if_neg hrx.not_gt).trans ((if_neg hchk).trans (if_neg hunlocked)))

/-- A CMD write of an XFER that passes the acceptance checks starts its transaction (R65, R90). -/
theorem step_xfer_accepted {opl : OpLen} {txlen rxlen : Nat} {s : State} {rest : List Event}
    (hi : s.inputs = .hostWrite .w32 0x00C (encode (.xfer opl txlen rxlen)) :: rest) (hidle : s.phase = .idle) (hpeer : s.peerBusy = false)
    (htx : txlen ≤ Config.txBufSize) (hrx : rxlen ≤ Config.rxBufSize) (hwhole : s.chkcrc = true → rxlen % 3 = 0) (hlock : s.lock = true) :
    step s = .next (startTransaction (takeSnapshot opl txlen rxlen s) (accept { s with inputs := rest })) := by
  have htxsize : Config.txBufSize = 32 := rfl
  have hrxsize : Config.rxBufSize = 48 := rfl
  have hdecode : decode (encode (.xfer opl txlen rxlen)) = .ok (.xfer opl txlen rxlen) :=
    decode_encode (fitsField_and_iff.mpr (by omega))
  have hexec := exec_xfer_accepted (opl := opl) (s := accept { s with inputs := rest }) htx hrx hwhole hlock
  exact (stepRunsTheDecodedCommand s rest _ _ hi hidle hdecode).trans ((congrArg guardBus hexec).trans (guardBus_next fun _ => hpeer))

/-- `after_settle()` sets the controller whatever it was (R96). -/
theorem afterSettle_ignores_controller (x : Snapshot) (s : State) (p : Pending) (c : BitVec 17) (f : Phase) :
    afterSettle x { s with pend := p, scnt := c, phase := f } = afterSettle x s := by
  unfold afterSettle
  split <;> rfl

@[simp] theorem afterSettle_peerBusy (x : Snapshot) (s : State) : (afterSettle x s).peerBusy = s.peerBusy := by rw [afterSettle_eq]

/-- As many TICKs as the counter reads end the settle time (R94). -/
theorem run_ticks {x : Snapshot} {rest : List Event} (n : Nat) {s : State} (hp : s.phase = .settle) (hx : s.xs = some x)
    (hpeer : s.peerBusy = false) (hc : s.scnt.toNat = n + 1) (hi : s.inputs = List.replicate (n + 1) .tick ++ rest) :
    core.run (n + 1) s = .next (afterSettle x { s with inputs := rest }) := by
  induction n generalizing s with
  | zero => exact run_one (step_of_act hi (onTick_last hp hc hx) fun _ => by simpa using hpeer)
  | succ n ih =>
    have hlt := s.scnt.isLt
    have hcount : step s = .next { s with inputs := List.replicate (n + 1) .tick ++ rest, scnt := BitVec.ofNat 17 (s.scnt.toNat - 1) } :=
      step_of_act hi (onTick_counting hp (show 1 < s.scnt.toNat by omega)) fun _ => hpeer
    have hleft : (BitVec.ofNat 17 (s.scnt.toNat - 1)).toNat = n + 1 := by
      rw [BitVec.toNat_ofNat]
      omega
    have hsame := afterSettle_ignores_controller x { s with inputs := rest } s.pend (BitVec.ofNat 17 (s.scnt.toNat - 1)) s.phase
    rw [run_succ hcount, ← hsame]
    exact ih hp hx hpeer hleft rfl

/-- From WRITE, the answer OK and the TICKs of the settle time lead to `after_settle()` (R93, R94, R96). -/
theorem run_writeOk_ticks {x : Snapshot} {rest : List Event} {s : State} (hp : s.phase = .write) (hw : s.pend = .wr) (hx : s.xs = some x)
    (hsettle : x.settle.toNat ≠ 0) (hpeer : s.peerBusy = false)
    (hi : s.inputs = .writeOk :: (List.replicate (x.settle.toNat + 1) .tick ++ rest)) :
    core.run (x.settle.toNat + 2) s = .next (afterSettle x { s with inputs := rest }) := by
  have hlt := x.settle.isLt
  have hwait : step s = .next { s with
      inputs := List.replicate (x.settle.toNat + 1) .tick ++ rest
      pend := .none, scnt := BitVec.ofNat 17 (x.settle.toNat + 1), phase := .settle } :=
    step_of_act hi (Eq.trans (onWriteOk_of_outstanding hp hw hx) (congrArg _ (if_neg hsettle))) fun _ => hpeer
  have hcount : (BitVec.ofNat 17 (x.settle.toNat + 1)).toNat = x.settle.toNat + 1 := by
    rw [BitVec.toNat_ofNat]
    omega
  rw [run_succ hwait, ← afterSettle_ignores_controller x { s with inputs := rest } .none (BitVec.ofNat 17 (x.settle.toNat + 1)) .settle]
  exact run_ticks x.settle.toNat rfl hx hpeer hcount rfl

/-- The state in which a transaction that started in `s` waits for its read answer (R90, R96). -/
def awaitingRead (x : Snapshot) (rest : List Event) (s : State) : State :=
  { s with
    inputs := rest, done := false, xs := some x, wfail := 0, failcnt := 0, crcwarn := false
    requests := s.requests ++ [writeRequest x, .readBlock x.addr x.rdreg x.rxlen.toNat]
    pend := .rd, phase := .read, scnt := 0 }

theorem afterSettle_startTransaction {x : Snapshot} (hread : x.rxlen.toNat ≠ 0) (earlier rest : List Event) (s : State) :
    afterSettle x { startTransaction x (accept { s with inputs := earlier }) with inputs := rest } = awaitingRead x rest s := by
  rw [afterSettle_of_reads _ hread, awaitingRead]
  simp

/-- A transaction that has started, answered OK and ticked, waits for its read answer (R93, R94, R96). -/
theorem run_startTransaction {x : Snapshot} (hsettle : x.settle.toNat ≠ 0) (hread : x.rxlen.toNat ≠ 0) (rest : List Event) {s : State}
    (hpeer : s.peerBusy = false) :
    core.run (x.settle.toNat + 2)
        (startTransaction x (accept { s with inputs := .writeOk :: (List.replicate (x.settle.toNat + 1) .tick ++ rest) }))
      = .next (awaitingRead x rest s) := by
  rw [← afterSettle_startTransaction hread]
  exact run_writeOk_ticks rfl rfl rfl hsettle hpeer rfl

/-- A length within RX fits the byte that holds it in the snapshot (R91). -/
theorem toNat_takeSnapshot_rxlen (opl : OpLen) (txlen : Nat) {rxlen : Nat} (s : State) (hrx : rxlen ≤ Config.rxBufSize) :
    (takeSnapshot opl txlen rxlen s).rxlen.toNat = rxlen := by
  have hsize : Config.rxBufSize = 48 := rfl
  simp only [takeSnapshot, BitVec.toNat_ofNat]
  omega

/-! ### The write request (R91, R92) -/

theorem writeRequest_one {x : Snapshot} {b : Byte} (h : x.opbytes = .one b) :
    writeRequest x = if x.payload.length = 0 then .writeByte x.addr b else .writeBlock x.addr b x.payload := by
  unfold writeRequest
  rw [h]
  cases x.payload <;> rfl

theorem writeRequest_two {x : Snapshot} {first second : Byte} (h : x.opbytes = .two first second) :
    writeRequest x = .writeBlock x.addr first (second :: x.payload) := by
  unfold writeRequest
  rw [h]

theorem takeSnapshot_payload (opl : OpLen) (txlen rxlen : Nat) (s : State) :
    (takeSnapshot opl txlen rxlen s).payload = (List.range txlen).map s.tx.read := by
  simp [takeSnapshot, Memory.bytes_eq_map]

theorem opcodeBytes_one (opcode : Half) : opcodeBytes .one opcode = .one (BitVec.ofNat 8 opcode.toNat) := by
  simp [opcodeBytes, extractLsb'_eq_ofNat_div]

theorem opcodeBytes_two (opcode : Half) :
    opcodeBytes .two opcode = .two (BitVec.ofNat 8 (opcode.toNat / 2 ^ 8)) (BitVec.ofNat 8 opcode.toNat) := by
  simp [opcodeBytes, extractLsb'_eq_ofNat_div]

/-! ### The end of a transaction (R97, R98) -/

/-- The bytes of a read answer lie in RX from its start, the rest of RX is as it was (R97). -/
theorem Memory.read_landed (m : Memory) (bytes : List Byte) (k : Nat) :
    (m.writeBytes 0 bytes).read k = if k < bytes.length then bytes.getD k 0 else m.read k := by
  by_cases h : k < bytes.length
  · have hread := Memory.read_writeBytes_inside m (start := 0) h
    rw [Nat.zero_add] at hread
    rw [if_pos h, hread]
    simp [h]
  · rw [if_neg h, Memory.read_writeBytes_outside m (by omega)]

/-- A word that has landed fails where its three bytes of the answer do (R98). -/
theorem wordFails_landed (m : Memory) {bytes : List Byte} {i : Nat} (h : i < bytes.length / 3) : wordFails (m.writeBytes 0 bytes) i
    = !verify (bytes.getD (3 * i) 0) (bytes.getD (3 * i + 1) 0) (bytes.getD (3 * i + 2) 0) := by
  rw [wordFails, Memory.read_landed, Memory.read_landed, Memory.read_landed, if_pos (by omega), if_pos (by omega), if_pos (by omega)]

/-- The checksum dispatcher ends the command: without a check the record stays, with one it is that of the words in RX (R98). -/
theorem dispatchChecksum_ends {x : Snapshot} (hrx : x.rxlen.toNat ≤ Config.rxBufSize) (s : State) :
    ∃ e t, dispatchChecksum x s = .next t ∧ EndedCommon e s t ∧ SameTx s t ∧ t.result = s.result
      ∧ (x.chk = false → e = .none ∧ SameRecord s t)
      ∧ (x.chk = true → (∀ i, t.wfail.getLsbD i = (decide (i < x.rxlen.toNat / 3) && wordFails s.rx i))
          ∧ t.failcnt.toNat = bitsSet t.wfail Config.nWords ∧ t.crcwarn = decide (t.wfail ≠ 0)
          ∧ e = if t.wfail ≠ 0 ∧ x.fatal = true then .crc else .none) := by
  unfold dispatchChecksum
  cases x.chk with
  | false => exact ⟨.none, _, rfl, finish_endedCommon rfl .none, fun _ => rfl, rfl, fun _ => ⟨rfl, rfl, rfl, rfl⟩, nofun⟩
  | true =>
    obtain ⟨hmask, hbits, -, hwarn, -⟩ := validate_record x.rxlen.toNat s hrx
    exact ⟨_, _, validateAndFinish_ends hrx x.fatal s, finish_endedCommon rfl _, fun _ => rfl, rfl, nofun,
      fun _ => ⟨hmask, hbits, hwarn, rfl⟩⟩

/-- Settles O45: the run up to READ, then the step that lands the bytes and ends the command. -/
theorem transactionRunsToCompletion : Obligations.TransactionRunsToCompletion := by
  rintro s opl txlen rxlen bytes payload high low rest hidle hpeer hlock hsettle htx hpos hrx hwhole hlen rfl rfl rfl hi
  have hxlen := toNat_takeSnapshot_rxlen opl txlen s hrx
  have hstart := step_xfer_accepted hi hidle hpeer htx hrx hwhole hlock
  have hread : core.run (s.settle.toNat + 3) s = .next (awaitingRead (takeSnapshot opl txlen rxlen s) (.readOk bytes :: rest) s) := by
    rw [run_succ hstart]
    exact run_startTransaction (x := takeSnapshot opl txlen rxlen s) (fun h0 => hsettle (BitVec.eq_of_toNat_eq h0)) (by omega) _ hpeer
  obtain ⟨e, t, hend, hcommon, htx', hresult, hclear, hchecked⟩ := dispatchChecksum_ends (hxlen.trans_le hrx)
    { awaitingRead (takeSnapshot opl txlen rxlen s) rest s with pend := .none, rx := s.rx.writeBytes 0 bytes }
  have hlast : step (awaitingRead (takeSnapshot opl txlen rxlen s) (.readOk bytes :: rest) s) = .next t :=
    step_of_act rfl (Eq.trans (onReadOk_of_outstanding rfl rfl rfl (hlen.trans hxlen.symm)) hend)
      fun _ => hcommon.environment.peerBusy.trans hpeer
  refine ⟨t, (run_add hread 1).trans (run_one hlast), hcommon.inputs, ?_, fun k => ?_, fun hchk => ?_, fun hchk => ?_,
    { hcommon.setup with }, { hcommon.sticky with }, htx', hresult⟩
  · rw [hcommon.environment.requests, awaitingRead, hxlen]
    cases opl with
    | one =>
      rw [writeRequest_one (opcodeBytes_one s.opcode), takeSnapshot_payload, List.length_map, List.length_range]
      rfl
    | two =>
      rw [writeRequest_two (opcodeBytes_two s.opcode), takeSnapshot_payload]
      rfl
  · rw [hcommon.rx k, ← hlen]
    exact Memory.read_landed s.rx bytes k
  · obtain ⟨rfl, hrecord⟩ := hclear hchk
    exact ⟨hcommon.ended, hrecord.wfail, hrecord.failcnt, hrecord.crcwarn⟩
  · obtain ⟨hmask, hcount, hwarn, rfl⟩ := hchecked hchk
    refine ⟨fun i => ?_, hcount, hwarn, hcommon.ended⟩
    rw [hmask, hxlen]
    by_cases hi : i < rxlen / 3
    · rw [wordFails_landed s.rx (by omega)]
    · simp [hi]

end Sys2Proof.Machine

namespace Sys2Proof.Machine

/-! ### The linear conversions are monotonic (R78, R87) -/

theorem rnd_le_rnd {p p' q : Int} (hq : 0 < q) (h : p ≤ p') : rnd p q ≤ rnd p' q :=
  Int.ediv_le_ediv (by omega) (by omega)

/-- `lin` follows the raw code in the direction of the span. -/
theorem lin_monotonic (mn sp : Half) {raw raw' : Half} (h : raw.toNat ≤ raw'.toNat) :
    (0 ≤ sp.toInt → lin mn sp raw ≤ lin mn sp raw') ∧ (sp.toInt ≤ 0 → lin mn sp raw' ≤ lin mn sp raw) := by
  have hraw : (raw.toNat : Int) ≤ raw'.toNat := Int.ofNat_le.mpr h
  constructor <;> intro hsp
  · exact Int.add_le_add_left (rnd_le_rnd (by decide) (mul_le_mul_of_nonneg_left hraw hsp)) _
  · exact Int.add_le_add_left (rnd_le_rnd (by decide) (mul_le_mul_of_nonpos_left hraw hsp)) _

/-! ### Results as integers, floored or not (R83 to R85) -/

theorem exec_cvtt_ends (s : State) :
    ∃ t, exec .cvtt s = .next t ∧ EndedFrame .none s t ∧ t.result.toInt = lin s.tMin s.tSpan (rawCode s) := by
  obtain ⟨t, ht, hframe, hres⟩ := completeWith_ends (exec_cvtt s)
  have hb := lin_bounds s.tMin s.tSpan (rawCode s)
  exact ⟨t, ht, hframe, by rw [hres, toInt_s32 (by omega) (by omega)]⟩

/-- A command that completes with a floored humidity. -/
theorem completeWith_floored_ends {r : Result} {v : Int} {s : State} (hv : -2 ^ 31 ≤ v ∧ v ≤ 2 ^ 31 - 1)
    (h : r = completeWith (s32 (max v (floorValue s))) s) :
    ∃ t, r = .next t ∧ EndedFrame .none s t ∧ t.result.toInt = max v (s.rhFloor.toNat : Int) := by
  obtain ⟨t, ht, hframe, hres⟩ := completeWith_ends h
  exact ⟨t, ht, hframe, by rw [hres, toInt_s32_floored s hv]⟩

theorem exec_cvtrh_ends (s : State) : ∃ t, exec .cvtrh s = .next t ∧ EndedFrame .none s t
    ∧ t.result.toInt = max (lin s.rhMin s.rhSpan (rawCode s)) (s.rhFloor.toNat : Int) := by
  have hb := lin_bounds s.rhMin s.rhSpan (rawCode s)
  exact completeWith_floored_ends (by omega) (exec_cvtrh s)

theorem exec_rhice_water_ends {s : State} (h : 0 ≤ s.arg0.toInt) : ∃ t, exec .rhice s = .next t ∧ EndedFrame .none s t
    ∧ t.result.toInt = max s.arg1.toInt (s.rhFloor.toNat : Int) :=
  completeWith_floored_ends (toInt_bounds s.arg1) (execRhice_water h)

/-- RHICE ends with a floored humidity or with DOMAIN (R82, R85). -/
theorem exec_rhice_ends (s : State) :
    (∃ (v : Int) (t : State), exec .rhice s = .next t ∧ EndedFrame .none s t ∧ t.result.toInt = max v (s.rhFloor.toNat : Int))
    ∨ ∃ t, exec .rhice s = .next t ∧ RefusedFrame .domain s t := by
  rcases le_or_gt 0 s.arg0.toInt with hwater | ht
  · exact .inl ⟨_, exec_rhice_water_ends hwater⟩
  by_cases hl : s.lambdaW = 0 ∨ s.lambdaI = 0
  · exact .inr ⟨_, execRhice_noLambda ht hl, raise_refused .domain s⟩
  obtain ⟨hw, hi⟩ := not_or.mp hl
  obtain ⟨pair, hpair, hexec⟩ | ⟨-, hexec⟩ := execRhice_pair ht hw hi
  · exact .inl ⟨_, completeWith_floored_ends (drawn_bounds _ hpair) hexec⟩
  · exact .inr ⟨_, hexec, raise_refused .domain s⟩

/-! ### Values outside s32 (R80) -/

theorem not_fits32_iff {V : ℝ} : ¬ Fits32 V ↔ ⌊V⌋ < -2 ^ 31 ∨ 2 ^ 31 - 1 < ⌈V⌉ :=
  not_and_or.trans (or_congr not_le not_le)

theorem execRhice_notFits {s : State} (ht : s.arg0.toInt < 0) (hw : s.lambdaW ≠ 0) (hi : s.lambdaI ≠ 0)
    (h : ¬ Fits32 (rhiceV s.arg0 s.arg1 s.betaW s.lambdaW s.betaI s.lambdaI)) : execRhice s = raise .domain s := by
  obtain ⟨_, hpair, -⟩ | ⟨-, hexec⟩ := execRhice_pair ht hw hi
  · exact absurd hpair.1 h
  · exact hexec

theorem execDewpt_notFits {s : State} {b l : Half} (hm : magnusSel s = (b, l)) (hrh : 0 < s.arg1.toInt)
    (hl : (l.toNat : Int) + s.arg0.toInt ≠ 0) (hd : dewptDen s.arg0 s.arg1 b l ≠ 0)
    (h : ¬ Fits32 (dewptV s.arg0 s.arg1 b l)) : execDewpt s = raise .domain s := by
  have hz : dewptDenZero s.arg0 s.arg1 b l = false := Bool.eq_false_iff.mpr (mt (dewptDenZero_iff hrh).mp hd)
  obtain ⟨_, hpair, -⟩ | ⟨-, hexec⟩ := execDewpt_pair hm hrh hl hz
  · exact absurd hpair.1 h
  · exact hexec

/-! ### Neighbours of a value and integers (R14, R87) -/

theorem neighbour_le {V : ℝ} {r n : Int} (hr : r = ⌊V⌋ ∨ r = ⌈V⌉) (h : V ≤ n) : r ≤ n := by
  have hceil : ⌈V⌉ ≤ n := Int.ceil_le.mpr h
  have hfloor := Int.floor_le_ceil V
  omega

theorem neighbour_eq {V : ℝ} {r n : Int} (hr : r = ⌊V⌋ ∨ r = ⌈V⌉) (h : V = n) : r = n := by
  rwa [h, Int.floor_intCast, Int.ceil_intCast, or_self] at hr

/-! ### The dew point and the temperature (R86, R87)

With `β = b / 100`, the dew point is the Moebius map `s ↦ l·s / (β − s)` at `s = c1 + c2`. At `s = c1` the map gives `t` back; up to 100 % `c2` is
not above 0; and the map increases below its pole `β`, where it stays above `−l`. -/

theorem neg_lt_moebius {l beta s : ℝ} (hl : 0 < l) (hb : 0 < beta) (hs : s < beta) : -l < l * s / (beta - s) := by
  rw [lt_div_iff₀ (sub_pos.mpr hs)]
  linarith [mul_pos hl hb]

theorem dewptC2_nonpos {rh : Word} (hrh : 0 < rh.toInt) (h : rh.toInt ≤ 10000) : dewptC2 rh ≤ 0 := by
  have h0 : (0 : ℝ) < rh.toInt := Int.cast_pos.mpr hrh
  have h1 : (rh.toInt : ℝ) ≤ 10000 := mod_cast h
  exact Real.log_nonpos (by positivity) ((div_le_one (by norm_num)).mpr h1)

/-- The conditions of R87 on the coefficients, as reals. -/
structure DewptRegular (t : Word) (b l : Half) : Prop where
  beta_pos : 0 < (b.toNat : ℝ) / 100
  lambda_pos : 0 < (l.toNat : ℝ)
  sum_pos : 0 < (l.toNat : ℝ) + t.toInt

namespace DewptRegular
variable {t rh : Word} {b l : Half} (h : DewptRegular t b l)
include h

/-- `β − c1 = β·l / (l + t)`. -/
theorem beta_sub_c1 : (b.toNat : ℝ) / 100 - dewptC1 t b l = b.toNat / 100 * l.toNat / (l.toNat + t.toInt) := by
  have hsum := h.sum_pos.ne'
  unfold dewptC1
  field_simp
  ring

theorem c1_lt_beta : dewptC1 t b l < (b.toNat : ℝ) / 100 := by
  rw [← sub_pos, h.beta_sub_c1]
  exact div_pos (mul_pos h.beta_pos h.lambda_pos) h.sum_pos

theorem moebius_c1 : l.toNat * dewptC1 t b l / ((b.toNat : ℝ) / 100 - dewptC1 t b l) = t.toInt := by
  have hsum := h.sum_pos.ne'
  rw [div_eq_iff (sub_pos.mpr h.c1_lt_beta).ne', h.beta_sub_c1]
  unfold dewptC1
  field_simp

theorem c1_add_c2_lt_beta (hc2 : dewptC2 rh ≤ 0) : dewptC1 t b l + dewptC2 rh < (b.toNat : ℝ) / 100 := by
  linarith [h.c1_lt_beta]

theorem dewptDen_pos (hc2 : dewptC2 rh ≤ 0) : 0 < dewptDen t rh b l := by
  unfold dewptDen
  linarith [h.c1_lt_beta]

theorem neg_lambda_lt_dewptV (hc2 : dewptC2 rh ≤ 0) : -(l.toNat : ℝ) < dewptV t rh b l := by
  rw [dewptV_eq]
  exact neg_lt_moebius h.lambda_pos h.beta_pos (h.c1_add_c2_lt_beta hc2)

theorem dewptV_eq_temperature (hc2 : dewptC2 rh = 0) : dewptV t rh b l = t.toInt := by
  rw [dewptV_eq, hc2, add_zero, h.moebius_c1]

theorem dewptV_le (hc2 : dewptC2 rh ≤ 0) : dewptV t rh b l ≤ t.toInt := by
  rcases hc2.eq_or_lt with heq | hlt
  · exact (h.dewptV_eq_temperature heq).le
  · rw [dewptV_eq, ← h.moebius_c1]
    have hs := mul_pos (sub_pos.mpr (h.c1_add_c2_lt_beta hc2)) (sub_pos.mpr h.c1_lt_beta)
    exact (moebius_lt h.lambda_pos h.beta_pos (by linarith) hs).le

theorem fits32_dewptV (hc2 : dewptC2 rh ≤ 0) : Fits32 (dewptV t rh b l) := by
  have hl : (l.toNat : ℝ) < 2 ^ 16 := mod_cast l.isLt
  have ht := toInt_bounds t
  have hceil : ⌈dewptV t rh b l⌉ ≤ t.toInt := Int.ceil_le.mpr (h.dewptV_le hc2)
  refine ⟨Int.le_floor.mpr ?_, by omega⟩
  push_cast
  linarith [h.neg_lambda_lt_dewptV hc2]

end DewptRegular

/-- R87's conditions make the selected coefficients regular (R81). -/
theorem magnusSel_regular {s : State}
    (hwater : 0 ≤ s.arg0.toInt → 0 < s.betaW.toNat ∧ 0 < s.lambdaW.toNat ∧ 0 < (s.lambdaW.toNat : Int) + s.arg0.toInt)
    (hice : s.arg0.toInt < 0 → 0 < s.betaI.toNat ∧ 0 < s.lambdaI.toNat ∧ 0 < (s.lambdaI.toNat : Int) + s.arg0.toInt) :
    DewptRegular s.arg0 (magnusSel s).1 (magnusSel s).2 := by
  obtain ⟨hb, hl, hsum⟩ : 0 < (magnusSel s).1.toNat ∧ 0 < (magnusSel s).2.toNat ∧ 0 < ((magnusSel s).2.toNat : Int) + s.arg0.toInt := by
    by_cases ht : 0 ≤ s.arg0.toInt
    · rw [magnusSel, if_pos (show 0 ≤ operandT s from ht)]
      exact hwater ht
    · rw [magnusSel, if_neg (show ¬ 0 ≤ operandT s from ht)]
      exact hice (not_le.mp ht)
  exact ⟨div_pos (Nat.cast_pos.mpr hb) (by norm_num), Nat.cast_pos.mpr hl, mod_cast hsum⟩

/-! ### The remaining conversion obligations -/

/-- Settles O28: RESULT is `lin`, floored for CVTRH, and both `lin` and the floor are monotonic. -/
theorem conversionIsMonotonic : Obligations.ConversionIsMonotonic := by
  intro s s' hraw
  rw [← toNat_rawCode, ← toNat_rawCode] at hraw
  constructor
  · intro hmin hspan
    obtain ⟨t, ht, -, hres⟩ := exec_cvtt_ends s
    obtain ⟨t', ht', -, hres'⟩ := exec_cvtt_ends s'
    rw [hmin, hspan] at hres'
    refine ⟨t, t', ht, ht', ?_⟩
    rw [hres, hres']
    exact lin_monotonic s.tMin s.tSpan hraw
  · intro hmin hspan hfloor
    obtain ⟨t, ht, -, hres⟩ := exec_cvtrh_ends s
    obtain ⟨t', ht', -, hres'⟩ := exec_cvtrh_ends s'
    rw [hmin, hspan, hfloor] at hres'
    obtain ⟨hup, hdown⟩ := lin_monotonic s.rhMin s.rhSpan hraw
    refine ⟨t, t', ht, ht', ?_⟩
    rw [hres, hres']
    exact ⟨fun h => max_le_max_right _ (hup h), fun h => max_le_max_right _ (hdown h)⟩

/-- Settles O29: above freezing RHICE completes with ARG1 floored, and ARG1 fits s32. -/
theorem rhicePassesThroughAboveFreezing : Obligations.RhicePassesThroughAboveFreezing := fun _ => exec_rhice_water_ends

/-- Settles O31: a λ of 0 fails the first check, and else V is `rhiceV`, whose faithful pair is absent where it does not fit. -/
theorem rhiceDomainErrors : Obligations.RhiceDomainErrors := by
  rintro s V ht rfl h
  refine ⟨_, ?_, raise_refused .domain s⟩
  rw [exec_rhice]
  by_cases hl : s.lambdaW = 0 ∨ s.lambdaI = 0
  · exact execRhice_noLambda ht hl
  · obtain ⟨hw, hi⟩ := not_or.mp hl
    have hout := (h.resolve_left hw).resolve_left hi
    exact execRhice_notFits ht hw hi (not_fits32_iff.mpr hout)

/-- Settles O33: DEWPT's checks, in the order of R86. -/
theorem dewptDomainErrors : Obligations.DewptDomainErrors := by
  rintro s b l c1 c2 den V hsel rfl rfl rfl rfl h
  obtain ⟨rfl, rfl⟩ := Prod.mk.inj (hsel.trans (magnusSel_toNat s).symm)
  refine ⟨_, ?_, raise_refused .domain s⟩
  rw [exec_dewpt]
  by_cases hdry : s.arg1.toInt ≤ 0
  · exact execDewpt_dry hdry
  have hrh : 0 < s.arg1.toInt := not_le.mp hdry
  by_cases hpole : ((magnusSel s).2.toNat : Int) + s.arg0.toInt = 0
  · exact execDewpt_pole rfl hrh hpole
  by_cases hden : dewptDen s.arg0 s.arg1 (magnusSel s).1 (magnusSel s).2 = 0
  · exact execDewpt_denZero rfl hrh ((dewptDenZero_iff hrh).mpr hden)
  have hout := ((h.resolve_left hdry).resolve_left hpole).resolve_left hden
  exact execDewpt_notFits rfl hrh hpole hden (not_fits32_iff.mpr hout)

/-- Settles O34: DEWPT completes with a faithful neighbour of V; V is at most the integer `t`, and is `t` at 100 %. -/
theorem dewPointIsAtMostTemperature : Obligations.DewPointIsAtMostTemperature := by
  intro s hrh hle hwater hice
  have hreg := magnusSel_regular hwater hice
  have hc2 := dewptC2_nonpos hrh hle
  obtain ⟨hlo, hhi⟩ := hreg.fits32_dewptV hc2
  have hsum : ((magnusSel s).2.toNat : Int) + s.arg0.toInt ≠ 0 := mod_cast hreg.sum_pos.ne'
  obtain ⟨t, ht, hframe, hres⟩ := dewptIsFaithful s _ _ _ _ _ _ (magnusSel_toNat s) rfl rfl rfl rfl hrh hsum (hreg.dewptDen_pos hc2).ne' hlo hhi
  exact ⟨t, ht, hframe, neighbour_le hres (hreg.dewptV_le hc2),
    fun h100 => neighbour_eq hres (hreg.dewptV_eq_temperature (dewptC2_hundred h100))⟩

/-- Settles O36: both commands floor what they write, and a floor other than 0 is above 0. -/
theorem humidityIsAtLeastTheFloor : Obligations.HumidityIsAtLeastTheFloor := by
  intro s t hne i hi ht herr
  have hpos : 0 < s.rhFloor.toNat := Nat.pos_of_ne_zero fun h => hne (BitVec.eq_of_toNat_eq h)
  have hfloored : ∃ v : Int, t.result.toInt = max v (s.rhFloor.toNat : Int) := by
    obtain rfl | rfl : i = .cvtrh ∨ i = .rhice := by simpa using hi
    · obtain ⟨t', ht', -, hres⟩ := exec_cvtrh_ends s
      cases ht.symm.trans ht'
      exact ⟨_, hres⟩
    · obtain ⟨v, t', ht', -, hres⟩ | ⟨t', ht', hrefused⟩ := exec_rhice_ends s
      · cases ht.symm.trans ht'
        exact ⟨v, hres⟩
      · cases ht.symm.trans ht'
        exact absurd (herr.symm.trans hrefused.frame.common.ended.err) (by decide)
  obtain ⟨v, hres⟩ := hfloored
  omega

end Sys2Proof.Machine

namespace Sys2Proof.Machine

/-! ### XFER is refused or starts a transaction (R90 to R92) -/

/-- BADLEN is the first of XFER's refusals, whatever LOCK is (R90). -/
theorem exec_xfer_badlen {opl : OpLen} {txlen rxlen : Nat} {s : State}
    (h : Config.txBufSize < txlen ∨ Config.rxBufSize < rxlen ∨ (s.chkcrc = true ∧ rxlen % 3 ≠ 0)) :
    exec (.xfer opl txlen rxlen) s = .next (finish .badlen s) := by
  by_cases htx : Config.txBufSize < txlen
  · exact if_pos htx
  by_cases hrx : Config.rxBufSize < rxlen
  · exact (if_neg htx).trans (if_pos hrx)
  · have hpart : s.chkcrc = true ∧ rxlen % 3 ≠ 0 := (h.resolve_left htx).resolve_left hrx
    exact (if_neg htx).trans ((if_neg hrx).trans (if_pos hpart))

theorem exec_xfer_noaddr {opl : OpLen} {txlen rxlen : Nat} {s : State} (htx : txlen ≤ Config.txBufSize) (hrx : rxlen ≤ Config.rxBufSize)
    (hwhole : s.chkcrc = true → rxlen % 3 = 0) (hlock : s.lock = false) : exec (.xfer opl txlen rxlen) s = .next (finish .noaddr s) := by
  have hpart : ¬ (s.chkcrc = true ∧ rxlen % 3 ≠ 0) := fun ⟨hc, hr⟩ => hr (hwhole hc)
  exact (if_neg htx.not_gt).trans ((if_neg hrx.not_gt).trans ((if_neg hpart).trans (if_pos hlock)))

/-- Settles O37: either refusal is `finish` with its code. -/
theorem xferRefusalsAreInOrder : Obligations.XferRefusalsAreInOrder := fun _ _ _ s =>
  ⟨fun h => ⟨_, exec_xfer_badlen h, raise_refused .badlen s⟩,
    fun htx hrx hwhole hlock => ⟨_, exec_xfer_noaddr htx hrx hwhole hlock, raise_refused .noaddr s⟩⟩

/-- Settles O38: the snapshot is `takeSnapshot`'s and the request is the one that `writeRequest` makes of it. -/
theorem xferStartsATransaction : Obligations.XferStartsATransaction := by
  intro opl txlen rxlen s htx hrx hwhole hlock
  have hpayload : (takeSnapshot opl txlen rxlen s).payload.length = txlen := by simp [takeSnapshot_payload]
  refine ⟨takeSnapshot opl txlen rxlen s, _, exec_xfer_accepted htx hrx hwhole hlock, rfl, rfl, rfl,
    toNat_takeSnapshot_rxlen opl txlen s hrx, rfl, rfl, takeSnapshot_payload .., ?_, ?_⟩
  · rintro rfl
    refine ⟨opcodeBytes_one s.opcode, ?_⟩
    rw [writeRequest_one (opcodeBytes_one s.opcode), hpayload]
    rfl
  · rintro rfl
    exact ⟨opcodeBytes_two s.opcode, writeRequest_two (opcodeBytes_two s.opcode)⟩

/-! ### The write answer (R93, R96) -/

/-- `after_settle()` issues the read, or ends the command where RXLEN = 0. -/
theorem afterSettle_ite (x : Snapshot) (s : State) : afterSettle x s = if x.rxlen.toNat ≠ 0 then
      { s with scnt := 0, requests := s.requests ++ [.readBlock x.addr x.rdreg x.rxlen.toNat], pend := .rd, phase := .read }
    else finish .none s := by
  split
  · exact afterSettle_of_reads s ‹_›
  · exact afterSettle_of_no_read s (not_not.mp ‹_›)

/-- The answer OK ends the wait for the write, and the settle time begins or, where it is 0, is over. -/
theorem step_writeOk {s : State} {rest : List Event} {x : Snapshot} (hi : s.inputs = .writeOk :: rest) (hp : s.phase = .write)
    (hw : s.pend = .wr) (hx : s.xs = some x) (hpeer : s.peerBusy = false) :
    step s = .next (if x.settle.toNat = 0 then afterSettle x { s with inputs := rest, pend := .none }
      else { s with inputs := rest, pend := .none, scnt := BitVec.ofNat 17 (x.settle.toNat + 1), phase := .settle }) := by
  refine step_of_act hi (onWriteOk_of_outstanding hp hw hx) fun _ => ?_
  split
  · exact (afterSettle_peerBusy ..).trans hpeer
  · exact hpeer

/-- Settles O39: ERR is `finish`, OK the settle time or, where it is 0, `after_settle()`. -/
theorem writeAnswerMovesTheTransaction : Obligations.WriteAnswerMovesTheTransaction := by
  intro s rest x hp hw hscnt hx hpeer
  refine ⟨fun hi => ?_, fun hi => ?_⟩
  · rw [step_of_act hi (onWriteErr_of_outstanding hp hw) fun h => absurd rfl h, hscnt]
    rfl
  · rw [step_writeOk hi hp hw hx hpeer]
    by_cases hsettle : x.settle.toNat = 0
    · rw [if_pos hsettle, if_neg (not_not.mpr hsettle), afterSettle_ite, hscnt]
      rfl
    · rw [if_neg hsettle, if_pos hsettle]

/-! ### The TICKs (R94, R95) -/

/-- Settles O40: above 1 the counter falls by one, at 1 the settle time is over. -/
theorem tickCountsInSettle : Obligations.TickCountsInSettle := by
  intro s rest x hi hp hw hx hne hpeer
  by_cases hmany : 1 < s.scnt.toNat
  · rw [if_pos hmany]
    exact step_of_act hi (onTick_counting hp hmany) fun _ => hpeer
  · have hlast : s.scnt.toNat = 1 := by
      have hpos : s.scnt.toNat ≠ 0 := fun h0 => hne (BitVec.eq_of_toNat_eq h0)
      omega
    rw [if_neg hmany, step_of_act hi (onTick_last hp hlast hx) fun _ => (afterSettle_peerBusy ..).trans hpeer,
      afterSettle_ite, hw]
    rfl

/-- Settles O41: `onTick` counts in SETTLE only. -/
theorem tickOutsideSettleHasNoEffect : Obligations.TickOutsideSettleHasNoEffect :=
  fun _ _ hi hp hpeer => step_of_act hi (onTick_outside hp) hpeer

/-- TICKs fewer than the counter reads leave the machine in SETTLE, the counter lower by their number (R94). -/
theorem run_ticks_counting (j : Nat) {s : State} {rest : List Event} (hp : s.phase = .settle) (hpeer : s.peerBusy = false)
    (hj : j < s.scnt.toNat) (hi : s.inputs = List.replicate j .tick ++ rest) :
    ∃ t, core.run j s = .next t ∧ t.phase = .settle ∧ t.scnt.toNat = s.scnt.toNat - j ∧ t.requests = s.requests := by
  induction j generalizing s with
  | zero => exact ⟨s, rfl, hp, rfl, rfl⟩
  | succ j ih =>
    have hlt := s.scnt.isLt
    have hcount : step s = .next { s with inputs := List.replicate j .tick ++ rest, scnt := BitVec.ofNat 17 (s.scnt.toNat - 1) } :=
      step_of_act hi (onTick_counting hp (show 1 < s.scnt.toNat by omega)) fun _ => hpeer
    have hleft : (BitVec.ofNat 17 (s.scnt.toNat - 1)).toNat = s.scnt.toNat - 1 := by
      rw [BitVec.toNat_ofNat]
      omega
    obtain ⟨t, ht, hphase, hscnt, hrequests⟩ := ih
      (s := { s with inputs := List.replicate j .tick ++ rest, scnt := BitVec.ofNat 17 (s.scnt.toNat - 1) })
      hp hpeer (by rw [hleft]; omega) rfl
    exact ⟨t, (run_succ hcount j).trans ht, hphase, by rw [hscnt, hleft]; omega, hrequests⟩

/-- Settles O44: the answer loads the counter, each TICK but the last counts, and the last is `after_settle()`. -/
theorem settleTakesSettlePlusOneTicks : Obligations.SettleTakesSettlePlusOneTicks := by
  intro s x rest hp hw hx hne hpeer hi
  have hlt := x.settle.isLt
  have hsettle : x.settle.toNat ≠ 0 := fun h0 => hne (BitVec.eq_of_toNat_eq h0)
  refine ⟨fun j hj => ?_, afterSettle x { s with inputs := rest }, ?_, ?_, ?_, fun hread => ?_, fun hread => ?_⟩
  · have hwait := step_writeOk hi hp hw hx hpeer
    rw [if_neg hsettle] at hwait
    have hload : (BitVec.ofNat 17 (x.settle.toNat + 1)).toNat = x.settle.toNat + 1 := by
      rw [BitVec.toNat_ofNat]
      omega
    have hsplit : List.replicate (x.settle.toNat + 1) Event.tick ++ rest
        = List.replicate j .tick ++ (List.replicate (x.settle.toNat + 1 - j) .tick ++ rest) := by
      rw [← List.append_assoc, List.replicate_append_replicate]
      congr 2
      omega
    obtain ⟨t, ht, hphase, hscnt, hrequests⟩ := run_ticks_counting j (s := { s with
      inputs := List.replicate (x.settle.toNat + 1) .tick ++ rest
      pend := .none, scnt := BitVec.ofNat 17 (x.settle.toNat + 1), phase := .settle }) rfl hpeer (by rw [hload]; omega) hsplit
    exact ⟨t, (run_add (run_one hwait) j).trans ht, hphase, by rw [hscnt, hload], hrequests⟩
  · rw [Nat.add_left_comm, Nat.add_comm 1]
    exact run_writeOk_ticks hp hw hx hsettle hpeer hi
  · rw [afterSettle_eq]
  · rw [afterSettle_eq]
  · rw [afterSettle_of_reads _ fun h0 => hread (BitVec.eq_of_toNat_eq h0)]
    exact ⟨rfl, rfl⟩
  · rw [afterSettle_of_no_read _ (congrArg BitVec.toNat hread)]
    exact ⟨finish_endedWith .none _, rfl⟩

/-! ### The read answer (R97 to R99) -/

/-- Settles O42: the bytes land, and the checksum dispatcher ends the command in the same step. -/
theorem readAnswerLandsAndEnds : Obligations.ReadAnswerLandsAndEnds := by
  intro s rest x bytes hi hp hw hx hpeer hlen hrx
  obtain ⟨e, t, hend, hcommon, htx, hresult, hclear, hchecked⟩ := dispatchChecksum_ends hrx
    { s with inputs := rest, pend := .none, rx := s.rx.writeBytes 0 bytes }
  have hstep : step s = .next t :=
    step_of_act hi (Eq.trans (onReadOk_of_outstanding hp hw hx hlen) hend) fun _ => hcommon.environment.peerBusy.trans hpeer
  refine ⟨t, hstep, fun k => ?_, fun hchk => ?_, fun hchk => ?_, { hcommon.setup with }, { hcommon.sticky with },
    { hcommon.environment with }, htx, hresult, hcommon.xs, hcommon.inputs⟩
  · rw [hcommon.rx k, ← hlen]
    exact Memory.read_landed s.rx bytes k
  · obtain ⟨rfl, hrecord⟩ := hclear hchk
    exact ⟨{ hrecord with }, hcommon.ended⟩
  · obtain ⟨hmask, hcount, hwarn, rfl⟩ := hchecked hchk
    refine ⟨fun i => ?_, hcount, hwarn, hcommon.ended⟩
    rw [hmask, ← hlen]
    by_cases hword : i < bytes.length / 3
    · rw [wordFails_landed s.rx hword]
    · simp [hword]

/-- Settles O43: ERR is `finish` with BUSRD. -/
theorem readErrorEndsWithBusrd : Obligations.ReadErrorEndsWithBusrd := by
  intro s rest hi hp hw hscnt
  rw [step_of_act hi (onReadErr_of_outstanding hp hw) fun h => absurd rfl h, hscnt]
  rfl

/-! ### Who moves a transaction (R100, R101) -/

/-- The controller and the snapshot are as they were, and no request has been issued. -/
structure SameTransaction (s t : State) : Prop where
  phase : t.phase = s.phase
  pend : t.pend = s.pend
  scnt : t.scnt = s.scnt
  xs : t.xs = s.xs
  requests : t.requests = s.requests

theorem HostWrote.sameTransaction {s t : State} (h : HostWrote s t) : SameTransaction s t := ⟨h.phase, h.pend, h.scnt, h.xs, h.requests⟩

/-- Only an answer moves a transaction that waits for one, and only a TICK one that settles; reset apart. -/
theorem Acted.sameTransaction {e : Event} {s t : State} (h : Acted e s t) (hreset : e ≠ .reset) (hidle : s.phase ≠ .idle)
    (hanswer : e.isAnswer = true → s.phase = .settle) (htick : e = .tick → s.phase ≠ .settle) : SameTransaction s t := by
  have hwaits : ∀ {f : Phase}, s.phase = f → f ≠ .settle → e.isAnswer = true → SameTransaction s t :=
    fun hp hf ha => absurd (hp.symm.trans (hanswer ha)) hf
  cases h with
  | write t off v _ _ hw => exact hw.sameTransaction
  | drop => exact (dropCommand_wrote s).sameTransaction
  | read | idle | peer => exact ⟨rfl, rfl, rfl, rfl, rfl⟩
  | command v c m _ hp | start v x _ hp => exact absurd hp hidle
  | count he hp | settled x he hp => exact absurd hp (htick he)
  | wait x he hp | noWait x he hp => exact hwaits hp nofun (he ▸ rfl)
  | writeErr he hp | readErr he hp => exact hwaits hp nofun (he ▸ rfl)
  | landed x bytes he hp | checked x bytes he hp => exact hwaits hp nofun (he ▸ rfl)
  | reset he => exact absurd he hreset

/-- Settles O46: an event that is not the owner's is neither an answer in WRITE or READ nor a TICK in SETTLE. -/
theorem onlyTheOwnerMovesATransaction : Obligations.OnlyTheOwnerMovesATransaction := by
  intro s t e rest hi h hreset hforeign
  have hsame : SameTransaction { s with inputs := rest } t := by
    refine (step_acted hi h).1.sameTransaction hreset ?_ ?_ ?_
    · rintro (hidle : s.phase = .idle)
      simp [hidle] at hforeign
    · intro ha
      exact (hforeign.resolve_left fun ⟨_, hna⟩ => by simp [ha] at hna).1
    · rintro rfl (hsettle : s.phase = .settle)
      simp [hsettle] at hforeign
  exact ⟨hsame.phase, hsame.pend, hsame.scnt, hsame.xs, hsame.requests⟩

/-- A TICK or a legal host access leaves a transaction that waits for an answer waiting (R95, R102). -/
theorem step_unanswered {s : State} {e : Event} {rest : List Event} (hi : s.inputs = e :: rest) (hp : s.phase = .write ∨ s.phase = .read)
    (hpeer : s.peerBusy = false) (he : e = .tick ∨ e.isLegalHost = true) :
    ∃ t, step s = .next t ∧ SameTransaction s t ∧ t.peerBusy = false ∧ t.inputs = rest := by
  obtain rfl | hlegal := he
  · have hsettle : s.phase ≠ .settle := fun h => by simp [h] at hp
    exact ⟨_, tickOutsideSettleHasNoEffect s rest hi hsettle fun _ => hpeer, ⟨rfl, rfl, rfl, rfl, rfl⟩, hpeer, rfl⟩
  · have hidle : s.phase ≠ .idle := fun h => by simp [h] at hp
    obtain ⟨t, d, ht, hw⟩ := step_legalHost_busy hi hidle hpeer hlegal
    exact ⟨t, ht, { hw.sameTransaction with }, hw.peerBusy.trans hpeer, hw.inputs⟩

/-- Settles O47: by induction on the number of steps; with no event left the state stays. -/
theorem unansweredTransactionStaysBusy : Obligations.UnansweredTransactionStaysBusy := by
  intro n
  induction n with
  | zero => exact fun s _ _ _ => ⟨s, rfl, rfl, rfl, rfl⟩
  | succ n ih =>
    intro s hp hpeer hevents
    rcases hi : s.inputs with _ | ⟨e, rest⟩
    · rw [run_succ (step_nil hi)]
      exact ih s hp hpeer hevents
    · rw [hi] at hevents
      obtain ⟨he, hrest⟩ := List.forall_mem_cons.mp hevents
      obtain ⟨u, hu, hsame, hupeer, huinputs⟩ := step_unanswered hi hp hpeer he
      rw [run_succ hu, ← hsame.phase, ← hsame.pend, ← hsame.requests]
      exact ih u (by rwa [hsame.phase]) hupeer (by rwa [huinputs])

end Sys2Proof.Machine

namespace Sys2Proof.Machine

/-! ### A command that ends in IDLE, or starts a transaction (R90, R109) -/

/-- With nothing under way, ending a command sets ERR and DONE only (R109). -/
theorem finish_of_idle {s : State} (hphase : s.phase = .idle) (hpend : s.pend = .none) (hscnt : s.scnt = 0) (e : ErrCode) :
    finish e s = { s with err := e, done := true } := by
  rw [finish, ← hphase, ← hpend, ← hscnt]

/-- Once DONE is 1 the interrupt output is IE (R115). -/
theorem irq_of_done {s : State} (h : s.done = true) : s.irq = s.ie := by rw [State.irq, h, Bool.and_true]

theorem startTransaction_sameSetup (x : Snapshot) (s : State) : SameSetup s (startTransaction x s) := by constructor <;> rfl

/-! ### What clears OVR (R111) -/

@[simp] theorem afterSettle_ovr (x : Snapshot) (s : State) : (afterSettle x s).ovr = s.ovr := by rw [afterSettle_eq]

theorem Wrote.ovr {s m : State} (h : Wrote s m) : m.ovr = s.ovr := by rw [h.eq]

/-- Only reset and a write of 1 to bit 9 of STATUS clear OVR (R22, R111). -/
theorem Acted.ovr_cleared {e : Event} {s t : State} (h : Acted e s t) (hs : s.ovr = true) (ht : t.ovr = false) :
    e = .reset ∨ ∃ v : Word, e = .hostWrite .w32 0x008 v ∧ v.getLsbD 9 = true := by
  have hchanged : t.ovr ≠ s.ovr := by rw [hs, ht]; decide
  cases h with
  | write t off v he _ _ ho =>
    obtain ⟨rfl, hbit⟩ := ho hs ht
    exact .inr ⟨v, he, hbit⟩
  | reset he => exact .inl he
  | drop => exact absurd ht nofun
  | command v c m _ _ hw => exact absurd hw.ovr hchanged
  | settled x | noWait x => exact absurd (afterSettle_ovr x _) hchanged
  | _ => exact absurd rfl hchanged

/-! ### Two transactions on one bus (R121) -/

theorem guardBus_refuses {s : State} (hbusy : s.phase ≠ .idle) (hpeer : s.peerBusy = true) :
    guardBus (.next s) = .refused .twoTransactionsOnBus :=
  if_pos (Bool.and_eq_true_iff.mpr ⟨(busy_iff s).mpr hbusy, hpeer⟩)

theorem act_peerStarts_of_peerBusy {s : State} (hpeer : s.peerBusy = true) : act .peerStarts s = .refused .twoTransactionsOnBus :=
  if_pos hpeer

theorem act_peerStarts_of_peerFree {s : State} (hpeer : s.peerBusy = false) : act .peerStarts s = .next { s with peerBusy := true } :=
  if_neg (Bool.eq_false_iff.mp hpeer)

/-- The start of another instance's transaction is refused where one is in flight already, its own or this one's. -/
theorem serve_peerStarts_refused {s : State} (h : s.phase ≠ .idle ∨ s.peerBusy = true) :
    serve .peerStarts s = .refused .twoTransactionsOnBus := by
  unfold serve
  cases hpeer : s.peerBusy with
  | true => rw [act_peerStarts_of_peerBusy hpeer]; rfl
  | false =>
    rw [act_peerStarts_of_peerFree hpeer]
    exact guardBus_refuses (h.resolve_right (Bool.eq_false_iff.mp hpeer)) rfl

/-! ### The obligations on dropped commands, endings and the bus -/

/-- Settles O8: while BUSY a CMD write is `dropCommand`, and no other way an event can act clears OVR. -/
theorem commandWhileBusyIsDropped : Obligations.CommandWhileBusyIsDropped :=
  ⟨fun s rest v hi hbusy hpeer =>
      step_hostWrite hi (by decide) (submit_busy (s := { s with inputs := rest }) hbusy v) fun _ => hpeer,
    fun _ _ _ _ hi h hs ht => (step_acted hi h).1.ovr_cleared hs ht⟩

/-- Settles O50: a command ends through `finish`, having written RESULT, TX and the record at most, or is an XFER that starts its transaction. -/
theorem everyCommandCompletes : Obligations.EveryCommandCompletes := by
  intro i s
  obtain ⟨e, m, h, hwrote, -⟩ | ⟨opl, txlen, rxlen, rfl, -, -, -, -, h⟩ := exec_cases i s
  · obtain ⟨hended, hsetup, hsticky, henv, hinputs, -, hrx⟩ := finish_endedCommon hwrote.eq e
    have hirq : (finish e m).irq = s.ie := (irq_of_done hended.done).trans hsetup.ie
    exact ⟨finish e m, h, hsetup, hrx, hsticky, henv.hostData, henv.peerBusy, hinputs, .inl ⟨hended.phase, hended.done, hirq⟩⟩
  · exact ⟨_, h, startTransaction_sameSetup _ s, fun _ => rfl, ⟨rfl, rfl⟩, rfl, rfl, rfl, .inr ⟨⟨opl, txlen, rxlen, rfl⟩, rfl, rfl⟩⟩

/-- Settles O51: an ending with another code than NONE or CRC has written nothing before `finish`, and an accepted XFER leaves DONE 0. -/
theorem errorsArePrecise : Obligations.ErrorsArePrecise := by
  intro i s t hdone hphase hpend hscnt h hended hnone hcrc
  obtain ⟨e, m, hm, -, -, hcode⟩ | ⟨opl, txlen, rxlen, -, -, -, -, -, hstart⟩ := exec_cases i s
  · obtain rfl : finish e m = t := Host.Outcome.next.inj (hm.symm.trans h)
    obtain ⟨he, rfl⟩ := (hcode.resolve_left hnone).resolve_left hcrc
    exact ⟨finish_of_idle hphase hpend hscnt e, he⟩
  · obtain rfl := Host.Outcome.next.inj (hstart.symm.trans h)
    exact absurd (hdone.symm.trans hended) nofun

/-- Settles O54: `act` refuses a second master, and the guard of the bus lets no step answer a state with two transactions in flight. -/
theorem foreignTransactionsAreRefused : Obligations.ForeignTransactionsAreRefused := by
  refine ⟨fun s rest hi => step_cons hi, fun s rest hi htwo => ?_, fun s t e rest hi h ⟨hbusy, hpeer⟩ => ?_⟩
  · rw [step_cons hi]
    exact serve_peerStarts_refused htwo
  · have hfree := (step_acted hi h).2 hbusy
    exact absurd (hfree.symm.trans hpeer) nofun

end Sys2Proof.Machine

namespace Sys2Proof.Machine

/-! ### The invariants of an idle state with empty buffers (R124) -/

theorem BuffersCanonical.of_empty {s : State} (htx : s.tx = []) (hrx : s.rx = []) : BuffersCanonical s := by
  have hempty : Memory.wf [] := ⟨.nil, fun _ hc => absurd hc List.not_mem_nil⟩
  exact ⟨htx.symm ▸ hempty, hrx.symm ▸ hempty⟩

/-- In IDLE the controller is in step with itself once nothing is pending and the counter is 0: the rest speaks of transactions only. -/
theorem ControllerInv.of_idle {s : State} (hphase : s.phase = .idle) (hpend : s.pend = .none) (hscnt : s.scnt = 0) : ControllerInv s where
  pend := by rw [hphase]; exact hpend
  scnt_outside := fun _ => hscnt
  scnt_inside := fun h => nomatch hphase.symm.trans h
  held := fun h => absurd hphase h
  locked := fun h => absurd hphase h
  notDone := fun h => absurd hphase h

theorem BuffersBounded.of_empty {s : State} (htx : s.tx = []) (hrx : s.rx = []) (hxs : s.xs = none) : BuffersBounded s where
  tx := by rw [htx]; exact fun _ hc => absurd hc List.not_mem_nil
  rx := by rw [hrx]; exact fun _ hc => absurd hc List.not_mem_nil
  xs := fun _ hx => nomatch hxs.symm.trans hx

/-- Settles O60: `State.reset` is idle, lists no byte and holds no snapshot, and its registers are those `applyReset` gives. -/
theorem resetMeetsTheInvariants : Obligations.ResetMeetsTheInvariants :=
  ⟨.of_empty rfl rfl, .of_idle rfl rfl rfl, .of_empty rfl rfl rfl, applyReset_registersLegal State.reset⟩

end Sys2Proof.Machine
